-- ==== Sys2Proof/Word.lean ====
section
/-! DEFINITION. The word and byte types of the block and the plain conversions between them
(20_memory.md R63: little-endian words; 00_scope.md R11: bit numbering). -/

namespace Sys2Proof

/-- One byte of an array, and one character of a symbol string (00_scope.md R15). -/
abbrev Byte := BitVec 8

/-- One 32-bit register or command word (10_state.md section 2; 30_encoding.md R90). -/
abbrev Word := BitVec 32

end Sys2Proof
end

