-- ==== Sys2Proof/Syntax.lean ====
section
/-! DEFINITION. The commands of the block, one constructor per row of spec/opcode_table.json
(30_encoding.md R97). Commands are this hardware's instructions (00_scope.md section 6). -/

namespace Sys2Proof

/-- A decoded command. The operands are the fields the row uses (30_encoding.md R90, R97), zero-extended
unsigned numbers (R93, R94); bits a row ignores are no operands (R95). -/
inductive Instr where
  /-- NOP (44_control.md R222). -/
  | nop
  /-- ENC.INT (42_encoder.md R166). -/
  | encInt (check lenEn : Bool) (step len : Nat)
  /-- ENC.BYTES (42_encoder.md R167). -/
  | encBytes (check lenEn : Bool) (step len : Nat)
  /-- ENC.BADSEL (42_encoder.md R168). -/
  | encBadsel
  /-- DEC.INT (43_decoder.md R196). -/
  | decInt (check : Bool)
  /-- DEC.STR (43_decoder.md R197). -/
  | decStr (check lenEn : Bool) (len : Nat)
  /-- DEC.BADSEL (43_decoder.md R198). -/
  | decBadsel
  /-- PACK (41_bit_packer.md R142). -/
  | pack
  /-- UNPACK (41_bit_packer.md R143). -/
  | unpack (lenEn : Bool) (len : Nat)
  /-- SYMFOR (40_alphabet.md R120). -/
  | symfor (imm8 : Nat)
  /-- VALFOR (40_alphabet.md R121). -/
  | valfor (imm8 : Nat)
  /-- CHKSUM (40_alphabet.md R122). -/
  | chksum
  /-- RESERVED, OP 8 to 15 (44_control.md R223). -/
  | reserved
  deriving DecidableEq, Repr

end Sys2Proof
end

