-- ==== Sys2Proof/WellFormed.lean ====
section
/-! DEFINITION. Which terms of `Instr` a command word can hold: every operand fits its field
(30_encoding.md R90: STEP 8 bits, LEN 16 bits, IMM8 8 bits). -/

namespace Sys2Proof.Instr

/-- Each operand fits its field of 30_encoding.md R90. Flags are one bit and always fit. -/
abbrev WellFormed : Instr → Prop
  | .nop | .encBadsel | .decInt _ | .decBadsel | .pack | .chksum | .reserved => True
  | .encInt _ _ step len => step < 2 ^ 8 ∧ len < 2 ^ 16
  | .encBytes _ _ step len => step < 2 ^ 8 ∧ len < 2 ^ 16
  | .decStr _ _ len => len < 2 ^ 16
  | .unpack _ len => len < 2 ^ 16
  | .symfor imm8 => imm8 < 2 ^ 8
  | .valfor imm8 => imm8 < 2 ^ 8

end Sys2Proof.Instr
end

