-- ==== Sys2Proof/Decode.lean ====
section
/-! DEFINITION. The command decoder (30_encoding.md R97), total on words and rejecting byte strings
that hold no whole word by name; then the encoder (30_encoding.md R90, R98) and the opcode table. -/

namespace Sys2Proof

/-- `v[hi:lo]`: bits hi down to lo of a word, as an unsigned number (00_scope.md R11). -/
def bitsOf (w : Word) (hi lo : Nat) : Nat := w.toNat / 2 ^ lo % 2 ^ (hi + 1 - lo)

/-- `v[i]`: bit i of a word (00_scope.md R11). -/
def bitOf (w : Word) (i : Nat) : Bool := bitsOf w i i == 1

/-- The total decoding function of 30_encoding.md R97, line by line. It reads no other bit (R95). -/
def decode (w : Word) : Instr :=
  let op := bitsOf w 3 0
  let sel := bitsOf w 5 4
  let check := bitOf w 6
  let lenEn := bitOf w 7
  let step := bitsOf w 15 8
  let len := bitsOf w 31 16
  let imm8 := bitsOf w 23 16
  if op = 0x0 then .nop
  else if op = 0x1 then
    if sel = 0 then .encInt check lenEn step len
    else if sel = 1 then .encBytes check lenEn step len
    else .encBadsel
  else if op = 0x2 then
    if sel = 0 then .decInt check
    else if sel = 1 then .decStr check lenEn len
    else .decBadsel
  else if op = 0x3 then .pack
  else if op = 0x4 then .unpack lenEn len
  else if op = 0x5 then .symfor imm8
  else if op = 0x6 then .valfor imm8
  else if op = 0x7 then .chksum
  else .reserved

/-- The four bytes of a word, least significant first: the order of the bus (20_memory.md R63). -/
def wordBytes (w : Word) : List Byte :=
  [w.extractLsb' 0 8, w.extractLsb' 8 8, w.extractLsb' 16 8, w.extractLsb' 24 8]

/-- The word of four bytes, `b0` the least significant (20_memory.md R63). -/
def wordOfBytes (b0 b1 b2 b3 : Byte) : Word := b3 ++ b2 ++ b1 ++ b0

/-- Why a byte string gives no command. -/
inductive DecodeError where
  /-- Fewer than four bytes are left: every command is one 32-bit word (30_encoding.md R90). Safe. -/
  | truncated
  deriving DecidableEq, Repr

/-- The command the first four bytes hold, and the bytes after it. No word is refused: every 32-bit word
is exactly one row (30_encoding.md R96). -/
def decodeBytes : List Byte → Except DecodeError (Instr × List Byte)
  | b0 :: b1 :: b2 :: b3 :: rest => .ok (decode (wordOfBytes b0 b1 b2 b3), rest)
  | _ => .error .truncated

/-- What the decoder reads from a table row's word `w` of `nbits` bits; the bits above `nbits` are 0.
A row longer than the one 32-bit format has no meaning here. -/
def decodeTableWord (nbits w : Nat) : Option Instr :=
  if nbits ≤ 32 then
    match decodeBytes (wordBytes (BitVec.ofNat 32 (w % 2 ^ nbits))) with
    | .ok (i, _) => some i
    | .error _ => none
  else none

/-! ## The encoder -/

/-- The option bits of a command: CHECK at bit 6, LEN_EN at bit 7, STEP at bits 15:8, LEN at bits 31:16
(30_encoding.md R90, R98). -/
def optionBits (check lenEn : Bool) (step len : Nat) : Nat :=
  check.toNat * 2 ^ 6 + lenEn.toNat * 2 ^ 7 + step * 2 ^ 8 + len * 2 ^ 16

/-- The canonical word of a command, ignored bits 0 (30_encoding.md R95, R98; the rows that R98 spells
as `.word` take their `match` of R97). -/
def encode : Instr → Word
  | .nop => 0x00000000
  | .encInt check lenEn step len => BitVec.ofNat 32 (0x01 + optionBits check lenEn step len)
  | .encBytes check lenEn step len => BitVec.ofNat 32 (0x11 + optionBits check lenEn step len)
  | .encBadsel => 0x00000021
  | .decInt check => BitVec.ofNat 32 (0x02 + optionBits check false 0 0)
  | .decStr check lenEn len => BitVec.ofNat 32 (0x12 + optionBits check lenEn 0 len)
  | .decBadsel => 0x00000022
  | .pack => 0x00000003
  | .unpack lenEn len => BitVec.ofNat 32 (0x04 + optionBits false lenEn 0 len)
  | .symfor imm8 => BitVec.ofNat 32 (0x05 + imm8 * 2 ^ 16)
  | .valfor imm8 => BitVec.ofNat 32 (0x06 + imm8 * 2 ^ 16)
  | .chksum => 0x00000007
  | .reserved => 0x00000008

/-! ## The opcode table -/

/-- The mnemonic of a command's row in spec/opcode_table.json. -/
def Instr.mnemonic : Instr → String
  | .nop => "NOP"
  | .encInt .. => "ENC.INT"
  | .encBytes .. => "ENC.BYTES"
  | .encBadsel => "ENC.BADSEL"
  | .decInt _ => "DEC.INT"
  | .decStr .. => "DEC.STR"
  | .decBadsel => "DEC.BADSEL"
  | .pack => "PACK"
  | .unpack .. => "UNPACK"
  | .symfor _ => "SYMFOR"
  | .valfor _ => "VALFOR"
  | .chksum => "CHKSUM"
  | .reserved => "RESERVED"

/-- One row of the table of 30_encoding.md R97. -/
structure TableRow where
  mnemonic : String
  pattern  : Word
  mask     : Word
  deriving DecidableEq, Repr

/-- A word selects a row when `(w & mask) = match` (30_encoding.md R97). -/
def TableRow.selects (r : TableRow) (w : Word) : Bool := (w &&& r.mask) == r.pattern

/-- The table of 30_encoding.md R97 (spec/opcode_table.json), in its order. -/
def opcodeTable : List TableRow :=
  [ ⟨"NOP", 0x00000000, 0x0000000F⟩,
    ⟨"ENC.INT", 0x00000001, 0x0000003F⟩,
    ⟨"ENC.BYTES", 0x00000011, 0x0000003F⟩,
    ⟨"ENC.BADSEL", 0x00000021, 0x0000002F⟩,
    ⟨"DEC.INT", 0x00000002, 0x0000003F⟩,
    ⟨"DEC.STR", 0x00000012, 0x0000003F⟩,
    ⟨"DEC.BADSEL", 0x00000022, 0x0000002F⟩,
    ⟨"PACK", 0x00000003, 0x0000000F⟩,
    ⟨"UNPACK", 0x00000004, 0x0000000F⟩,
    ⟨"SYMFOR", 0x00000005, 0x0000000F⟩,
    ⟨"VALFOR", 0x00000006, 0x0000000F⟩,
    ⟨"CHKSUM", 0x00000007, 0x0000000F⟩,
    ⟨"RESERVED", 0x00000008, 0x00000008⟩ ]

/-- The bits of a word that a command reads: its fixed bits and its fields. The others are the `x`
positions of its encoding (30_encoding.md R95, R97). The low `xxx` of RESERVED are ignored too. -/
def Instr.usedBits : Instr → Word
  | .nop => 0x0000000F
  | .encInt .. => 0xFFFFFFFF
  | .encBytes .. => 0xFFFFFFFF
  | .encBadsel => 0x0000002F
  | .decInt _ => 0x0000007F
  | .decStr .. => 0xFFFF00FF
  | .decBadsel => 0x0000002F
  | .pack => 0x0000000F
  | .unpack .. => 0xFFFF008F
  | .symfor _ => 0x00FF000F
  | .valfor _ => 0x00FF000F
  | .chksum => 0x0000000F
  | .reserved => 0x00000008

end Sys2Proof
end

