-- ==== Sys2Proof/Config.lean ====
section
/-! DEFINITION. What one instance of the block fixes (00_scope.md R6 to R10) and the one free value
of the spec (44_control.md R225). -/

namespace Sys2Proof

/-- The OPEN parameters of an instance (00_scope.md R6, R7, R10). `LAT` (R9) is not among them: it shows
at transaction level only as an interleaving, which `State.sched` holds. -/
structure Config where
  /-- VB: bytes in VALUE and in BYTE_BUF. -/
  vb     : Nat
  /-- SYM_CAP: bytes in SYM_BUF. -/
  symCap : Nat
  /-- BASE: the window's address in the host's address space. -/
  base   : Nat
  deriving DecidableEq, Repr

namespace Config

/-- VALUE_BITS = 8 * VB (00_scope.md R6). -/
def valueBits (c : Config) : Nat := 8 * c.vb

/-- The bounds of 00_scope.md R6 (VB), R7 (SYM_CAP), R8 (the two together) and R10 (BASE).
A configuration outside them is refused (93_implementation_defined.md U4). -/
abbrev Legal (c : Config) : Prop :=
  (c.vb % 4 = 0 ∧ 4 ≤ c.vb ∧ c.vb ≤ 256) ∧
  (c.symCap % 4 = 0 ∧ 4 ≤ c.symCap ∧ c.symCap ≤ 1024) ∧
  2 * ((8 * c.vb + 4) / 5) ≤ c.symCap ∧
  c.base % 0x800 = 0

/-- The reference configuration (R6, R7). DESIGN CHOICE: the spec names no reference BASE; it is 0 here
(assumption log 3), and no statement rests on it. -/
def reference : Config := { vb := 32, symCap := 256, base := 0 }

/-- The command set's name, the only identity a model reports (00_scope.md R3). -/
def identity : String := "CK32-CORE-1"

/-- The free value of 44_control.md R225 and 93_implementation_defined.md U2: the word the `n`-th
unspecified host read returns. It has no body, so nothing is known of it (assumption log 7). -/
opaque freeWord : Nat → Word

end Config

end Sys2Proof
end

