-- ==== Sys2Proof/Machine/State.lean ====
section
/-! DEFINITION. The machine's state as plain data (10_state.md R20 to R38), the ways a step can stop,
the events the outside world can send, and the state right after reset (70_reset_and_hazards.md R260). -/

namespace Sys2Proof.Machine

open Sys2Proof

/-! ## Stops -/

/-- The machine stops with one of these. -/
inductive Fault where
  /-- UNINIT_READ of 93_implementation_defined.md U1: PACK, ENC.BYTES, DEC.INT, DEC.STR, or a host read
  while BUSY = 0, used the byte at window offset `offset` of BYTE_BUF or SYM_BUF, which nothing has written
  since reset. Safe: a chip returns whatever its RAM holds and goes on. -/
  | uninitRead (offset : Nat)
  deriving DecidableEq, Repr

/-- No meaning for the step. -/
inductive Refusal where
  /-- Raised by an arm of `exec` whose instruction has no meaning yet. Safe. No arm raises it. -/
  | notModelled (mnemonic : String)
  /-- Raised by `step` when the instance's parameters are outside the bounds of 00_scope.md R6 to R8 and R10:
  93_implementation_defined.md U4 refuses such a configuration. Safe: no such instance exists. -/
  | illegalConfig
  deriving DecidableEq, Repr

/-! ## Command errors -/

/-- A command error and its information (60_exceptions.md R231, R232), the `E(info)` of 00_scope.md R14.
It is no stop: the command completes with an error report (R233). -/
inductive CmdError where
  | unsupportedInputType
  | lengthTooSmall
  | invalidCharacter (pos : Nat)
  | checksumMismatch (actual expected : Fin 37)
  | unsupportedTargetType
  | illegalCommand
  | capacityExceeded
  | valueOutOfRange
  deriving DecidableEq, Repr

/-- How a command's pseudocode ends (44_control.md R221): with its outcome, with the first `raise` it reaches
(00_scope.md R14), or in the model's one fault. -/
inductive Result (α : Type) where
  | ok (a : α)
  | raise (e : CmdError)
  | fault (f : Fault)
  deriving DecidableEq, Repr

/-- An entry of DEC_LUT (10_state.md R31). -/
inductive SymClass where
  | value (v : Fin 37)
  | skip
  | invalid
  deriving DecidableEq, Repr

/-! ## Memory -/

/-- Byte memory keyed by offset in the window (20_memory.md R60): the arrays VALUE, BYTE_BUF and SYM_BUF.
Kept in the canonical form `Mem.wf` of Machine/Ops.lean. -/
abbrev Mem := List Host.Cell

/-! ## Registers with fields -/

/-- STATUS (10_state.md R23). Its reserved bits are RAZ/WI and hold nothing. -/
structure Status where
  busy    : Bool
  done    : Bool
  err     : Bool
  werr    : Bool
  errCode : BitVec 8
  deriving DecidableEq, Repr

/-- CHK (10_state.md R25). Its other bits read 0 and hold nothing. -/
structure Chk where
  actual   : BitVec 6
  expected : BitVec 6
  deriving DecidableEq, Repr

/-! ## What the outside world does -/

/-- The width of a bus access (20_memory.md R61). -/
inductive Width where
  | w8 | w16 | w32 | w64
  deriving DecidableEq, Repr

/-- One host bus access: MemRead and MemWrite of 00_scope.md R13. A write of fewer than 64 bits takes the low
bits of `data`. -/
inductive Access where
  | read (addr : Nat) (width : Width)
  | write (addr : Nat) (width : Width) (data : BitVec 64)
  deriving DecidableEq, Repr

/-- One operation of the host's script: an access, or the loop POLL of 30_encoding.md R99. -/
inductive HostOp where
  | access (a : Access)
  | poll
  deriving DecidableEq, Repr

/-- Who moves next: the host, the engine (10_state.md R20), or the reset input (70_reset_and_hazards.md R260). -/
inductive Turn where
  | host | engine | reset
  deriving DecidableEq, Repr

/-- The answer to a bus access. -/
inductive Response where
  /-- A read's word. -/
  | data (w : Word)
  /-- A write's ordinary response (20_memory.md R64, 44_control.md R224). -/
  | ok
  /-- The bus error of 20_memory.md R61 and R62 (its form is the platform's: 93 U8). -/
  | busError
  /-- The address is outside the window: the access did not reach the block (20_memory.md R62). -/
  | notReached
  deriving DecidableEq, Repr

/-! ## The state -/

/-- Everything the spec gives the machine (10_state.md R20: "Nothing else is state"), the parameters of the
instance, and the model's own last four fields (INVENTORY.md, State). -/
structure State where
  /-- The parameters of the instance (00_scope.md R6, R7, R10) and so the register CFG (10_state.md R29). -/
  cfg     : Config
  /-- CMD (10_state.md R22). With BUSY = 1 it is the command in flight (R37). -/
  cmd     : Word
  /-- STATUS (R23). -/
  status  : Status
  /-- ERR_POS.POS (R24). -/
  errPos  : BitVec 16
  /-- CHK (R25). -/
  chk     : Chk
  /-- RESULT (R26). -/
  result  : Word
  /-- SYM_LEN.LEN (R27). -/
  symLen  : BitVec 16
  /-- BYTE_LEN.LEN (R28). -/
  byteLen : BitVec 16
  /-- VALUE, BYTE_BUF and SYM_BUF (R33, R34, R35). -/
  mem     : Mem
  /-- The model's own: what the host will do, in order (20_memory.md R66). -/
  host    : List HostOp
  /-- The model's own: who moves next (44_control.md R221). -/
  sched   : List Turn
  /-- The model's own: the answer to the access served last (00_scope.md R13). -/
  resp    : Option Response
  /-- The model's own: how many unspecified words have been drawn (44_control.md R225). -/
  draws   : Nat
  deriving DecidableEq, Repr

/-- The reset values of 70_reset_and_hazards.md R260 for an instance with parameters `c`. VALUE is all 0 and the
other two arrays hold nothing, which is the empty list. The last four fields: assumption log 4 to 7. -/
def State.resetWith (c : Config) : State :=
  { cfg := c, cmd := 0x00000000,
    status := { busy := false, done := false, err := false, werr := false, errCode := 0x00 },
    errPos := 0, chk := { actual := 0, expected := 0 }, result := 0x00000000,
    symLen := 0, byteLen := 0, mem := [],
    host := [], sched := [], resp := none, draws := 0 }

/-- The machine right after reset, in the reference configuration (00_scope.md R6, R7). -/
def State.reset : State := State.resetWith Config.reference

end Sys2Proof.Machine
end

