-- ==== Sys2Proof/Machine/Flags.lean ====
section
/-! DEFINITION. The STATUS and CHK registers as words, every way STATUS changes (10_state.md R23;
44_control.md R220, R221, R224; 60_exceptions.md R233), and the error codes (60_exceptions.md R231). -/

namespace Sys2Proof.Machine

open Sys2Proof

/-- The code of an error, the value of STATUS.ERR_CODE (60_exceptions.md R231). -/
def CmdError.code : CmdError → BitVec 8
  | .unsupportedInputType => 0x01
  | .lengthTooSmall => 0x02
  | .invalidCharacter _ => 0x03
  | .checksumMismatch _ _ => 0x04
  | .unsupportedTargetType => 0x05
  | .illegalCommand => 0x06
  | .capacityExceeded => 0x07
  | .valueOutOfRange => 0x08

/-- STATUS as the host reads it: ERR_CODE at [15:8], WERR, ERR, DONE, BUSY at [3:0], the reserved bits 0
(10_state.md R23). -/
def Status.word (st : Status) : Word :=
  0#16 ++ st.errCode ++ 0#4 ++ BitVec.ofBool st.werr ++ BitVec.ofBool st.err ++ BitVec.ofBool st.done ++
    BitVec.ofBool st.busy

/-- The STATUS part of an accept: WERR is unchanged (44_control.md R220). -/
def Status.accepted (st : Status) : Status :=
  { st with busy := true, done := false, err := false, errCode := 0x00 }

/-- The STATUS part of every completion (44_control.md R221). -/
def Status.completed (st : Status) : Status := { st with busy := false, done := true }

/-- The STATUS part of an error report (60_exceptions.md R233), before the completion. -/
def Status.errored (st : Status) (code : BitVec 8) : Status := { st with err := true, errCode := code }

/-- A write was ignored because BUSY was 1 (44_control.md R224). -/
def Status.withWerr (st : Status) : Status := { st with werr := true }

/-- A write of `w` to STATUS clears WERR when bit 3 is 1 and changes nothing else (10_state.md R23). -/
def Status.written (st : Status) (w : Word) : Status :=
  if w.getLsbD 3 then { st with werr := false } else st

/-- CHK as the host reads it: EXPECTED at [13:8], ACTUAL at [5:0], the other bits 0 (10_state.md R25). -/
def Chk.word (c : Chk) : Word := 0#18 ++ c.expected ++ 0#2 ++ c.actual

/-- ERR_POS after an error report: written only by INVALID_CHARACTER (60_exceptions.md R233). -/
def CmdError.errPosAfter (e : CmdError) (old : BitVec 16) : BitVec 16 :=
  match e with
  | .invalidCharacter pos => BitVec.ofNat 16 pos
  | _ => old

/-- CHK after an error report: written only by CHECKSUM_MISMATCH (60_exceptions.md R233). -/
def CmdError.chkAfter (e : CmdError) (old : Chk) : Chk :=
  match e with
  | .checksumMismatch actual expected =>
    { actual := BitVec.ofNat 6 actual.val, expected := BitVec.ofNat 6 expected.val }
  | _ => old

end Sys2Proof.Machine
end

