-- ==== Sys2Proof/Machine/Ops.lean ====
section
/-! DEFINITION. The named operations over memory and registers: byte memory in its canonical form
(20_memory.md R60, R63), the arrays (10_state.md R33 to R35), accepting a command (44_control.md R220),
completing it (R221), and raising an error (60_exceptions.md R233, R234). -/

namespace Sys2Proof.Machine

open Sys2Proof

/-! ## Where the arrays stand (20_memory.md R60) -/

/-- Window offset of VALUE. -/
def valueBase : Nat := 0x100

/-- Window offset of BYTE_BUF. -/
def byteBufBase : Nat := 0x200

/-- Window offset of SYM_BUF. -/
def symBufBase : Nat := 0x400

/-! ## Byte memory -/

/-- What an offset that is not listed reads as: VALUE's bytes are 0 after reset (10_state.md R33), BYTE_BUF's
and SYM_BUF's hold no value (R34, R35). -/
def unlisted (a : Nat) : Option Byte :=
  if valueBase ≤ a ∧ a < byteBufBase then some 0 else none

/-- The byte at an offset; `none` where nothing has been written since reset and reset gives no value. -/
def Mem.get : Mem → Nat → Option Byte
  | [], a => unlisted a
  | (a', b) :: rest, a => if a' = a then some b else Mem.get rest a

/-- Takes an offset out of the list. -/
def Mem.erase : Mem → Nat → Mem
  | [], _ => []
  | (a', b) :: rest, a => if a' = a then Mem.erase rest a else (a', b) :: Mem.erase rest a

/-- Puts a byte at its place in the rising list. -/
def Mem.insert : Mem → Nat → Byte → Mem
  | [], a, b => [(a, b)]
  | (a', b') :: rest, a, b =>
    if a < a' then (a, b) :: (a', b') :: rest
    else if a' = a then (a, b) :: rest
    else (a', b') :: Mem.insert rest a b

/-- Writes one byte; writing what an unlisted offset reads as takes the entry out (the canonical form). -/
def Mem.set (m : Mem) (a : Nat) (b : Byte) : Mem :=
  if unlisted a = some b then Mem.erase m a else Mem.insert m a b

/-- Writes bytes at rising offsets from `a`. -/
def Mem.setBytes (m : Mem) (a : Nat) : List Byte → Mem
  | [] => m
  | b :: bs => Mem.setBytes (Mem.set m a b) (a + 1) bs

/-- Reads `n` bytes at rising offsets from `a`; the first byte without a value stops the machine
(93_implementation_defined.md U1). -/
def Mem.readBytes (m : Mem) (a : Nat) : Nat → Except Fault (List Byte)
  | 0 => .ok []
  | n + 1 =>
    match Mem.get m a with
    | none => .error (.uninitRead a)
    | some b =>
      match Mem.readBytes m (a + 1) n with
      | .error f => .error f
      | .ok bs => .ok (b :: bs)

/-- The offsets of the list rise strictly. -/
def Mem.rising : Mem → Bool
  | [] => true
  | (_, _) :: [] => true
  | (a, _) :: (a', b') :: rest => decide (a < a') && Mem.rising ((a', b') :: rest)

/-- The canonical form: offsets rise strictly, and no entry is what its offset reads as when unlisted. Equal
memories are then equal lists. -/
abbrev Mem.wf (m : Mem) : Prop :=
  Mem.rising m = true ∧ ∀ c ∈ m, unlisted c.1 ≠ some c.2

/-- Offsets that belong to one of the three arrays of the instance (20_memory.md R60). -/
abbrev inArrays (c : Config) (a : Nat) : Prop :=
  (valueBase ≤ a ∧ a < valueBase + c.vb) ∨
  (byteBufBase ≤ a ∧ a < byteBufBase + c.vb) ∨
  (symBufBase ≤ a ∧ a < symBufBase + c.symCap)

/-! ## Results -/

/-- Goes on with a result's outcome; a raise or a fault ends the command there (00_scope.md R14). -/
def Result.bind {α β : Type} (r : Result α) (k : α → Result β) : Result β :=
  match r with
  | .ok a => k a
  | .raise e => .raise e
  | .fault f => .fault f

/-- A read of the arrays as a step of a command. -/
def Result.ofRead {α : Type} (r : Except Fault α) : Result α :=
  match r with
  | .ok a => .ok a
  | .error f => .fault f

/-! ## The life of a command -/

/-- Accept (44_control.md R220): a host write of `w` to CMD while BUSY = 0. -/
def State.accept (s : State) (w : Word) : State :=
  { s with cmd := w, status := s.status.accepted, errPos := 0, chk := { actual := 0, expected := 0 } }

/-- The status writes that end every command (44_control.md R221). -/
def State.complete (s : State) : State := { s with status := s.status.completed }

/-- Raising an error, this block's only exception entry (60_exceptions.md R233): ERR, ERR_CODE, ERR_POS or CHK,
then BUSY and DONE, and no output (R234). There is no vector, no saved register and no mode, and no return:
the report stays until the next accept or reset (R235). -/
def State.raise (s : State) (e : CmdError) : State :=
  State.complete
    { s with
      status := s.status.errored e.code,
      errPos := e.errPosAfter s.errPos,
      chk := e.chkAfter s.chk }

/-- The completion step (44_control.md R221) around a command's pseudocode, whose outcome is the state with its
commit writes done. -/
def State.finish (s : State) (r : Result State) : Host.Outcome State Fault Refusal :=
  match r with
  | .ok t => .next t.complete
  | .raise e => .next (s.raise e)
  | .fault f => .fault f

/-- The command in flight, decoded (44_control.md R221; 10_state.md R37). -/
def State.inFlight (s : State) : Instr := decode s.cmd

/-! ## Command outputs -/

/-- `RESULT <- v` (10_state.md R26). -/
def State.setResult (s : State) (w : Word) : State := { s with result := w }

/-- `SYM_BUF[0..L-1] <- out; SYM_LEN <- L`, bytes from L on unchanged (10_state.md R35; 42_encoder.md R165). -/
def State.setSymbols (s : State) (out : List Byte) : State :=
  { s with mem := Mem.setBytes s.mem symBufBase out, symLen := BitVec.ofNat 16 out.length }

/-- `BYTE_BUF[0..m-1] <- bs; BYTE_LEN <- m`, bytes from m on unchanged (10_state.md R34; 41_bit_packer.md R143). -/
def State.setByteBuf (s : State) (bs : List Byte) : State :=
  { s with mem := Mem.setBytes s.mem byteBufBase bs, byteLen := BitVec.ofNat 16 bs.length }

/-! ## Reset -/

/-- The reset input (70_reset_and_hazards.md R260): every register at its reset value, the arrays without values,
the command in flight abandoned. The parameters stay. The host's script, the schedule and the counter of draws
are the outside world's and go on (assumption log 9). -/
def State.hardReset (s : State) : State :=
  { State.resetWith s.cfg with host := s.host, sched := s.sched, draws := s.draws }

end Sys2Proof.Machine
end

