-- ==== Sys2Proof/Machine/Bus.lean ====
section
/-! DEFINITION. The host's accesses to the register window: the map (20_memory.md R60), which accesses are
served (R61, R62), what a read returns (R63, 44_control.md R225) and what a write does (20_memory.md R64,
44_control.md R220, R224), and one move of the host (20_memory.md R66; 30_encoding.md R99). -/

namespace Sys2Proof.Machine

open Sys2Proof

/-! ## The map -/

/-- What stands at a mapped, aligned offset of the window (20_memory.md R60). -/
inductive Loc where
  | cmd | status | errPos | chk | result | symLen | byteLen | cfg
  /-- The word of VALUE, BYTE_BUF or SYM_BUF at this window offset. -/
  | array (off : Nat)
  deriving DecidableEq, Repr

/-- The size of the window (20_memory.md R60). -/
def windowSize : Nat := 0x800

/-- The offset of an address that lies in the window; an address outside it does not reach the block
(20_memory.md R62). DESIGN CHOICE: an access wider than a byte belongs to where its first byte stands, so one that
begins below BASE and runs into the window does not reach the block (assumption log 19). -/
def offsetOf (c : Config) (addr : Nat) : Option Nat :=
  if c.base ≤ addr ∧ addr < c.base + windowSize then some (addr - c.base) else none

/-- The location an access of this width at this offset reaches, or none: a bus error. Only 32-bit accesses at
multiples of 4 are served (20_memory.md R61), and only at mapped offsets (R62). -/
def locate (c : Config) (width : Width) (off : Nat) : Option Loc :=
  if width ≠ .w32 ∨ off % 4 ≠ 0 then none
  else if off = 0x000 then some .cmd
  else if off = 0x004 then some .status
  else if off = 0x008 then some .errPos
  else if off = 0x00C then some .chk
  else if off = 0x010 then some .result
  else if off = 0x014 then some .symLen
  else if off = 0x018 then some .byteLen
  else if off = 0x01C then some .cfg
  else if inArrays c off then some (.array off)
  else none

/-! ## Registers as the host reads and writes them -/

/-- CFG: SYM_CAP at [15:0], VB at [31:16] (10_state.md R29). -/
def cfgWord (c : Config) : Word := BitVec.ofNat 16 c.vb ++ BitVec.ofNat 16 c.symCap

/-- The word of four array bytes, little-endian (20_memory.md R63); a byte without a value stops the machine
(93_implementation_defined.md U1). -/
def readArrayWord (m : Mem) (off : Nat) : Except Fault Word :=
  match Mem.readBytes m off 4 with
  | .ok [b0, b1, b2, b3] => .ok (wordOfBytes b0 b1 b2 b3)
  | .ok _ => .error (.uninitRead off)
  | .error f => .error f

/-- What a location holds (10_state.md R22 to R29, R33 to R35). -/
def State.readLoc (s : State) : Loc → Except Fault Word
  | .cmd => .ok s.cmd
  | .status => .ok s.status.word
  | .errPos => .ok (s.errPos.zeroExtend 32)
  | .chk => .ok s.chk.word
  | .result => .ok s.result
  | .symLen => .ok (s.symLen.zeroExtend 32)
  | .byteLen => .ok (s.byteLen.zeroExtend 32)
  | .cfg => .ok (cfgWord s.cfg)
  | .array off => readArrayWord s.mem off

/-- The locations whose reads are defined while BUSY = 1 (44_control.md R225). -/
def Loc.definedWhileBusy : Loc → Bool
  | .cmd | .status | .cfg => true
  | .errPos | .chk | .result | .symLen | .byteLen | .array _ => false

/-- The write of `w` to a location while BUSY = 0. CMD accepts (44_control.md R220), STATUS clears WERR (10_state.md
R23), the RO registers and RAZ/WI bits ignore it (20_memory.md R64), the arrays take four bytes (R63). -/
def State.writeLoc (s : State) (w : Word) : Loc → State
  | .cmd => s.accept w
  | .status => { s with status := s.status.written w }
  | .errPos | .chk | .result | .cfg => s
  | .symLen => { s with symLen := w.extractLsb' 0 16 }
  | .byteLen => { s with byteLen := w.extractLsb' 0 16 }
  | .array off => { s with mem := Mem.setBytes s.mem off (wordBytes w) }

/-- The locations whose writes are dropped, with WERR set, while BUSY = 1 (44_control.md R224). -/
def Loc.frozenWhileBusy : Loc → Bool
  | .cmd | .symLen | .byteLen | .array _ => true
  | .status | .errPos | .chk | .result | .cfg => false

/-! ## Serving one access -/

/-- The answer to the access served last. -/
def State.respond (s : State) (r : Response) : State := { s with resp := some r }

/-- A read of a location. While BUSY = 1 a read of result state returns a free value and does nothing else
(44_control.md R225). -/
def State.serveRead (s : State) (l : Loc) : Host.Outcome State Fault Refusal :=
  if s.status.busy ∧ l.definedWhileBusy = false then
    .next ({ s with draws := s.draws + 1 }.respond (.data (Config.freeWord s.draws)))
  else
    match s.readLoc l with
    | .ok w => .next (s.respond (.data w))
    | .error f => .fault f

/-- A write to a location. While BUSY = 1 a write to CMD, a length register or an array is ignored and sets WERR
(44_control.md R224). -/
def State.serveWrite (s : State) (l : Loc) (w : Word) : Host.Outcome State Fault Refusal :=
  if s.status.busy ∧ l.frozenWhileBusy = true then
    .next ({ s with status := s.status.withWerr }.respond .ok)
  else .next ((s.writeLoc w l).respond .ok)

/-- One host access (20_memory.md R61, R62, R66). A bus error and an access outside the window change nothing but
the response. -/
def State.serve (s : State) (a : Access) : Host.Outcome State Fault Refusal :=
  match a with
  | .read addr width =>
    match offsetOf s.cfg addr with
    | none => .next (s.respond .notReached)
    | some off =>
      match locate s.cfg width off with
      | none => .next (s.respond .busError)
      | some l => s.serveRead l
  | .write addr width data =>
    match offsetOf s.cfg addr with
    | none => .next (s.respond .notReached)
    | some off =>
      match locate s.cfg width off with
      | none => .next (s.respond .busError)
      | some l => s.serveWrite l (data.extractLsb' 0 32)

/-! ## Moves -/

/-- One move of the host: its next access, or one round of POLL, which reads STATUS and is over when DONE was 1
(30_encoding.md R99). With nothing left to do the host does nothing. -/
def State.hostMove (s : State) : Host.Outcome State Fault Refusal :=
  match s.host with
  | [] => .next s
  | .access a :: rest => { s with host := rest }.serve a
  | .poll :: rest =>
    (if s.status.done then { s with host := rest } else s).serve (.read (s.cfg.base + 0x004) .w32)

/-- Whose move it is: the schedule's next turn. With no schedule left a busy engine moves first (the weak fairness
of 44_control.md R221), else the host. -/
def State.turn (s : State) : Turn :=
  match s.sched with
  | t :: _ => t
  | [] => if s.status.busy then .engine else .host

/-- The state with the turn taken off the schedule. -/
def State.turnTaken (s : State) : State := { s with sched := s.sched.tail }

end Sys2Proof.Machine
end

