-- ==== Sys2Proof/Machine/Operands.lean ====
section
/-! DEFINITION. Every operand form of the commands: byte sequences as integers and back
(41_bit_packer.md R140, R141), val(VALUE) (00_scope.md R13), BYTE_BUF and SYM_BUF as operands, and the
optional byte length of UNPACK and DEC.STR (41_bit_packer.md R143; 43_decoder.md R194). -/

namespace Sys2Proof.Machine

open Sys2Proof

/-! ## Integers and byte sequences -/

/-- `bitlen(v)`: the number of bits in the binary form, 0 for 0 (00_scope.md R12). -/
def bitLen (v : Nat) : Nat := if v = 0 then 0 else Nat.log2 v + 1

/-- `nbytes(v) = ceil(bitlen(v) / 8)` (00_scope.md R12). -/
def nbytes (v : Nat) : Nat := (bitLen v + 7) / 8

/-- `bytes_to_integer`: the sum of b[k] * 256^k (41_bit_packer.md R140); the empty sequence is 0. -/
def bytesToInteger : List Byte → Nat
  | [] => 0
  | b :: bs => b.toNat + 256 * bytesToInteger bs

/-- `integer_to_bytes(v, m)`: b[k] = (v >> 8k) & 0xFF for k < m (41_bit_packer.md R141). -/
def integerToBytes (v : Nat) : Nat → List Byte
  | 0 => []
  | m + 1 => BitVec.ofNat 8 v :: integerToBytes (v / 256) m

/-! ## The arrays as operands -/

/-- `VALUE.byte[k]` (10_state.md R33). VALUE has a value in every byte from reset on, so the default is not
reached for k < 256. -/
def State.valueByte (s : State) (k : Nat) : Byte := (Mem.get s.mem (valueBase + k)).getD 0

/-- The VB bytes of VALUE, least significant first. -/
def State.valueBytes (s : State) : List Byte := (List.range s.cfg.vb).map s.valueByte

/-- `val(VALUE)` (00_scope.md R13; 10_state.md R33): the operand of ENC.INT, UNPACK and CHKSUM. -/
def State.value (s : State) : Nat := bytesToInteger s.valueBytes

/-- `VALUE <- n`: VALUE.byte[k] <- (n >> 8k) & 0xFF for every k < VB, used where n < 2^VALUE_BITS
(00_scope.md R13). -/
def State.setValue (s : State) (n : Nat) : State :=
  { s with mem := Mem.setBytes s.mem valueBase (integerToBytes n s.cfg.vb) }

/-- The byte-sequence operand of PACK and ENC.BYTES: `bytes_to_integer(BYTE_BUF[0..BYTE_LEN-1])`, refused with
CAPACITY_EXCEEDED when BYTE_LEN > VB (41_bit_packer.md R142; 42_encoder.md R160, R165 steps 3 and 4). -/
def State.byteOperand (s : State) : Result Nat :=
  if s.byteLen.toNat > s.cfg.vb then .raise .capacityExceeded
  else (Result.ofRead (Mem.readBytes s.mem byteBufBase s.byteLen.toNat)).bind fun bs =>
    .ok (bytesToInteger bs)

/-! ## The optional byte length -/

/-- The capacity test of a given byte length, LEN > VB (41_bit_packer.md R143; 43_decoder.md R195 step 3). -/
def byteLenTooBig (c : Config) (lenEn : Bool) (len : Nat) : Bool := lenEn && decide (c.vb < len)

/-- The number of bytes `v` is written in (41_bit_packer.md R143; 43_decoder.md R195 steps 24 to 28): a given LEN,
refused with LENGTH_TOO_SMALL below nbytes(v), or nbytes(v) when no length is given. -/
def byteCount (lenEn : Bool) (len v : Nat) : Result Nat :=
  if lenEn then
    if len < nbytes v then .raise .lengthTooSmall else .ok len
  else .ok (nbytes v)

end Sys2Proof.Machine
end

