-- ==== Sys2Proof/Machine/Alphabet.lean ====
section
/-! DEFINITION. The constant tables ENC_LUT and DEC_LUT (10_state.md R30, R31), the checksum
(40_alphabet.md R124), and the commands SYMFOR, VALFOR and CHKSUM (R120, R121, R122). -/

namespace Sys2Proof.Machine

open Sys2Proof

/-! ## The tables -/

/-- ENC_LUT: the symbol byte of each value 0..36 (10_state.md R30, hex column). -/
def encTable : List Byte :=
  [ 0x30, 0x31, 0x32, 0x33, 0x34, 0x35, 0x36, 0x37, 0x38, 0x39,   -- 0..9
    0x41, 0x42, 0x43, 0x44, 0x45, 0x46, 0x47, 0x48,               -- A..H
    0x4A, 0x4B, 0x4D, 0x4E, 0x50, 0x51, 0x52, 0x53, 0x54,         -- J K M N P..T
    0x56, 0x57, 0x58, 0x59, 0x5A ] ++                             -- V..Z
  [ 0x2A, 0x7E, 0x24, 0x3D, 0x55 ]                                -- the checksum-exclusive symbols

theorem encTable_length : encTable.length = 37 := rfl

/-- `sym(v) = ENC_LUT[v]` for v in 0..36 (40_alphabet.md R123). -/
def sym (v : Fin 37) : Byte := encTable[v.val]'(lt_of_lt_of_eq v.isLt encTable_length.symm)

/-- `sym` of a data digit 0..31 (42_encoder.md R161, R163). -/
def digitSym (d : Fin 32) : Byte := sym (d.castLE (by decide))

/-! The rows 2_ to 7_ of the grid of 10_state.md R31, one definition each; the rows 0_, 1_ and 8_ to F_ are INVALID
throughout. -/

/-- Row 2_ of DEC_LUT (10_state.md R31). -/
def decRow2 : List SymClass :=
  [ .invalid, .invalid, .invalid, .invalid, .value 34, .invalid, .invalid, .invalid,
    .invalid, .invalid, .value 32, .invalid, .invalid, .skip, .invalid, .invalid ]

/-- Row 3_ of DEC_LUT (10_state.md R31). -/
def decRow3 : List SymClass :=
  [ .value 0, .value 1, .value 2, .value 3, .value 4, .value 5, .value 6, .value 7,
    .value 8, .value 9, .invalid, .invalid, .invalid, .value 35, .invalid, .invalid ]

/-- Row 4_ of DEC_LUT (10_state.md R31). -/
def decRow4 : List SymClass :=
  [ .invalid, .value 10, .value 11, .value 12, .value 13, .value 14, .value 15, .value 16,
    .value 17, .value 1, .value 18, .value 19, .value 1, .value 20, .value 21, .value 0 ]

/-- Row 5_ of DEC_LUT (10_state.md R31). -/
def decRow5 : List SymClass :=
  [ .value 22, .value 23, .value 24, .value 25, .value 26, .value 36, .value 27, .value 28,
    .value 29, .value 30, .value 31, .invalid, .invalid, .invalid, .invalid, .invalid ]

/-- Row 6_ of DEC_LUT (10_state.md R31). -/
def decRow6 : List SymClass :=
  [ .invalid, .value 10, .value 11, .value 12, .value 13, .value 14, .value 15, .value 16,
    .value 17, .value 1, .value 18, .value 19, .value 1, .value 20, .value 21, .value 0 ]

/-- Row 7_ of DEC_LUT (10_state.md R31). -/
def decRow7 : List SymClass :=
  [ .value 22, .value 23, .value 24, .value 25, .value 26, .value 36, .value 27, .value 28,
    .value 29, .value 30, .value 31, .invalid, .invalid, .invalid, .value 33, .invalid ]

/-- The rows of DEC_LUT that hold anything but INVALID. -/
def decRows2to7 : List SymClass := decRow2 ++ (decRow3 ++ (decRow4 ++ (decRow5 ++ (decRow6 ++ decRow7))))

/-- `cls(b) = DEC_LUT[b]` for every byte b (40_alphabet.md R123; 10_state.md R31): total, INVALID outside the
rows 2_ to 7_. -/
def cls (b : Byte) : SymClass :=
  if b.toNat < 0x20 then .invalid else decRows2to7.getD (b.toNat - 0x20) .invalid

/-! ## The checksum -/

/-- `checksum(v) = v mod 37` (40_alphabet.md R124). -/
def checksum (v : Nat) : Fin 37 := ⟨v % 37, Nat.mod_lt v (by decide)⟩

/-! ## RESULT formats -/

/-- RESULT of VALFOR: value at [5:0], class at [9:8] (40_alphabet.md R121). -/
def SymClass.resultWord : SymClass → Word
  | .value v => BitVec.ofNat 32 (0 * 2 ^ 8 + v.val)
  | .skip => BitVec.ofNat 32 (1 * 2 ^ 8)
  | .invalid => BitVec.ofNat 32 (2 * 2 ^ 8)

/-- RESULT of CHKSUM: r at [5:0], its symbol at [15:8] (40_alphabet.md R122). -/
def checksumWord (r : Fin 37) : Word := BitVec.ofNat 32 ((sym r).toNat * 2 ^ 8 + r.val)

/-! ## The commands -/

/-- SYMFOR (40_alphabet.md R120): RESULT <- ENC_LUT[i], VALUE_OUT_OF_RANGE when i > 36. -/
def execSymfor (imm8 : Nat) (s : State) : Host.Outcome State Fault Refusal :=
  s.finish (if h : imm8 < 37 then .ok (s.setResult ((sym ⟨imm8, h⟩).zeroExtend 32)) else .raise .valueOutOfRange)

/-- VALFOR (40_alphabet.md R121): RESULT <- the class and value of the byte; no error. -/
def execValfor (imm8 : Nat) (s : State) : Host.Outcome State Fault Refusal :=
  s.finish (.ok (s.setResult (cls (BitVec.ofNat 8 imm8)).resultWord))

/-- CHKSUM (40_alphabet.md R122): RESULT <- val(VALUE) mod 37 and its symbol; no error. -/
def execChksum (s : State) : Host.Outcome State Fault Refusal :=
  s.finish (.ok (s.setResult (checksumWord (checksum s.value))))

end Sys2Proof.Machine
end

