-- ==== Sys2Proof/Machine/BitPacker.lean ====
section
/-! DEFINITION. The commands of the bit_packer unit, PACK and UNPACK (41_bit_packer.md R142, R143). -/

namespace Sys2Proof.Machine

open Sys2Proof

/-- PACK (41_bit_packer.md R142): VALUE <- bytes_to_integer(BYTE_BUF[0..BYTE_LEN-1]). -/
def execPack (s : State) : Host.Outcome State Fault Refusal :=
  s.finish (s.byteOperand.bind fun v => .ok (s.setValue v))

/-- UNPACK (41_bit_packer.md R143): BYTE_BUF and BYTE_LEN <- val(VALUE) in LEN bytes, or in nbytes of it. -/
def execUnpack (lenEn : Bool) (len : Nat) (s : State) : Host.Outcome State Fault Refusal :=
  s.finish <|
    if byteLenTooBig s.cfg lenEn len then .raise .capacityExceeded
    else (byteCount lenEn len s.value).bind fun m => .ok (s.setByteBuf (integerToBytes s.value m))

end Sys2Proof.Machine
end

