-- ==== Sys2Proof/Machine/Control.lean ====
section
/-! DEFINITION. The rows that belong to no unit: NOP and the reserved opcodes (44_control.md R222, R223). -/

namespace Sys2Proof.Machine

open Sys2Proof

/-- NOP (44_control.md R222): commits nothing. -/
def execNop (s : State) : Host.Outcome State Fault Refusal := s.finish (.ok s)

/-- RESERVED (44_control.md R223): ILLEGAL_COMMAND. -/
def execReserved (s : State) : Host.Outcome State Fault Refusal := s.finish (.raise .illegalCommand)

end Sys2Proof.Machine
end

