-- ==== Sys2Proof/Machine/Decoder.lean ====
section
/-! DEFINITION. The base32_decoder unit: the scan with classification and accumulation (43_decoder.md
R191, R192), the check symbol (R190, R193), the whole operation (R195), and the commands DEC.INT, DEC.STR and
DEC.BADSEL (R196 to R198). -/

namespace Sys2Proof.Machine

open Sys2Proof

/-- The loop of 43_decoder.md R195 steps 9 to 16 over `n` more characters from index `i` with accumulator `acc`.
It reads characters in order and stops at the first raise, so a byte behind it is not read (assumption log 8). -/
def scan (m : Mem) : (n i acc : Nat) → Result Nat
  | 0, _, acc => .ok acc
  | n + 1, i, acc =>
    match Mem.get m (symBufBase + i) with
    | none => .fault (.uninitRead (symBufBase + i))
    | some b =>
      match cls b with
      | .skip => scan m n (i + 1) acc
      | .invalid => .raise (.invalidCharacter i)
      | .value x => if x.val ≥ 32 then .raise (.invalidCharacter i) else scan m n (i + 1) (acc * 32 + x.val)

/-- The claimed check symbol at index `i` (43_decoder.md R193, R195 steps 18 and 19). -/
def checkSymbol (m : Mem) (i : Nat) : Result (Fin 37) :=
  match Mem.get m (symBufBase + i) with
  | none => .fault (.uninitRead (symBufBase + i))
  | some b =>
    match cls b with
    | .value y => .ok y
    | .skip => .raise (.invalidCharacter i)
    | .invalid => .raise (.invalidCharacter i)

/-- The capacity of VALUE (43_decoder.md R192, R195 step 20): a test on the value, not on the digit count. -/
def fitValue (c : Config) (acc : Nat) : Result Nat :=
  if acc ≥ 2 ^ c.valueBits then .raise .capacityExceeded else .ok acc

/-- Checksum verification (43_decoder.md R193, R195 steps 21 and 22). -/
def verify (acc : Nat) (y : Fin 37) : Result Nat :=
  if checksum acc ≠ y then .raise (.checksumMismatch y (checksum acc)) else .ok acc

/-- 43_decoder.md R195 steps 4 to 22: the integer a symbol string of `L` characters stands for. -/
def decodeSymbols (s : State) (check : Bool) (L : Nat) : Result Nat :=
  if check then
    if L = 0 then .raise (.invalidCharacter 0)
    else
      (scan s.mem (L - 1) 0 0).bind fun acc =>
      (checkSymbol s.mem (L - 1)).bind fun y =>
      (fitValue s.cfg acc).bind fun acc => verify acc y
  else (scan s.mem L 0 0).bind fun acc => fitValue s.cfg acc

/-- The capacity test of SYM_LEN (43_decoder.md R195 step 2; 10_state.md R27). -/
def State.symLenTooBig (s : State) : Bool := decide (s.cfg.symCap < s.symLen.toNat)

/-- DEC.INT (43_decoder.md R196): VALUE <- the decoded integer. -/
def execDecInt (check : Bool) (s : State) : Host.Outcome State Fault Refusal :=
  s.finish <|
    if s.symLenTooBig then .raise .capacityExceeded
    else (decodeSymbols s check s.symLen.toNat).bind fun acc => .ok (s.setValue acc)

/-- DEC.STR (43_decoder.md R197): VALUE <- the decoded integer, BYTE_BUF and BYTE_LEN <- its bytes. -/
def execDecStr (check lenEn : Bool) (len : Nat) (s : State) : Host.Outcome State Fault Refusal :=
  s.finish <|
    if s.symLenTooBig then .raise .capacityExceeded
    else if byteLenTooBig s.cfg lenEn len then .raise .capacityExceeded
    else
      (decodeSymbols s check s.symLen.toNat).bind fun acc =>
      (byteCount lenEn len acc).bind fun m =>
        .ok ((s.setValue acc).setByteBuf (integerToBytes acc m))

/-- DEC.BADSEL (43_decoder.md R198): UNSUPPORTED_TARGET_TYPE, before any character is examined. -/
def execDecBadsel (s : State) : Host.Outcome State Fault Refusal :=
  s.finish (.raise .unsupportedTargetType)

end Sys2Proof.Machine
end

