-- ==== Sys2Proof/Machine/Encoder.lean ====
section
/-! DEFINITION. The base32_encoder unit: digits (42_encoder.md R161), separators (R163), fixed length
(R164), the whole operation (R165), and the commands ENC.INT, ENC.BYTES and ENC.BADSEL (R166 to R168). -/

namespace Sys2Proof.Machine

open Sys2Proof

/-! ## Digits -/

/-- The loop of `digits` (42_encoder.md R161): the low 5 bits, least significant first, until the value is 0.
`fuel` bounds the rounds; `bitLen v` rounds are enough. -/
def digitsUp : Nat → Nat → List (Fin 32)
  | 0, _ => []
  | fuel + 1, v => if v = 0 then [] else Fin.ofNat 32 v :: digitsUp fuel (v / 32)

/-- `digits(v)`: the 5-bit groups of v, most significant first, [0] for 0 (42_encoder.md R161). -/
def digits (v : Nat) : List (Fin 32) := if v = 0 then [0] else (digitsUp (bitLen v) v).reverse

/-! ## Separators -/

/-- The separator `'-'` (42_encoder.md R163). -/
def dash : Byte := 0x2D

/-- `format(ds, step)` (42_encoder.md R163): a separator stands after a digit when the number of digits to its
right is a positive multiple of step; step = 0 means none. `rest.length` is D-1-i. -/
def format (step : Nat) : List (Fin 32) → List Byte
  | [] => []
  | d :: rest =>
    if step ≠ 0 ∧ rest.length ≠ 0 ∧ rest.length % step = 0 then digitSym d :: dash :: format step rest
    else digitSym d :: format step rest

/-- `seps(D)`: how many separators `format` inserts for D digits (42_encoder.md R163). -/
def seps (step D : Nat) : Nat := if step = 0 then 0 else (D - 1) / step

/-- `total(D)`: the characters of the output for D digits (42_encoder.md R163). -/
def total (step : Nat) (check : Bool) (D : Nat) : Nat := D + seps step D + check.toNat

/-! ## Fixed length -/

/-- The one digit count that `total` can map to `n` (42_encoder.md R164): with `y = n - c - 1`, it is
`1 + y - y div (step+1)`. `padTo` tests it, so a value that is no solution is refused. -/
def padCandidate (step : Nat) (check : Bool) (n : Nat) : Nat :=
  let y := n - check.toNat - 1
  if step = 0 then 1 + y else 1 + (y - y / (step + 1))

/-- "the D >= d with total(D) = n" of 42_encoder.md R164, or none. -/
def padTo (step : Nat) (check : Bool) (n d : Nat) : Option Nat :=
  if d ≤ padCandidate step check n ∧ total step check (padCandidate step check n) = n then
    some (padCandidate step check n)
  else none

/-- The number of digits written (42_encoder.md R165 steps 8 to 13). -/
def digitCount (check lenEn : Bool) (step len d : Nat) : Result Nat :=
  if lenEn then
    if d + check.toNat > len then .raise .lengthTooSmall
    else
      match padTo step check len d with
      | none => .raise .lengthTooSmall
      | some D => .ok D
  else .ok d

/-! ## The operation -/

/-- The output of D digits for the value v (42_encoder.md R165 step 14): zero digits at the left, separators, and the
check symbol last. -/
def encodeText (check : Bool) (step D v : Nat) : List Byte :=
  format step (List.replicate (D - (digits v).length) 0 ++ digits v) ++
    (if check then [sym (checksum v)] else [])

/-- ENCODE from step 7 on (42_encoder.md R165): everything after the input value is known (R160). -/
def encodeValue (check lenEn : Bool) (step len : Nat) (s : State) (v : Nat) : Result State :=
  (digitCount check lenEn step len (digits v).length).bind fun D =>
    if total step check D > s.cfg.symCap then .raise .capacityExceeded
    else .ok (s.setSymbols (encodeText check step D v))

/-! ## The commands -/

/-- ENC.INT (42_encoder.md R166): encode val(VALUE). -/
def execEncInt (check lenEn : Bool) (step len : Nat) (s : State) : Host.Outcome State Fault Refusal :=
  s.finish (encodeValue check lenEn step len s s.value)

/-- ENC.BYTES (42_encoder.md R167): encode the byte sequence in BYTE_BUF. -/
def execEncBytes (check lenEn : Bool) (step len : Nat) (s : State) : Host.Outcome State Fault Refusal :=
  s.finish (s.byteOperand.bind fun v => encodeValue check lenEn step len s v)

/-- ENC.BADSEL (42_encoder.md R168): UNSUPPORTED_INPUT_TYPE, before any other check. -/
def execEncBadsel (s : State) : Host.Outcome State Fault Refusal :=
  s.finish (.raise .unsupportedInputType)

end Sys2Proof.Machine
end

