-- ==== Sys2Proof/Machine/Dispatch.lean ====
section
/-! DEFINITION. One arm per constructor of Instr: the engine's completion step for each row of the opcode table
(44_control.md R221). -/

namespace Sys2Proof.Machine

open Sys2Proof

def exec (i : Instr) (s : State) : Host.Outcome State Fault Refusal :=
  match i with
  | .nop => Sys2Proof.Machine.execNop s
  | .encInt check lenEn step len => Sys2Proof.Machine.execEncInt check lenEn step len s
  | .encBytes check lenEn step len => Sys2Proof.Machine.execEncBytes check lenEn step len s
  | .encBadsel => Sys2Proof.Machine.execEncBadsel s
  | .decInt check => Sys2Proof.Machine.execDecInt check s
  | .decStr check lenEn len => Sys2Proof.Machine.execDecStr check lenEn len s
  | .decBadsel => Sys2Proof.Machine.execDecBadsel s
  | .pack => Sys2Proof.Machine.execPack s
  | .unpack lenEn len => Sys2Proof.Machine.execUnpack lenEn len s
  | .symfor imm8 => Sys2Proof.Machine.execSymfor imm8 s
  | .valfor imm8 => Sys2Proof.Machine.execValfor imm8 s
  | .chksum => Sys2Proof.Machine.execChksum s
  | .reserved => Sys2Proof.Machine.execReserved s

end Sys2Proof.Machine
end

