-- ==== Sys2Proof/Machine/Step.lean ====
section
/-! DEFINITION. One step of the machine: one move of the agent whose turn it is (10_state.md R20;
44_control.md R221; 70_reset_and_hazards.md R260), and how a command word gets in flight. -/

namespace Sys2Proof.Machine

open Sys2Proof

/-- One move: the engine completes the command in flight if there is one, the host makes one access, or the reset
input acts. A configuration outside its bounds is refused (93_implementation_defined.md U4). The engine's turn with
BUSY = 0 changes nothing: its step is not enabled (44_control.md R226). -/
def step (s : State) : Host.Outcome State Fault Refusal :=
  if s.cfg.Legal then
    match s.turn with
    | .engine =>
      if s.turnTaken.status.busy then exec s.turnTaken.inFlight s.turnTaken else .next s.turnTaken
    | .host => s.turnTaken.hostMove
    | .reset => .next s.turnTaken.hardReset
  else .refused .illegalConfig

/-- The state in which the command word `w` has been accepted (44_control.md R220) and it is the engine's turn, so
that the next step completes it. It stands for the host's write to CMD (assumption log 10). -/
def State.withFetchWord (s : State) (nbits w : Nat) : State :=
  { s.accept (BitVec.ofNat 32 (w % 2 ^ nbits)) with sched := .engine :: s.sched }

end Sys2Proof.Machine
end

