-- ==== Sys2Proof/Machine/Assembler.lean ====
section
/-! DEFINITION. The command text of 30_encoding.md R98: its lines as data, the word a line assembles to, the
line a word disassembles to, and reading and printing a line as characters. -/

namespace Sys2Proof.Machine.Asm

open Sys2Proof

/-- The mnemonics R98 spells. ENC.BADSEL, DEC.BADSEL and the reserved words are spelled by `.word`. -/
inductive Op where
  | nop | encInt | encBytes | decInt | decStr | pack | unpack | symfor | valfor | chksum
  deriving DecidableEq, Repr

/-- An option of a command line. -/
inductive Opt where
  | check
  | step (s : Nat)
  | len (n : Nat)
  deriving DecidableEq, Repr

/-- One command line of R98. -/
inductive Line where
  /-- A mnemonic with its options, in any order. -/
  | cmd (op : Op) (opts : List Opt)
  /-- SYMFOR and VALFOR with their index. -/
  | index (op : Op) (i : Nat)
  /-- `.word 0xHHHHHHHH`. -/
  | word (n : Nat)
  deriving DecidableEq, Repr

/-- The word of a mnemonic whose options are all absent (R98). -/
def Op.base : Op → Nat
  | .nop => 0x00
  | .encInt => 0x01
  | .encBytes => 0x11
  | .decInt => 0x02
  | .decStr => 0x12
  | .pack => 0x03
  | .unpack => 0x04
  | .symfor => 0x05
  | .valfor => 0x06
  | .chksum => 0x07

/-- The mnemonics that take an index instead of options. -/
def Op.takesIndex : Op → Bool
  | .symfor | .valfor => true
  | .nop | .encInt | .encBytes | .decInt | .decStr | .pack | .unpack | .chksum => false

/-- The options each mnemonic may carry, with their ranges: STEP 1..255, LEN 0..65535 (R98). -/
def Op.takes (op : Op) : Opt → Bool
  | .check =>
    match op with
    | .encInt | .encBytes | .decInt | .decStr => true
    | .nop | .pack | .unpack | .symfor | .valfor | .chksum => false
  | .step s =>
    match op with
    | .encInt | .encBytes => decide (1 ≤ s ∧ s ≤ 255)
    | .nop | .decInt | .decStr | .pack | .unpack | .symfor | .valfor | .chksum => false
  | .len n =>
    match op with
    | .encInt | .encBytes | .decStr | .unpack => decide (n ≤ 65535)
    | .nop | .decInt | .pack | .symfor | .valfor | .chksum => false

/-- Whether two options give the same field; each may be given at most once (R98). -/
def Opt.same : Opt → Opt → Bool
  | .check, .check => true
  | .step _, .step _ => true
  | .len _, .len _ => true
  | .check, .step _ | .check, .len _ | .step _, .check | .step _, .len _ | .len _, .check | .len _, .step _ => false

/-- The bits an option sets: CHECK<<6, s<<8, LEN_EN<<7 and n<<16 (R98). -/
def Opt.bits : Opt → Nat
  | .check => 2 ^ 6
  | .step s => s * 2 ^ 8
  | .len n => 2 ^ 7 + n * 2 ^ 16

/-- Every option is allowed and given at most once. -/
def optsOk (op : Op) : List Opt → Bool
  | [] => true
  | o :: rest => op.takes o && rest.all (fun o' => !o.same o') && optsOk op rest

/-- The bits of all options. -/
def optsBits : List Opt → Nat
  | [] => 0
  | o :: rest => o.bits + optsBits rest

/-- The word a line stands for (R98), or none for a line R98 does not allow. -/
def assemble : Line → Option Word
  | .cmd op opts =>
    if op.takesIndex = false ∧ optsOk op opts = true then some (BitVec.ofNat 32 (op.base + optsBits opts)) else none
  | .index op i =>
    if op.takesIndex = true ∧ i ≤ 255 then some (BitVec.ofNat 32 (op.base + i * 2 ^ 16)) else none
  | .word n => if n < 2 ^ 32 then some (BitVec.ofNat 32 n) else none

/-- The options of a decoded command, in the order R98 lists them. -/
def optsOf (check lenEn : Bool) (step len : Nat) : List Opt :=
  (if check then [.check] else []) ++ (if step = 0 then [] else [.step step]) ++ (if lenEn then [.len len] else [])

/-- The mnemonic line of a decoded command, where it has one. -/
def lineOf : Instr → Option Line
  | .nop => some (.cmd .nop [])
  | .encInt check lenEn step len => some (.cmd .encInt (optsOf check lenEn step len))
  | .encBytes check lenEn step len => some (.cmd .encBytes (optsOf check lenEn step len))
  | .encBadsel => none
  | .decInt check => some (.cmd .decInt (optsOf check false 0 0))
  | .decStr check lenEn len => some (.cmd .decStr (optsOf check lenEn 0 len))
  | .decBadsel => none
  | .pack => some (.cmd .pack [])
  | .unpack lenEn len => some (.cmd .unpack (optsOf false lenEn 0 len))
  | .symfor imm8 => some (.index .symfor imm8)
  | .valfor imm8 => some (.index .valfor imm8)
  | .chksum => some (.cmd .chksum [])
  | .reserved => none

/-- LEN given without LEN_EN, which no mnemonic line spells (R98: "absent, both are 0"). -/
def strayLen : Instr → Bool
  | .encInt _ lenEn _ len | .encBytes _ lenEn _ len | .decStr _ lenEn len | .unpack lenEn len => !lenEn && len != 0
  | .nop | .encBadsel | .decInt _ | .decBadsel | .pack | .symfor _ | .valfor _ | .chksum | .reserved => false

/-- The line a word is printed as: the mnemonic form only when its ignored bits are 0, otherwise `.word` (R98). A LEN
without LEN_EN counts as ignored here, since no mnemonic form spells it (assumption log 11). -/
def disassemble (w : Word) : Line :=
  if w &&& ~~~(decode w).usedBits = 0 ∧ strayLen (decode w) = false then
    (lineOf (decode w)).getD (.word w.toNat)
  else .word w.toNat

/-! ## Characters -/

/-- The mnemonics' spelling. -/
def Op.name : Op → List Char
  | .nop => ['N', 'O', 'P']
  | .encInt => ['E', 'N', 'C', '.', 'I', 'N', 'T']
  | .encBytes => ['E', 'N', 'C', '.', 'B', 'Y', 'T', 'E', 'S']
  | .decInt => ['D', 'E', 'C', '.', 'I', 'N', 'T']
  | .decStr => ['D', 'E', 'C', '.', 'S', 'T', 'R']
  | .pack => ['P', 'A', 'C', 'K']
  | .unpack => ['U', 'N', 'P', 'A', 'C', 'K']
  | .symfor => ['S', 'Y', 'M', 'F', 'O', 'R']
  | .valfor => ['V', 'A', 'L', 'F', 'O', 'R']
  | .chksum => ['C', 'H', 'K', 'S', 'U', 'M']

/-- Every mnemonic. -/
def Op.all : List Op :=
  [.nop, .encInt, .encBytes, .decInt, .decStr, .pack, .unpack, .symfor, .valfor, .chksum]

/-- The value of a hexadecimal digit. -/
def hexDigit (ch : Char) : Option Nat :=
  let n := ch.toNat
  if 0x30 ≤ n ∧ n ≤ 0x39 then some (n - 0x30)
  else if 0x41 ≤ n ∧ n ≤ 0x46 then some (n - 0x41 + 10)
  else if 0x61 ≤ n ∧ n ≤ 0x66 then some (n - 0x61 + 10)
  else none

/-- Digits in base `b`, most significant first, behind the value `acc`. -/
def readDigits (b : Nat) (acc : Nat) : List Char → Option Nat
  | [] => some acc
  | ch :: rest =>
    match hexDigit ch with
    | none => none
    | some d => if d < b then readDigits b (acc * b + d) rest else none

/-- A number: decimal, `0x` hex, or a character `'c'` for its ASCII byte (R98). DESIGN CHOICE: a character outside
US-ASCII, which the spec gives no byte, is no number (assumption log 18). -/
def readNumber : List Char → Option Nat
  | [] => none
  | '0' :: 'x' :: d :: rest => readDigits 16 0 (d :: rest)
  | ['\'', ch, '\''] => if ch.toNat < 0x80 then some ch.toNat else none
  | ch :: rest => readDigits 10 0 (ch :: rest)

/-- Takes blanks off both ends. DESIGN CHOICE: U+0020 is the only blank, since the spec names none (assumption log 11). -/
def trim (cs : List Char) : List Char :=
  (((cs.dropWhile (· == ' ')).reverse).dropWhile (· == ' ')).reverse

/-- Puts characters before the first piece. -/
def beforeFirst (cs : List Char) : List (List Char) → List (List Char)
  | [] => [cs]
  | piece :: pieces => (cs ++ piece) :: pieces

/-- The pieces between commas. A character in quotes belongs to its piece, also when it is a comma (R98: a character
`'c'` stands for its ASCII byte). -/
def splitCommas : List Char → List (List Char)
  | [] => [[]]
  | '\'' :: ch :: '\'' :: rest => beforeFirst ['\'', ch, '\''] (splitCommas rest)
  | ch :: rest => if ch = ',' then [] :: splitCommas rest else beforeFirst [ch] (splitCommas rest)

/-- One option's text. DESIGN CHOICE: blanks may stand around an option but not inside it, so `LEN= 4` is refused; the
spec is silent on them (assumption log 11). -/
def readOpt (cs : List Char) : Option Opt :=
  match trim cs with
  | ['C', 'H', 'E', 'C', 'K'] => some .check
  | 'S' :: 'T' :: 'E' :: 'P' :: '=' :: n => (readNumber n).map .step
  | 'L' :: 'E' :: 'N' :: '=' :: n => (readNumber n).map .len
  | _ => none

/-- All pieces as options. -/
def readOpts : List (List Char) → Option (List Opt)
  | [] => some []
  | p :: ps =>
    match readOpt p, readOpts ps with
    | some o, some os => some (o :: os)
    | _, _ => none

/-- A line from its first word and the text after it: the mnemonic, then its options separated by commas, or its
index (R98). -/
def readWords (name rest : List Char) : Option Line :=
  if name = ['.', 'w', 'o', 'r', 'd'] then (readNumber rest).map .word
  else
    match Op.all.find? (fun op => op.name == name) with
    | none => none
    | some op =>
      if op.takesIndex then (readNumber rest).map (.index op)
      else if rest = [] then some (.cmd op [])
      else (readOpts (splitCommas rest)).map (.cmd op)

/-- One command line: its first word ends at the first blank. -/
def readLine (cs : List Char) : Option Line :=
  readWords ((trim cs).takeWhile (· != ' ')) (trim ((trim cs).dropWhile (· != ' ')))

/-- The word a command's text stands for. -/
def assembleText (cs : List Char) : Option Word := (readLine cs).bind assemble

/-- One hexadecimal digit. -/
def showHexDigit (n : Nat) : Char := if n < 10 then Char.ofNat (0x30 + n) else Char.ofNat (0x41 + (n - 10))

/-- The decimal digits of a number, least significant first, none for 0. `fuel` bounds the rounds. -/
def decimalUp : Nat → Nat → List Char
  | 0, _ => []
  | fuel + 1, n => if n = 0 then [] else showHexDigit (n % 10) :: decimalUp fuel (n / 10)

/-- A number in decimal. -/
def showNat (n : Nat) : List Char := if n = 0 then ['0'] else (decimalUp (Nat.log2 n + 1) n).reverse

/-- A 32-bit number as `0x` and eight hexadecimal digits. -/
def showWord (n : Nat) : List Char :=
  ['0', 'x'] ++ (List.range 8).map fun i => showHexDigit (n / 16 ^ (7 - i) % 16)

/-- One option's text. -/
def Opt.text : Opt → List Char
  | .check => ['C', 'H', 'E', 'C', 'K']
  | .step s => ['S', 'T', 'E', 'P', '='] ++ showNat s
  | .len n => ['L', 'E', 'N', '='] ++ showNat n

/-- Options separated by commas. -/
def showOpts : List Opt → List Char
  | [] => []
  | [o] => o.text
  | o :: o' :: rest => o.text ++ [',', ' '] ++ showOpts (o' :: rest)

/-- A line as characters. -/
def Line.text : Line → List Char
  | .cmd op [] => op.name
  | .cmd op (o :: rest) => op.name ++ [' '] ++ showOpts (o :: rest)
  | .index op i => op.name ++ [' '] ++ showNat i
  | .word n => ['.', 'w', 'o', 'r', 'd', ' '] ++ showWord n

end Sys2Proof.Machine.Asm
end

