-- ==== Sys2Proof/Machine/HostScript.lean ====
section
/-! DEFINITION. The host scripts of 30_encoding.md R99 as lists of host operations: WR, RD, POLL, and the
pseudo-instructions RUN, CLRSTAT, WRVAL, WRBYTES and WRSTR with their expansions. -/

namespace Sys2Proof.Machine.Script

open Sys2Proof Sys2Proof.Machine

/-- `WR off, v`: MemWrite(BASE+off, 4, v). -/
def wr (c : Config) (off : Nat) (v : Word) : HostOp :=
  .access (.write (c.base + off) .w32 (v.zeroExtend 64))

/-- `RD off`: MemRead(BASE+off, 4). -/
def rd (c : Config) (off : Nat) : HostOp := .access (.read (c.base + off) .w32)

/-- `RUN <command>`: WR 0x000 and POLL. -/
def run (c : Config) (w : Word) : List HostOp := [wr c 0x000 w, .poll]

/-- `CLRSTAT`: RUN NOP, then the write that clears WERR. -/
def clrStat (c : Config) : List HostOp := run c 0x00000000 ++ [wr c 0x004 0x00000008]

/-- The words of a byte sequence, missing bytes 0 (WRBYTES, WRSTR). -/
def wordsOf : List Byte → List Word
  | [] => []
  | [b0] => [wordOfBytes b0 0 0 0]
  | [b0, b1] => [wordOfBytes b0 b1 0 0]
  | [b0, b1, b2] => [wordOfBytes b0 b1 b2 0]
  | b0 :: b1 :: b2 :: b3 :: rest => wordOfBytes b0 b1 b2 b3 :: wordsOf rest

/-- WR of words at offsets rising by 4. -/
def wrWords (c : Config) (off : Nat) : List Word → List HostOp
  | [] => []
  | w :: ws => wr c off w :: wrWords c (off + 4) ws

/-- `WRVAL n`: the VB/4 words of n, least significant first, at 0x100. -/
def wrVal (c : Config) (n : Nat) : List HostOp :=
  wrWords c 0x100 ((List.range (c.vb / 4)).map fun j => BitVec.ofNat 32 (n / 2 ^ (32 * j)))

/-- `WRBYTES [b0, b1, ...]`: the bytes at 0x200, then their number in BYTE_LEN. -/
def wrBytes (c : Config) (bs : List Byte) : List HostOp :=
  wrWords c 0x200 (wordsOf bs) ++ [wr c 0x018 (BitVec.ofNat 32 bs.length)]

/-- The byte of a character: its US-ASCII code point (00_scope.md R15, D29). DESIGN CHOICE: the spec gives a character
outside US-ASCII no byte; here it is the low 8 bits of its code point (assumption log 18). -/
def ascii (ch : Char) : Byte := BitVec.ofNat 8 ch.toNat

/-- `WRSTR "text"`: the characters at 0x400, then their number in SYM_LEN. -/
def wrStr (c : Config) (text : List Char) : List HostOp :=
  wrWords c 0x400 (wordsOf (text.map ascii)) ++ [wr c 0x014 (BitVec.ofNat 32 text.length)]

end Sys2Proof.Machine.Script
end

