-- ==== Sys2Proof/Safety.lean ====
section
/-! DEFINITION. What holds of every state the machine can reach (10_state.md R23 to R25, R33 to R35), what a
command reads and writes, and when its operands are ready (70_reset_and_hazards.md R261). -/

namespace Sys2Proof.Machine

open Sys2Proof

/-! ## The invariant -/

/-- The legal states of STATUS (10_state.md R23), with ERR_CODE among the codes ever written
(60_exceptions.md R231). -/
abbrev Status.Legal (st : Status) : Prop :=
  ¬ (st.busy = true ∧ st.done = true) ∧
  (st.err = true → st.done = true ∧ st.errCode ≠ 0) ∧
  (st.err = false → st.errCode = 0) ∧
  st.errCode.toNat ≤ 8

/-- ERR_POS and CHK hold something only after the error that writes them, and CHK's fields are 0..36
(10_state.md R24, R25; 60_exceptions.md R232). -/
abbrev State.ReportLegal (s : State) : Prop :=
  (s.errPos ≠ 0 → s.status.errCode = 0x03) ∧
  (s.chk ≠ { actual := 0, expected := 0 } → s.status.errCode = 0x04) ∧
  s.chk.actual.toNat ≤ 36 ∧ s.chk.expected.toNat ≤ 36

/-- Every listed offset belongs to an array of the instance (20_memory.md R60). -/
abbrev Mem.Inside (c : Config) (m : Mem) : Prop := ∀ cell ∈ m, inArrays c cell.1

/-- The invariant: legal parameters, memory in its canonical form and inside the arrays, a legal STATUS and a legal
error report. -/
abbrev State.Inv (s : State) : Prop :=
  s.cfg.Legal ∧ Mem.wf s.mem ∧ Mem.Inside s.cfg s.mem ∧ s.status.Legal ∧ s.ReportLegal

/-! ## Operands -/

/-- Every byte of a range has a value. -/
abbrev Mem.Written (m : Mem) (a n : Nat) : Prop := ∀ k < n, Mem.get m (a + k) ≠ none

/-- The buffer bytes a command may read have been written (70_reset_and_hazards.md R261). -/
abbrev operandsReady (i : Instr) (s : State) : Prop :=
  match i with
  | .pack | .encBytes .. => Mem.Written s.mem byteBufBase s.byteLen.toNat
  | .decInt _ | .decStr .. => Mem.Written s.mem symBufBase s.symLen.toNat
  | .nop | .encInt .. | .encBadsel | .decBadsel | .unpack .. | .symfor _ | .valfor _ | .chksum | .reserved => True

/-- The memory holds these bytes from offset `a` on. -/
abbrev Mem.Holds (m : Mem) (a : Nat) (bs : List Byte) : Prop := ∀ k < bs.length, Mem.get m (a + k) = bs[k]?

/-- The memories read alike outside the `n` bytes from `a` on. -/
abbrev Mem.SameOutside (m m' : Mem) (a n : Nat) : Prop :=
  ∀ x, (x < a ∨ a + n ≤ x) → Mem.get m' x = Mem.get m x

/-! ## Symbol strings as the decoder's rules speak of them -/

/-- A byte the data portion may hold: the separator or a data symbol 0..31 (43_decoder.md R191). -/
abbrev DataSymbol (b : Byte) : Prop := cls b = .skip ∨ ∃ x : Fin 37, x.val < 32 ∧ cls b = .value x

/-- A byte the data portion may not hold: INVALID, or a checksum-exclusive symbol 32..36 (43_decoder.md R191). -/
abbrev BadInData (b : Byte) : Prop := cls b = .invalid ∨ ∃ x : Fin 37, 32 ≤ x.val ∧ cls b = .value x

/-- The VALUE entries of a string, separators removed, left to right (43_decoder.md R192). -/
def dataValues (text : List Byte) : List Nat :=
  text.filterMap fun b =>
    match cls b with
    | .value x => some x.val
    | .skip => none
    | .invalid => none

/-- `acc := 0; for each x: acc := acc*32 + x` (43_decoder.md R192). -/
def symbolValue (text : List Byte) : Nat := (dataValues text).foldl (fun acc x => acc * 32 + x) 0

/-! ## Outputs (92_eei_decisions.md D26) -/

/-- The commands that can write VALUE. -/
def writesValue : Instr → Bool
  | .pack | .decInt _ | .decStr .. => true
  | .nop | .encInt .. | .encBytes .. | .encBadsel | .decBadsel | .unpack .. | .symfor _ | .valfor _ | .chksum
  | .reserved => false

/-- The commands that can write BYTE_BUF and BYTE_LEN. -/
def writesBytes : Instr → Bool
  | .unpack .. | .decStr .. => true
  | .nop | .encInt .. | .encBytes .. | .encBadsel | .decInt _ | .decBadsel | .pack | .symfor _ | .valfor _ | .chksum
  | .reserved => false

/-- The commands that can write SYM_BUF and SYM_LEN. -/
def writesSymbols : Instr → Bool
  | .encInt .. | .encBytes .. => true
  | .nop | .encBadsel | .decInt _ | .decStr .. | .decBadsel | .pack | .unpack .. | .symfor _ | .valfor _ | .chksum
  | .reserved => false

/-- The commands that can write RESULT. -/
def writesResult : Instr → Bool
  | .symfor _ | .valfor _ | .chksum => true
  | .nop | .encInt .. | .encBytes .. | .encBadsel | .decInt _ | .decStr .. | .decBadsel | .pack | .unpack ..
  | .reserved => false

end Sys2Proof.Machine
end

