-- ==== Sys2Proof/Certificates/Slice0/Obligations.lean ====
section
/-! DEFINITION. The statements for the provers, one `def Obligations.<Name> : Prop` each, from the numbered rules of
spec/. Where a state is only a premise's, `State.Inv` rules out what no run reaches; that it holds at reset and that
every step keeps it are statements of their own. -/

open Sys2Proof Sys2Proof.Machine

/-! ## Encoding (30_encoding.md) -/

/-- A few words written out from the encodings of 30_encoding.md R97 and R98, and the commands they stand for. -/
def Obligations.SpecWordsDecodeToTheirCommands : Prop :=
  decode 0x00000000 = .nop ∧ decode 0x000602C1 = .encInt true true 2 6 ∧
  decode 0x00050091 = .encBytes false true 0 5 ∧ decode 0x000000B1 = .encBadsel ∧
  decode 0x00000042 = .decInt true ∧ decode 0x000400D2 = .decStr true true 4 ∧
  decode 0x00000022 = .decBadsel ∧ decode 0x00000003 = .pack ∧ decode 0x00040084 = .unpack true 4 ∧
  decode 0x00120005 = .symfor 18 ∧ decode 0x006C0006 = .valfor 0x6C ∧ decode 0x00000007 = .chksum ∧
  decode 0x0000000F = .reserved

/-- 30_encoding.md R97: the decoding function on every word, in terms of the word's fields, and the table: exactly one
row is selected, the decoded command's. -/
def Obligations.DecodeFollowsTheTableOnEveryWord : Prop :=
  ∀ w : Word,
    let op := w.extractLsb' 0 4
    let sel := w.extractLsb' 4 2
    let check := w.getLsbD 6
    let lenEn := w.getLsbD 7
    let step := (w.extractLsb' 8 8).toNat
    let len := (w.extractLsb' 16 16).toNat
    let imm8 := (w.extractLsb' 16 8).toNat
    (op = 0x0 → decode w = .nop) ∧
    (op = 0x1 ∧ sel = 0 → decode w = .encInt check lenEn step len) ∧
    (op = 0x1 ∧ sel = 1 → decode w = .encBytes check lenEn step len) ∧
    (op = 0x1 ∧ 2 ≤ sel.toNat → decode w = .encBadsel) ∧
    (op = 0x2 ∧ sel = 0 → decode w = .decInt check) ∧
    (op = 0x2 ∧ sel = 1 → decode w = .decStr check lenEn len) ∧
    (op = 0x2 ∧ 2 ≤ sel.toNat → decode w = .decBadsel) ∧
    (op = 0x3 → decode w = .pack) ∧
    (op = 0x4 → decode w = .unpack lenEn len) ∧
    (op = 0x5 → decode w = .symfor imm8) ∧
    (op = 0x6 → decode w = .valfor imm8) ∧
    (op = 0x7 → decode w = .chksum) ∧
    (8 ≤ op.toNat → decode w = .reserved) ∧
    ∃ r ∈ opcodeTable, r.mnemonic = (decode w).mnemonic ∧ w &&& r.mask = r.pattern ∧
      ∀ r' ∈ opcodeTable, w &&& r'.mask = r'.pattern → r' = r

/-- Decoding the encoding of a well-formed command gives it back, with every operand at every value of its field
(30_encoding.md R97, R98). -/
def Obligations.DecodeOfEncodeGivesTheCommandBack : Prop :=
  ∀ i : Instr, i.WellFormed → decode (encode i) = i

/-- The other direction (30_encoding.md R95): encoding what a word decodes to keeps the bits its row uses and clears
the ignored ones; and a word that agrees on the used bits decodes to the same command. -/
def Obligations.EncodeOfDecodeClearsIgnoredBits : Prop :=
  ∀ w : Word, encode (decode w) = w &&& (decode w).usedBits ∧
    ∀ w' : Word, w' &&& (decode w).usedBits = w &&& (decode w).usedBits → decode w' = decode w

/-- 30_encoding.md R95: ignored bits of the command in flight change no result and raise no error; CMD alone still
holds them as written. -/
def Obligations.IgnoredBitsChangeNoResult : Prop :=
  ∀ (s : State) (w' : Word), w' &&& (decode s.cmd).usedBits = s.cmd &&& (decode s.cmd).usedBits →
    exec (decode w') { s with cmd := w' } =
      match exec (decode s.cmd) s with
      | .next t => .next { t with cmd := w' }
      | .fault f => .fault f
      | .refused r => .refused r

/-- 30_encoding.md R98: assembling the line a word disassembles to gives the word, as data and as printed text; the
order of the options does not matter; the line is a mnemonic one only when the ignored bits are 0; and then each row
that has a mnemonic line is printed as that line, with exactly its options. (A LEN without LEN_EN, which no line spells,
is `.word`: assumption log 11.) -/
def Obligations.DisassembledLinesAssembleBack : Prop :=
  (∀ w : Word, Asm.assemble (Asm.disassemble w) = some w ∧
    Asm.assembleText (Asm.disassemble w).text = some w) ∧
  (∀ op opts opts', List.Perm opts opts' → Asm.assemble (.cmd op opts) = Asm.assemble (.cmd op opts')) ∧
  (∀ w : Word, w &&& ~~~(decode w).usedBits ≠ 0 → Asm.disassemble w = .word w.toNat) ∧
  (∀ w : Word, w &&& ~~~(decode w).usedBits = 0 →
    let opts (check lenEn : Bool) (step len : Nat) : List Asm.Opt :=
      (if check then [.check] else []) ++ (if step = 0 then [] else [.step step]) ++ (if lenEn then [.len len] else [])
    match decode w with
    | .nop => Asm.disassemble w = .cmd .nop []
    | .encInt check lenEn step len =>
      lenEn = true ∨ len = 0 → Asm.disassemble w = .cmd .encInt (opts check lenEn step len)
    | .encBytes check lenEn step len =>
      lenEn = true ∨ len = 0 → Asm.disassemble w = .cmd .encBytes (opts check lenEn step len)
    | .decInt check => Asm.disassemble w = .cmd .decInt (opts check false 0 0)
    | .decStr check lenEn len =>
      lenEn = true ∨ len = 0 → Asm.disassemble w = .cmd .decStr (opts check lenEn 0 len)
    | .pack => Asm.disassemble w = .cmd .pack []
    | .unpack lenEn len => lenEn = true ∨ len = 0 → Asm.disassemble w = .cmd .unpack (opts false lenEn 0 len)
    | .symfor imm8 => Asm.disassemble w = .index .symfor imm8
    | .valfor imm8 => Asm.disassemble w = .index .valfor imm8
    | .chksum => Asm.disassemble w = .cmd .chksum []
    | .encBadsel | .decBadsel | .reserved => Asm.disassemble w = .word w.toNat)

/-! ## The life of a command (44_control.md) -/

/-- 44_control.md R220: a host write of any word to CMD while BUSY = 0. The response and nothing else is the model's. -/
def Obligations.IdleCmdWriteAccepts : Prop :=
  ∀ (s : State) (w : Word), s.status.busy = false →
    s.serve (.write (s.cfg.base + 0x000) .w32 (w.zeroExtend 64)) =
      .next { s with
        cmd := w,
        status := { busy := true, done := false, err := false, werr := s.status.werr, errCode := 0 },
        errPos := 0, chk := { actual := 0, expected := 0 }, resp := some .ok }

/-- 44_control.md R221 and R226 as the model's step: at the engine's turn with BUSY = 1, one step decodes CMD and runs
that command, and so it is when the schedule is used up; `withFetchWord` puts a word in that place. With BUSY = 0 the
engine's turn changes only the schedule, and with no turn and no host operation left nothing changes. -/
def Obligations.StepRunsTheCommandInFlight : Prop :=
  (∀ (s : State) (rest : List Turn), s.cfg.Legal → s.status.busy = true → s.sched = .engine :: rest →
    step s = exec (decode s.cmd) { s with sched := rest }) ∧
  (∀ s : State, s.cfg.Legal → s.status.busy = true → s.sched = [] → step s = exec (decode s.cmd) s) ∧
  (∀ (s : State) (w : Word), s.cfg.Legal → step (s.withFetchWord 32 w.toNat) = exec (decode w) (s.accept w)) ∧
  (∀ (s : State) (rest : List Turn), s.cfg.Legal → s.status.busy = false → s.sched = .engine :: rest →
    step s = .next { s with sched := rest }) ∧
  (∀ s : State, s.cfg.Legal → s.status.busy = false → s.sched = [] → s.host = [] → step s = .next s)

/-- 44_control.md R221: whatever a command does, it ends with BUSY = 0 and DONE = 1, and it leaves CMD, WERR, the
parameters and the outside world's fields alone. -/
def Obligations.CompletionEndsTheCommand : Prop :=
  ∀ (i : Instr) (s t : State), exec i s = .next t →
    t.status.busy = false ∧ t.status.done = true ∧ t.status.werr = s.status.werr ∧
    t.cmd = s.cmd ∧ t.cfg = s.cfg ∧ t.host = s.host ∧ t.sched = s.sched ∧ t.resp = s.resp ∧ t.draws = s.draws

/-- 44_control.md R222: NOP, in every state of the invariant with a command in flight; and every word with OP 0 is NOP. -/
def Obligations.NopOnlyReportsSuccess : Prop :=
  (∀ s : State, s.Inv → s.status.busy = true →
    exec .nop s = .next { s with
      status := { busy := false, done := true, err := false, werr := s.status.werr, errCode := 0 },
      errPos := 0, chk := { actual := 0, expected := 0 } }) ∧
  (∀ w : Word, w &&& 0x0000000F = 0x00000000 → decode w = .nop)

/-- 42_encoder.md R168, 43_decoder.md R198, 44_control.md R223: these rows always report their error, whatever the
ignored bits hold, and write nothing else. -/
def Obligations.ErrorRowsReportTheirError : Prop :=
  (∀ s : State, exec .encBadsel s = .next { s with
    status := { s.status with busy := false, done := true, err := true, errCode := 0x01 } }) ∧
  (∀ s : State, exec .decBadsel s = .next { s with
    status := { s.status with busy := false, done := true, err := true, errCode := 0x05 } }) ∧
  (∀ s : State, exec .reserved s = .next { s with
    status := { s.status with busy := false, done := true, err := true, errCode := 0x06 } }) ∧
  (∀ w : Word, w &&& 0x0000002F = 0x00000021 → decode w = .encBadsel) ∧
  (∀ w : Word, w &&& 0x0000002F = 0x00000022 → decode w = .decBadsel) ∧
  (∀ w : Word, w &&& 0x00000008 = 0x00000008 → decode w = .reserved)

/-! ## Errors (60_exceptions.md) -/

/-- 60_exceptions.md R233: exactly what a raise writes, for every error, and CHK as the word
(expected << 8) | actual. -/
def Obligations.RaiseWritesExactlyTheReport : Prop :=
  ∀ (s : State) (e : CmdError),
    s.finish (.raise e) = .next (s.raise e) ∧
    s.raise e = { s with
      status := { busy := false, done := true, err := true, werr := s.status.werr, errCode := e.code },
      errPos := (s.raise e).errPos, chk := (s.raise e).chk } ∧
    (∀ pos, e = .invalidCharacter pos → (s.raise e).errPos = BitVec.ofNat 16 pos) ∧
    ((∀ pos, e ≠ .invalidCharacter pos) → (s.raise e).errPos = s.errPos) ∧
    (∀ actual expected, e = .checksumMismatch actual expected →
      (s.raise e).chk.word = BitVec.ofNat 32 (expected.val <<< 8 ||| actual.val)) ∧
    ((∀ actual expected, e ≠ .checksumMismatch actual expected) → (s.raise e).chk = s.chk)

/-- 60_exceptions.md R231: the codes, and which command can raise which. A command that starts with ERR = 0 and ends
with ERR = 1 reports one of its own codes. -/
def Obligations.RaisedCodesAreTheCommandsOwn : Prop :=
  (CmdError.unsupportedInputType.code = 0x01 ∧ CmdError.lengthTooSmall.code = 0x02 ∧
    (∀ p, (CmdError.invalidCharacter p).code = 0x03) ∧ (∀ a x, (CmdError.checksumMismatch a x).code = 0x04) ∧
    CmdError.unsupportedTargetType.code = 0x05 ∧ CmdError.illegalCommand.code = 0x06 ∧
    CmdError.capacityExceeded.code = 0x07 ∧ CmdError.valueOutOfRange.code = 0x08) ∧
  ∀ (i : Instr) (s t : State), s.status.err = false → exec i s = .next t → t.status.err = true →
    match i with
    | .nop | .valfor _ | .chksum => False
    | .encBadsel => t.status.errCode = 0x01
    | .encInt _ lenEn _ _ => t.status.errCode = 0x07 ∨ (t.status.errCode = 0x02 ∧ lenEn = true)
    | .encBytes _ lenEn _ _ => t.status.errCode = 0x07 ∨ (t.status.errCode = 0x02 ∧ lenEn = true)
    | .decBadsel => t.status.errCode = 0x05
    | .decInt check => t.status.errCode = 0x07 ∨ t.status.errCode = 0x03 ∨ (t.status.errCode = 0x04 ∧ check = true)
    | .decStr check lenEn _ => t.status.errCode = 0x07 ∨ t.status.errCode = 0x03 ∨
        (t.status.errCode = 0x04 ∧ check = true) ∨ (t.status.errCode = 0x02 ∧ lenEn = true)
    | .pack => t.status.errCode = 0x07
    | .unpack lenEn _ => lenEn = true ∧ (t.status.errCode = 0x07 ∨ t.status.errCode = 0x02)
    | .symfor imm8 => t.status.errCode = 0x08 ∧ 36 < imm8
    | .reserved => t.status.errCode = 0x06

/-- 60_exceptions.md R234: a command that raises writes none of its outputs. (An accept leaves ERR = 0, so a command
raised exactly when it ends with ERR = 1.) -/
def Obligations.ErrorsLeaveNoPartialResults : Prop :=
  ∀ (i : Instr) (s t : State), s.status.err = false → exec i s = .next t → t.status.err = true →
    t.value = s.value ∧ t.mem = s.mem ∧ t.byteLen = s.byteLen ∧ t.symLen = s.symLen ∧ t.result = s.result

/-- Which command may change what (92_eei_decisions.md D26, D13), memory included: VALUE only by PACK and DECODE,
BYTE_BUF only by UNPACK and DEC.STR, SYM_BUF only by ENCODE, RESULT only by the lookups. -/
def Obligations.CommandsChangeOnlyTheirOutputs : Prop :=
  ∀ (i : Instr) (s t : State), exec i s = .next t →
    (writesResult i = false → t.result = s.result) ∧
    (writesSymbols i = false → t.symLen = s.symLen) ∧
    (writesBytes i = false → t.byteLen = s.byteLen) ∧
    ∀ a, Mem.get t.mem a ≠ Mem.get s.mem a →
      (writesValue i = true ∧ 0x100 ≤ a ∧ a < 0x100 + s.cfg.vb) ∨
      (writesBytes i = true ∧ 0x200 ≤ a ∧ a < 0x200 + s.cfg.vb) ∨
      (writesSymbols i = true ∧ 0x400 ≤ a ∧ a < 0x400 + s.cfg.symCap)

/-! ## Tables, checksum and lookups (10_state.md, 40_alphabet.md) -/

/-- 10_state.md R31: every entry of DEC_LUT by the table of byte ranges, and the three counts. -/
def Obligations.DecTableHasTheEntriesOfR31 : Prop :=
  (∀ b : Fin 256,
    let n := b.val
    let e := cls (BitVec.ofNat 8 n)
    (0x30 ≤ n ∧ n ≤ 0x39 → e = .value (Fin.ofNat 37 (n - 0x30))) ∧
    (0x41 ≤ n ∧ n ≤ 0x48 → e = .value (Fin.ofNat 37 (n - 0x41 + 10))) ∧
    (0x61 ≤ n ∧ n ≤ 0x68 → e = .value (Fin.ofNat 37 (n - 0x61 + 10))) ∧
    (n = 0x49 ∨ n = 0x69 ∨ n = 0x4C ∨ n = 0x6C → e = .value 1) ∧
    (n = 0x4A ∨ n = 0x6A → e = .value 18) ∧ (n = 0x4B ∨ n = 0x6B → e = .value 19) ∧
    (n = 0x4D ∨ n = 0x6D → e = .value 20) ∧ (n = 0x4E ∨ n = 0x6E → e = .value 21) ∧
    (n = 0x4F ∨ n = 0x6F → e = .value 0) ∧
    (0x50 ≤ n ∧ n ≤ 0x54 → e = .value (Fin.ofNat 37 (n - 0x50 + 22))) ∧
    (0x70 ≤ n ∧ n ≤ 0x74 → e = .value (Fin.ofNat 37 (n - 0x70 + 22))) ∧
    (n = 0x55 ∨ n = 0x75 → e = .value 36) ∧
    (0x56 ≤ n ∧ n ≤ 0x5A → e = .value (Fin.ofNat 37 (n - 0x56 + 27))) ∧
    (0x76 ≤ n ∧ n ≤ 0x7A → e = .value (Fin.ofNat 37 (n - 0x76 + 27))) ∧
    (n = 0x2A → e = .value 32) ∧ (n = 0x7E → e = .value 33) ∧ (n = 0x24 → e = .value 34) ∧
    (n = 0x3D → e = .value 35) ∧ (n = 0x2D → e = .skip) ∧
    (n ≤ 0x23 ∨ (0x25 ≤ n ∧ n ≤ 0x29) ∨ n = 0x2B ∨ n = 0x2C ∨ n = 0x2E ∨ n = 0x2F ∨ (0x3A ≤ n ∧ n ≤ 0x3C) ∨
      (0x3E ≤ n ∧ n ≤ 0x40) ∨ (0x5B ≤ n ∧ n ≤ 0x60) ∨ (0x7B ≤ n ∧ n ≤ 0x7D) ∨ 0x7F ≤ n → e = .invalid)) ∧
  ((List.range 256).countP fun n => cls (BitVec.ofNat 8 n) != .skip && cls (BitVec.ofNat 8 n) != .invalid) = 66 ∧
  ((List.range 256).countP fun n => cls (BitVec.ofNat 8 n) == .skip) = 1 ∧
  ((List.range 256).countP fun n => cls (BitVec.ofNat 8 n) == .invalid) = 189

/-- 10_state.md R32: letters and their lower case have one entry, DEC_LUT undoes ENC_LUT, and no two values share a
symbol. -/
def Obligations.TablesFoldCaseAndAreInverse : Prop :=
  (∀ k < 26, cls (BitVec.ofNat 8 (0x61 + k)) = cls (BitVec.ofNat 8 (0x41 + k))) ∧
  (∀ v : Fin 37, cls (sym v) = .value v) ∧ (∀ v v' : Fin 37, sym v = sym v' → v = v')

/-- 40_alphabet.md R120 with the contents of ENC_LUT (10_state.md R30): SYMFOR gives the symbol of 0..36, and reports
VALUE_OUT_OF_RANGE above, RESULT unchanged; and which words are it. -/
def Obligations.SymforReadsTheTableOrReportsRange : Prop :=
  (∀ (s : State) (i : Fin 37), exec (.symfor i.val) s = .next { s with
    result := BitVec.ofNat 32 (sym i).toNat,
    status := { s.status with busy := false, done := true } }) ∧
  (∀ (s : State) (i : Nat), 36 < i → exec (.symfor i) s = .next { s with
    status := { s.status with busy := false, done := true, err := true, errCode := 0x08 } }) ∧
  (∀ i : Fin 37,
    (i.val ≤ 9 → (sym i).toNat = 0x30 + i.val) ∧
    (10 ≤ i.val ∧ i.val ≤ 17 → (sym i).toNat = 0x41 + (i.val - 10)) ∧
    (18 ≤ i.val ∧ i.val ≤ 19 → (sym i).toNat = 0x4A + (i.val - 18)) ∧
    (20 ≤ i.val ∧ i.val ≤ 21 → (sym i).toNat = 0x4D + (i.val - 20)) ∧
    (22 ≤ i.val ∧ i.val ≤ 26 → (sym i).toNat = 0x50 + (i.val - 22)) ∧
    (27 ≤ i.val ∧ i.val ≤ 31 → (sym i).toNat = 0x56 + (i.val - 27))) ∧
  sym 32 = 0x2A ∧ sym 33 = 0x7E ∧ sym 34 = 0x24 ∧ sym 35 = 0x3D ∧ sym 36 = 0x55 ∧
  ∀ w : Word, w &&& 0x0000000F = 0x00000005 → decode w = .symfor (w.extractLsb' 16 8).toNat

/-- 40_alphabet.md R121: VALFOR never errs; RESULT is the class and the value; and which words are it. -/
def Obligations.ValforReportsClassAndValue : Prop :=
  (∀ w : Word, w &&& 0x0000000F = 0x00000006 → decode w = .valfor (w.extractLsb' 16 8).toNat) ∧
  ∀ (s : State) (b : Nat), ∃ r : Word, exec (.valfor b) s = .next { s with
      result := r, status := { s.status with busy := false, done := true } } ∧
    (∀ v, cls (BitVec.ofNat 8 b) = .value v → r = BitVec.ofNat 32 v.val) ∧
    (cls (BitVec.ofNat 8 b) = .skip → r = 0x00000100) ∧
    (cls (BitVec.ofNat 8 b) = .invalid → r = 0x00000200)

/-- 40_alphabet.md R122: CHKSUM never errs; RESULT is val(VALUE) mod 37 and its symbol; and which words are it. -/
def Obligations.ChksumReportsRemainderAndSymbol : Prop :=
  (∀ w : Word, w &&& 0x0000000F = 0x00000007 → decode w = .chksum) ∧
  ∀ s : State, exec .chksum s = .next { s with
    result := BitVec.ofNat 32 ((sym (checksum s.value)).toNat <<< 8 ||| s.value % 37),
    status := { s.status with busy := false, done := true } }

/-- 40_alphabet.md R125 (and R124): the accumulator over digits and the accumulator over bytes both give v mod 37. -/
def Obligations.ChecksumAccumulatorsAgree : Prop :=
  (∀ v : Nat, (digits v).foldl (fun a x => (a * 32 + x.val) % 37) 0 = v % 37 ∧ (checksum v).val = v % 37) ∧
  (∀ bs : List Byte, bs.zipIdx.foldl (fun a p => (a + p.1.toNat * (256 ^ p.2 % 37)) % 37) 0 =
    bytesToInteger bs % 37)

/-! ## The bit packer (41_bit_packer.md) -/

/-- 41_bit_packer.md R140: bytes_to_integer is the sum of b[k] * 256^k. -/
def Obligations.BytesToIntegerIsTheWeightedSum : Prop :=
  ∀ bs : List Byte, bytesToInteger bs = ∑ k ∈ Finset.range bs.length, (bs.getD k 0).toNat * 256 ^ k

/-- 41_bit_packer.md R141: integer_to_bytes byte by byte, the bit length, and that nbytes is the least number of bytes
that loses no bit. -/
def Obligations.IntegerToBytesShiftsAndMasks : Prop :=
  (∀ v m k : Nat, k < m → (integerToBytes v m)[k]? = some (BitVec.ofNat 8 ((v >>> (8 * k)) &&& 0xFF))) ∧
  (∀ v m : Nat, (integerToBytes v m).length = m) ∧
  (∀ v m : Nat, nbytes v ≤ m ↔ v < 256 ^ m) ∧
  (∀ v : Nat, v < 2 ^ bitLen v ∧ (v ≠ 0 → 2 ^ (bitLen v - 1) ≤ v)) ∧ bitLen 0 = 0

/-- 41_bit_packer.md R144: the three round-trip laws. -/
def Obligations.ByteSequencesRoundTrip : Prop :=
  (∀ v m : Nat, nbytes v ≤ m → bytesToInteger (integerToBytes v m) = v) ∧
  (∀ bs : List Byte, integerToBytes (bytesToInteger bs) bs.length = bs) ∧
  (∀ bs : List Byte, nbytes (bytesToInteger bs) ≤ bs.length ∧
    bs = integerToBytes (bytesToInteger bs) (nbytes (bytesToInteger bs)) ++
      List.replicate (bs.length - nbytes (bytesToInteger bs)) 0)

/-- 41_bit_packer.md R142: PACK, and which words are it. A BYTE_LEN beyond VB is refused; else VALUE becomes the integer
of the sequence, byte by byte with zeros above, and nothing else changes but STATUS. -/
def Obligations.PackLoadsTheByteSequence : Prop :=
  (∀ w : Word, w &&& 0x0000000F = 0x00000003 → decode w = .pack) ∧
  (∀ s : State, s.cfg.vb < s.byteLen.toNat → exec .pack s = .next (s.raise .capacityExceeded)) ∧
  (∀ (s : State) (bs : List Byte), bs.length = s.byteLen.toNat → s.byteLen.toNat ≤ s.cfg.vb →
    Mem.Holds s.mem byteBufBase bs →
    ∃ m, exec .pack s = .next { s with mem := m, status := { s.status with busy := false, done := true } } ∧
      { s with mem := m }.value = bytesToInteger bs ∧
      (∀ k < s.cfg.vb, Mem.get m (0x100 + k) = some (bs.getD k 0)) ∧
      Mem.SameOutside s.mem m 0x100 s.cfg.vb)

/-- 41_bit_packer.md R143: UNPACK with and without a length, in the order of its checks; and which words are it. -/
def Obligations.UnpackWritesTheBytesOfValue : Prop :=
  (∀ w : Word, w &&& 0x0000000F = 0x00000004 → decode w = .unpack (w.getLsbD 7) (w.extractLsb' 16 16).toNat) ∧
  ∀ (s : State) (lenEn : Bool) (len : Nat),
    (lenEn = true → s.cfg.vb < len → exec (.unpack lenEn len) s = .next (s.raise .capacityExceeded)) ∧
    (lenEn = true → len ≤ s.cfg.vb → len < nbytes s.value →
      exec (.unpack lenEn len) s = .next (s.raise .lengthTooSmall)) ∧
    ∀ m : Nat, (if lenEn then m = len ∧ len ≤ s.cfg.vb ∧ nbytes s.value ≤ len else m = nbytes s.value) →
      ∃ mem, exec (.unpack lenEn len) s = .next { s with
          mem := mem, byteLen := BitVec.ofNat 16 m, status := { s.status with busy := false, done := true } } ∧
        (∀ k < m, Mem.get mem (0x200 + k) = some (BitVec.ofNat 8 (s.value >>> (8 * k)))) ∧
        Mem.SameOutside s.mem mem 0x200 m

/-! ## The encoder (42_encoder.md) -/

/-- 42_encoder.md R161: the digits rebuild v, their number is max(1, ceil(bitlen/5)), and no leading zero digit is
produced except for v = 0. -/
def Obligations.DigitsAreTheBase32Expansion : Prop :=
  ∀ v : Nat, (digits v).foldl (fun a d => a * 32 + d.val) 0 = v ∧
    (digits v).length = max 1 ((bitLen v + 4) / 5) ∧
    (v = 0 → digits v = [0]) ∧ (v ≠ 0 → (digits v).head? ≠ some 0)

/-- 42_encoder.md R163: where every digit and every separator of D digits stands, counted from the right, the number of
characters, and that total rises strictly by 1 or 2. -/
def Obligations.SeparatorsStandEveryStepDigitsFromTheRight : Prop :=
  (∀ ds : List (Fin 32), format 0 ds = ds.map digitSym) ∧
  (∀ (step : Nat) (ds : List (Fin 32)), 0 < step →
    (format step ds).length = ds.length + (ds.length - 1) / step ∧
    ∀ i < ds.length,
      let at' := i + ((ds.length - 1) / step - (ds.length - 1 - i) / step)
      (format step ds)[at']? = ds[i]?.map digitSym ∧
      (i < ds.length - 1 → (ds.length - 1 - i) % step = 0 → (format step ds)[at' + 1]? = some 0x2D)) ∧
  (∀ (step : Nat) (check : Bool) (D : Nat), 0 < D →
    total step check D < total step check (D + 1) ∧ total step check (D + 1) ≤ total step check D + 2)

/-- 42_encoder.md R166: ENC.INT completes for every value and options for which a digit count D exists and its text
fits SYM_BUF; the text, its length and the frame. -/
def Obligations.EncIntWritesItsText : Prop :=
  ∀ (s : State) (check lenEn : Bool) (step len D : Nat),
    (if lenEn then (digits s.value).length ≤ D ∧ total step check D = len else D = (digits s.value).length) →
    total step check D ≤ s.cfg.symCap →
    ∃ m, exec (.encInt check lenEn step len) s = .next { s with
        mem := m, symLen := BitVec.ofNat 16 (total step check D),
        status := { s.status with busy := false, done := true } } ∧
      (encodeText check step D s.value).length = total step check D ∧
      Mem.Holds m 0x400 (encodeText check step D s.value) ∧
      Mem.SameOutside s.mem m 0x400 (total step check D)

/-- 42_encoder.md R167: ENC.BYTES is the same of the packed integer of BYTE_BUF[0..BYTE_LEN-1]. -/
def Obligations.EncBytesWritesItsText : Prop :=
  ∀ (s : State) (bs : List Byte) (check lenEn : Bool) (step len D : Nat),
    bs.length = s.byteLen.toNat → s.byteLen.toNat ≤ s.cfg.vb → Mem.Holds s.mem 0x200 bs →
    (if lenEn then (digits (bytesToInteger bs)).length ≤ D ∧ total step check D = len
      else D = (digits (bytesToInteger bs)).length) →
    total step check D ≤ s.cfg.symCap →
    ∃ m, exec (.encBytes check lenEn step len) s = .next { s with
        mem := m, symLen := BitVec.ofNat 16 (total step check D),
        status := { s.status with busy := false, done := true } } ∧
      (encodeText check step D (bytesToInteger bs)).length = total step check D ∧
      Mem.Holds m 0x400 (encodeText check step D (bytesToInteger bs)) ∧
      Mem.SameOutside s.mem m 0x400 (total step check D)

/-- 42_encoder.md R164: a given length n. Too short or unreachable is LENGTH_TOO_SMALL, the digit count is unique, and
every success has exactly n characters: zero digits at the left, then the digits, separators on the padded list, and
the check symbol. -/
def Obligations.FixedLengthPadsOrReportsTooSmall : Prop :=
  ∀ (s : State) (check : Bool) (step n : Nat),
    let d := (digits s.value).length
    (n < d + check.toNat → exec (.encInt check true step n) s = .next (s.raise .lengthTooSmall)) ∧
    ((¬ ∃ D, d ≤ D ∧ total step check D = n) →
      exec (.encInt check true step n) s = .next (s.raise .lengthTooSmall)) ∧
    ∀ D, d ≤ D → total step check D = n → n ≤ s.cfg.symCap →
      (∀ D', d ≤ D' → total step check D' = n → D' = D) ∧
      ∃ t, exec (.encInt check true step n) s = .next t ∧ t.symLen = BitVec.ofNat 16 n ∧
        let text := format step (List.replicate (D - d) 0 ++ digits s.value) ++
          (if check then [sym (checksum s.value)] else [])
        text.length = n ∧ Mem.Holds t.mem 0x400 text

/-- 42_encoder.md R165, the errors of ENCODE: the two capacity checks where R165 puts them, for both input types, and
LENGTH_TOO_SMALL of ENC.BYTES. -/
def Obligations.EncodeReportsItsErrorsInOrder : Prop :=
  (∀ (s : State) (check lenEn : Bool) (step len : Nat), s.cfg.vb < s.byteLen.toNat →
    exec (.encBytes check lenEn step len) s = .next (s.raise .capacityExceeded)) ∧
  (∀ (s : State) (bs : List Byte) (check : Bool) (step len : Nat),
    bs.length = s.byteLen.toNat → s.byteLen.toNat ≤ s.cfg.vb → Mem.Holds s.mem 0x200 bs →
    (¬ ∃ D, (digits (bytesToInteger bs)).length ≤ D ∧ total step check D = len) →
    exec (.encBytes check true step len) s = .next (s.raise .lengthTooSmall)) ∧
  (∀ (s : State) (check lenEn : Bool) (step len D : Nat),
    (if lenEn then (digits s.value).length ≤ D ∧ total step check D = len else D = (digits s.value).length) →
    s.cfg.symCap < total step check D →
    exec (.encInt check lenEn step len) s = .next (s.raise .capacityExceeded)) ∧
  (∀ (s : State) (bs : List Byte) (check lenEn : Bool) (step len D : Nat),
    bs.length = s.byteLen.toNat → s.byteLen.toNat ≤ s.cfg.vb → Mem.Holds s.mem 0x200 bs →
    (if lenEn then (digits (bytesToInteger bs)).length ≤ D ∧ total step check D = len
      else D = (digits (bytesToInteger bs)).length) →
    s.cfg.symCap < total step check D →
    exec (.encBytes check lenEn step len) s = .next (s.raise .capacityExceeded))

/-- 42_encoder.md R165 and 00_scope.md R8: without a fixed length ENC.INT always succeeds, and so does ENC.BYTES of a
written sequence of at most VB bytes; the longest output is 2*ceil(VALUE_BITS/5) characters, reached by the largest value
with STEP = 1 and CHECK = 1 (R169(3)). -/
def Obligations.EncodeWithoutLengthAlwaysFits : Prop :=
  ∀ (s : State) (check : Bool) (step len : Nat), s.cfg.Legal →
    (∀ v < 2 ^ s.cfg.valueBits, total step check (digits v).length ≤ 2 * ((s.cfg.valueBits + 4) / 5)) ∧
    total 1 true (digits (2 ^ s.cfg.valueBits - 1)).length = 2 * ((s.cfg.valueBits + 4) / 5) ∧
    (∃ t, exec (.encInt check false step len) s = .next t ∧ t.status.err = s.status.err ∧
      t.symLen.toNat = total step check (digits s.value).length) ∧
    ∀ bs : List Byte, bs.length = s.byteLen.toNat → s.byteLen.toNat ≤ s.cfg.vb → Mem.Holds s.mem 0x200 bs →
      ∃ t, exec (.encBytes check false step len) s = .next t ∧ t.status.err = s.status.err ∧
        t.symLen.toNat = total step check (digits (bytesToInteger bs)).length

/-- 42_encoder.md R169(1): an encoded text consists of canonical data symbols and separators, but for the check symbol
at its end. -/
def Obligations.EncodedTextIsCanonical : Prop :=
  ∀ (check : Bool) (step D v : Nat),
    ∃ body : List Byte,
      encodeText check step D v = body ++ (if check then [sym (checksum v)] else []) ∧
      ∀ b ∈ body, b = 0x2D ∨ ∃ x : Fin 37, x.val < 32 ∧ b = sym x

/-! ## The decoder (43_decoder.md) -/

/-- 43_decoder.md R192 with R195 and R196, CHECK = 0: a string of data symbols and separators decodes to the sum of
x_j * 32^(k-1-j), refused only when it does not fit VALUE; SYM_LEN beyond SYM_CAP is refused first. -/
def Obligations.DecIntAccumulatesTheDataSymbols : Prop :=
  (∀ (s : State) (check : Bool), s.cfg.symCap < s.symLen.toNat →
    exec (.decInt check) s = .next (s.raise .capacityExceeded)) ∧
  (∀ text : List Byte, symbolValue text =
    ∑ j ∈ Finset.range (dataValues text).length,
      (dataValues text).getD j 0 * 32 ^ ((dataValues text).length - 1 - j)) ∧
  (∀ (s : State) (text : List Byte), text.length = s.symLen.toNat → s.symLen.toNat ≤ s.cfg.symCap →
    Mem.Holds s.mem 0x400 text → (∀ b ∈ text, DataSymbol b) →
    (2 ^ s.cfg.valueBits ≤ symbolValue text →
      exec (.decInt false) s = .next (s.raise .capacityExceeded)) ∧
    (symbolValue text < 2 ^ s.cfg.valueBits →
      ∃ m, exec (.decInt false) s = .next { s with
          mem := m, status := { s.status with busy := false, done := true } } ∧
        { s with mem := m }.value = symbolValue text ∧ Mem.SameOutside s.mem m 0x100 s.cfg.vb))

/-- 43_decoder.md R191: the lowest failing position of the data portion is reported, by DEC.INT and by DEC.STR, whatever
stands behind it. That unwritten bytes behind it do not stop the command is the model's reading of R195 (assumption
log 8, DEDUCED). -/
def Obligations.LowestInvalidPositionIsReported : Prop :=
  ∀ (s : State) (check : Bool) (before : List Byte) (b : Byte),
    s.symLen.toNat ≤ s.cfg.symCap → before.length + check.toNat < s.symLen.toNat →
    Mem.Holds s.mem 0x400 (before ++ [b]) → (∀ c ∈ before, DataSymbol c) → BadInData b →
    exec (.decInt check) s = .next (s.raise (.invalidCharacter before.length)) ∧
    ∀ (lenEn : Bool) (len : Nat), (lenEn = true → len ≤ s.cfg.vb) →
      exec (.decStr check lenEn len) s = .next (s.raise (.invalidCharacter before.length))

/-- 43_decoder.md R190 and R193: the check symbol. The last character as it stands is the check symbol and the rest the
data portion; a missing or non-value check symbol is INVALID_CHARACTER, a value that does not fit comes before the
comparison (R195), a wrong one is CHECKSUM_MISMATCH with both values, all of DEC.INT and of DEC.STR; and a right one
gives the integer (of DEC.STR: the next statement). -/
def Obligations.CheckSymbolIsSplitAndVerified : Prop :=
  ∀ (s : State) (i : Instr),
    (i = .decInt true ∨ ∃ lenEn len, i = .decStr true lenEn len ∧ (lenEn = true → len ≤ s.cfg.vb)) →
    (s.symLen = 0 → exec i s = .next (s.raise (.invalidCharacter 0))) ∧
    ∀ (data : List Byte) (c : Byte), data.length + 1 = s.symLen.toNat →
      s.symLen.toNat ≤ s.cfg.symCap → Mem.Holds s.mem 0x400 (data ++ [c]) → (∀ b ∈ data, DataSymbol b) →
      ((cls c = .skip ∨ cls c = .invalid) → exec i s = .next (s.raise (.invalidCharacter data.length))) ∧
      ∀ y : Fin 37, cls c = .value y →
        (2 ^ s.cfg.valueBits ≤ symbolValue data → exec i s = .next (s.raise .capacityExceeded)) ∧
        (symbolValue data < 2 ^ s.cfg.valueBits →
          (y.val ≠ symbolValue data % 37 →
            exec i s = .next (s.raise (.checksumMismatch y (checksum (symbolValue data))))) ∧
          (y.val = symbolValue data % 37 → i = .decInt true →
            ∃ m, exec i s = .next { s with
                mem := m, status := { s.status with busy := false, done := true } } ∧
              { s with mem := m }.value = symbolValue data ∧ Mem.SameOutside s.mem m 0x100 s.cfg.vb))

/-- 43_decoder.md R194, R195 and R197: DEC.STR. A LEN beyond VB and a SYM_LEN beyond SYM_CAP are refused before any
character is read; an integer that does not fit VALUE is CAPACITY_EXCEEDED, with CHECK or without and before the
comparison; a LEN below nbytes is LENGTH_TOO_SMALL; else VALUE and BYTE_BUF[0..m-1] hold the decoded integer. (An invalid
character, and what CHECK refuses, are in the two statements before.) -/
def Obligations.DecStrWritesValueAndBytes : Prop :=
  (∀ (s : State) (check lenEn : Bool) (len : Nat),
    s.cfg.symCap < s.symLen.toNat ∨ (lenEn = true ∧ s.cfg.vb < len) →
    exec (.decStr check lenEn len) s = .next (s.raise .capacityExceeded)) ∧
  (∀ (s : State) (check lenEn : Bool) (len : Nat) (data tail : List Byte),
    data.length + tail.length = s.symLen.toNat → s.symLen.toNat ≤ s.cfg.symCap →
    (lenEn = true → len ≤ s.cfg.vb) → Mem.Holds s.mem 0x400 (data ++ tail) → (∀ b ∈ data, DataSymbol b) →
    (if check then ∃ c y, tail = [c] ∧ cls c = .value y else tail = []) →
    2 ^ s.cfg.valueBits ≤ symbolValue data →
    exec (.decStr check lenEn len) s = .next (s.raise .capacityExceeded)) ∧
  (∀ (s : State) (check lenEn : Bool) (len : Nat) (data tail : List Byte),
    data.length + tail.length = s.symLen.toNat → s.symLen.toNat ≤ s.cfg.symCap →
    (lenEn = true → len ≤ s.cfg.vb) → Mem.Holds s.mem 0x400 (data ++ tail) → (∀ b ∈ data, DataSymbol b) →
    symbolValue data < 2 ^ s.cfg.valueBits →
    (if check then ∃ c, tail = [c] ∧ cls c = .value (checksum (symbolValue data)) else tail = []) →
    (lenEn = true → len < nbytes (symbolValue data) →
      exec (.decStr check lenEn len) s = .next (s.raise .lengthTooSmall)) ∧
    ∀ m : Nat, (if lenEn then m = len ∧ nbytes (symbolValue data) ≤ len else m = nbytes (symbolValue data)) →
      ∃ mem, exec (.decStr check lenEn len) s = .next { s with
          mem := mem, byteLen := BitVec.ofNat 16 m, status := { s.status with busy := false, done := true } } ∧
        (s.cfg.vb ≤ 256 → { s with mem := mem }.value = symbolValue data) ∧
        (∀ k < m, Mem.get mem (0x200 + k) = some (BitVec.ofNat 8 (symbolValue data >>> (8 * k)))) ∧
        ∀ a, (a < 0x100 ∨ 0x100 + s.cfg.vb ≤ a) → (a < 0x200 ∨ 0x200 + m ≤ a) →
          Mem.get mem a = Mem.get s.mem a)

/-- 42_encoder.md R169(2): DEC.INT with the same CHECK, of the text of any successful ENCODE, gives the value encoded: VALUE
for ENC.INT, the packed integer for ENC.BYTES. It does so in every state `r` that holds that text, whatever its VALUE and
its other bytes. -/
def Obligations.DecodingAnEncodedValueGivesItBack : Prop :=
  ∀ (s t r : State) (check lenEn : Bool) (step len : Nat), s.Inv → s.status.err = false → t.status.err = false →
    r.cfg = t.cfg → r.symLen = t.symLen → r.status.err = false →
    (∀ k < t.symLen.toNat, Mem.get r.mem (0x400 + k) = Mem.get t.mem (0x400 + k)) →
    (exec (.encInt check lenEn step len) s = .next t →
      ∃ u, exec (.decInt check) r = .next u ∧ u.status.err = false ∧ u.value = s.value) ∧
    (∀ bs : List Byte, bs.length = s.byteLen.toNat → Mem.Holds s.mem 0x200 bs →
      exec (.encBytes check lenEn step len) s = .next t →
      ∃ u, exec (.decInt check) r = .next u ∧ u.status.err = false ∧ u.value = bytesToInteger bs)

/-- 43_decoder.md R199(3): ENC.BYTES, then DEC.STR of its text with LEN = BYTE_LEN, gives the byte sequence back; without
LEN it does so when the last byte is not 0. It does so in every state `r` that holds the text, whatever its BYTE_BUF,
BYTE_LEN and other bytes. -/
def Obligations.DecodingEncodedBytesGivesThemBack : Prop :=
  ∀ (s t r : State) (bs : List Byte) (check lenEn : Bool) (step len : Nat), s.Inv → s.status.err = false →
    bs.length = s.byteLen.toNat → Mem.Holds s.mem 0x200 bs →
    exec (.encBytes check lenEn step len) s = .next t → t.status.err = false →
    r.cfg = t.cfg → r.symLen = t.symLen → r.status.err = false →
    (∀ k < t.symLen.toNat, Mem.get r.mem (0x400 + k) = Mem.get t.mem (0x400 + k)) →
    (∃ u, exec (.decStr check true bs.length) r = .next u ∧ u.status.err = false ∧
      u.byteLen.toNat = bs.length ∧ Mem.Holds u.mem 0x200 bs) ∧
    (bs.getLast? ≠ some 0 →
      ∃ u, exec (.decStr check false 0) r = .next u ∧ u.status.err = false ∧
        u.byteLen.toNat = bs.length ∧ Mem.Holds u.mem 0x200 bs)

/-- 43_decoder.md R199(4): changing one data character of a string that passes its check to another data symbol makes
the check fail: the changed string reports CHECKSUM_MISMATCH, or CAPACITY_EXCEEDED where its value no longer fits. -/
def Obligations.OneChangedCharacterIsDetected : Prop :=
  ∀ (s s' : State) (pre post : List Byte) (b b' c : Byte) (x x' : Fin 37),
    s'.cfg = s.cfg → s'.symLen = s.symLen → s.status.err = false → s'.status.err = false →
    (pre ++ [b] ++ post ++ [c]).length = s.symLen.toNat → s.symLen.toNat ≤ s.cfg.symCap →
    Mem.Holds s.mem 0x400 (pre ++ [b] ++ post ++ [c]) → Mem.Holds s'.mem 0x400 (pre ++ [b'] ++ post ++ [c]) →
    (∀ y ∈ pre ++ post, DataSymbol y) → cls b = .value x → cls b' = .value x' → x.val < 32 → x'.val < 32 → x ≠ x' →
    (∃ t, exec (.decInt true) s = .next t ∧ t.status.err = false) →
    ∃ t', exec (.decInt true) s' = .next t' ∧ t'.status.err = true ∧
      (t'.status.errCode = 0x04 ∨ t'.status.errCode = 0x07)

/-- 43_decoder.md R199(1) and (2): bytes with the same entry are interchangeable in every character, for DEC.INT and for
DEC.STR (the status, the report and, on success, every output are the same), and separators in the data portion do not
change the integer. -/
def Obligations.AliasesAndSeparatorsAreTransparent : Prop :=
  (∀ (s t : State) (m : Mem) (check : Bool), s.status.err = false →
    (∀ k < s.symLen.toNat, (Mem.get m (0x400 + k)).map cls = (Mem.get s.mem (0x400 + k)).map cls) →
    exec (.decInt check) s = .next t →
    ∃ u, exec (.decInt check) { s with mem := m } = .next u ∧ u.status = t.status ∧ u.errPos = t.errPos ∧
      u.chk = t.chk ∧ (t.status.err = false → u.value = t.value)) ∧
  (∀ (s t : State) (m : Mem) (check lenEn : Bool) (len : Nat), s.status.err = false →
    (∀ k < s.symLen.toNat, (Mem.get m (0x400 + k)).map cls = (Mem.get s.mem (0x400 + k)).map cls) →
    exec (.decStr check lenEn len) s = .next t →
    ∃ u, exec (.decStr check lenEn len) { s with mem := m } = .next u ∧ u.status = t.status ∧ u.errPos = t.errPos ∧
      u.chk = t.chk ∧ (t.status.err = false → u.value = t.value ∧ u.byteLen = t.byteLen ∧
        ∀ k < t.byteLen.toNat, Mem.get u.mem (0x200 + k) = Mem.get t.mem (0x200 + k))) ∧
  (∀ pre post : List Byte, symbolValue (pre ++ [0x2D] ++ post) = symbolValue (pre ++ post))

/-! ## The bus (20_memory.md, 44_control.md) -/

/-- 20_memory.md R61 and R62 with the map of R60: an access in the window of another width, or at an offset that is no
multiple of 4, and an aligned word access to an unmapped offset, get a bus error and change no state; an access outside
the window does not reach the block. The answers are the model's (assumption log 6), and that an access beginning below
BASE and running into the window counts as outside is its choice (assumption log 19). -/
def Obligations.UnservedAccessesChangeNoState : Prop :=
  ∀ (s : State) (data : BitVec 64),
    (∀ off width, off < 0x800 → (width ≠ .w32 ∨ off % 4 ≠ 0 ∨ (0x020 ≤ off ∧ ¬ inArrays s.cfg off)) →
      s.serve (.read (s.cfg.base + off) width) = .next { s with resp := some .busError } ∧
      s.serve (.write (s.cfg.base + off) width data) = .next { s with resp := some .busError }) ∧
    (s.cfg.Legal → ∀ off, 0x020 ≤ off → off < 0x800 → (¬ inArrays s.cfg off ↔
      (0x020 ≤ off ∧ off < 0x100) ∨ (0x100 + s.cfg.vb ≤ off ∧ off < 0x200) ∨
      (0x200 + s.cfg.vb ≤ off ∧ off < 0x400) ∨ (0x400 + s.cfg.symCap ≤ off ∧ off < 0x800))) ∧
    (∀ addr width, addr < s.cfg.base ∨ s.cfg.base + 0x800 ≤ addr →
      s.serve (.read addr width) = .next { s with resp := some .notReached } ∧
      s.serve (.write addr width data) = .next { s with resp := some .notReached })

/-- 20_memory.md R63: an idle write of a word to an array writes its four bytes, least significant first, and no other;
a read returns them; and the word at 0x100 + 4j of VALUE is val(VALUE)[32j+31:32j]. -/
def Obligations.ArrayWordsAreLittleEndian : Prop :=
  ∀ (s : State) (off : Nat) (w : Word), s.cfg.Legal → s.status.busy = false → off % 4 = 0 → inArrays s.cfg off →
    ∃ m, s.serve (.write (s.cfg.base + off) .w32 (w.zeroExtend 64)) = .next { s with mem := m, resp := some .ok } ∧
      (∀ k < 4, Mem.get m (off + k) = some (BitVec.ofNat 8 (w.toNat / 2 ^ (8 * k)))) ∧
      Mem.SameOutside s.mem m off 4 ∧
      { s with mem := m, resp := some .ok }.serve (.read (s.cfg.base + off) .w32) =
        .next { s with mem := m, resp := some (.data w) } ∧
      (∀ j, off = 0x100 + 4 * j → 4 * j < s.cfg.vb →
        { s with mem := m }.value / 2 ^ (32 * j) % 2 ^ 32 = w.toNat)

/-- 44_control.md R224: while BUSY = 1 a write to CMD, SYM_LEN, BYTE_LEN or an array only sets WERR; a write to STATUS
is served; a write to a read-only register is ignored without WERR. -/
def Obligations.WritesWhileBusyAreDropped : Prop :=
  ∀ (s : State) (off : Nat) (w : Word), s.status.busy = true →
    let reply := s.serve (.write (s.cfg.base + off) .w32 (w.zeroExtend 64))
    (off = 0x000 ∨ off = 0x014 ∨ off = 0x018 ∨ (off % 4 = 0 ∧ off < 0x800 ∧ inArrays s.cfg off) →
      reply = .next { s with status := { s.status with werr := true }, resp := some .ok }) ∧
    (off = 0x004 →
      reply = .next { s with
        status := { s.status with werr := s.status.werr && !w.getLsbD 3 }, resp := some .ok }) ∧
    (off = 0x008 ∨ off = 0x00C ∨ off = 0x010 ∨ off = 0x01C → reply = .next { s with resp := some .ok })

/-- 44_control.md R225: while BUSY = 1 CMD, STATUS and CFG read as defined; every other mapped read returns the next
free word, whatever it is, and changes nothing but the count of draws. The count is the model's own, and that a buffer
byte nothing has written is read so too, and is no fault, is its reading of 93 U2 over U1 (assumption log 7). -/
def Obligations.ReadsWhileBusyAreUnspecified : Prop :=
  ∀ (s : State) (off : Nat), s.status.busy = true →
    let reply := s.serve (.read (s.cfg.base + off) .w32)
    (off = 0x000 → reply = .next { s with resp := some (.data s.cmd) }) ∧
    (off = 0x004 → reply = .next { s with resp := some (.data s.status.word) }) ∧
    (off = 0x01C → reply = .next { s with resp := some (.data (BitVec.ofNat 16 s.cfg.vb ++ BitVec.ofNat 16 s.cfg.symCap)) }) ∧
    (off = 0x008 ∨ off = 0x00C ∨ off = 0x010 ∨ off = 0x014 ∨ off = 0x018 ∨
        (off % 4 = 0 ∧ off < 0x800 ∧ inArrays s.cfg off) →
      reply = .next { s with draws := s.draws + 1, resp := some (.data (Config.freeWord s.draws)) })

/-- Idle reads (10_state.md R22 to R29; 20_memory.md R63, R64): each register's word, and the word of any four written
bytes of an array, whoever wrote them, with no side effect; an array word stops at its first byte that nothing has
written (93 U1, assumption log 1); and idle writes to the read-only registers are ignored. -/
def Obligations.IdleRegisterReadsHaveNoSideEffect : Prop :=
  ∀ (s : State) (w : Word), s.status.busy = false →
    let reads (off : Nat) (v : Word) : Prop :=
      s.serve (.read (s.cfg.base + off) .w32) = .next { s with resp := some (.data v) }
    reads 0x000 s.cmd ∧ reads 0x004 s.status.word ∧ reads 0x008 (BitVec.ofNat 32 s.errPos.toNat) ∧
    reads 0x00C (BitVec.ofNat 32 (s.chk.expected.toNat <<< 8 ||| s.chk.actual.toNat)) ∧ reads 0x010 s.result ∧
    reads 0x014 (BitVec.ofNat 32 s.symLen.toNat) ∧ reads 0x018 (BitVec.ofNat 32 s.byteLen.toNat) ∧
    (∀ off, off % 4 = 0 → off < 0x800 → inArrays s.cfg off →
      (∀ bs : List Byte, bs.length = 4 → Mem.Holds s.mem off bs → reads off (BitVec.ofNat 32 (bytesToInteger bs))) ∧
      (∀ k < 4, Mem.Written s.mem off k → Mem.get s.mem (off + k) = none →
        s.serve (.read (s.cfg.base + off) .w32) = .fault (.uninitRead (off + k)))) ∧
    (∀ off, off = 0x008 ∨ off = 0x00C ∨ off = 0x010 ∨ off = 0x01C →
      s.serve (.write (s.cfg.base + off) .w32 (w.zeroExtend 64)) = .next { s with resp := some .ok })

/-- 10_state.md R23: the places of STATUS's fields, its reserved bits, and its write: bit 3 clears WERR and nothing else
changes, BUSY or not. -/
def Obligations.StatusLayoutAndWriteOneToClear : Prop :=
  (∀ st : Status, st.word = BitVec.ofNat 32
    (st.busy.toNat + 2 * st.done.toNat + 4 * st.err.toNat + 8 * st.werr.toNat + 256 * st.errCode.toNat)) ∧
  (∀ (s : State) (w : Word),
    s.serve (.write (s.cfg.base + 0x004) .w32 (w.zeroExtend 64)) = .next { s with
      status := { s.status with werr := s.status.werr && !w.getLsbD 3 }, resp := some .ok })

/-- 10_state.md R27 and R28: the length registers take the low 16 bits of any word, and a value beyond the capacity is
refused by the commands that read it, in every state. -/
def Obligations.LengthRegistersKeepSixteenBits : Prop :=
  ∀ (s : State) (w : Word),
    (s.status.busy = false →
      s.serve (.write (s.cfg.base + 0x014) .w32 (w.zeroExtend 64)) =
        .next { s with symLen := BitVec.ofNat 16 w.toNat, resp := some .ok } ∧
      s.serve (.write (s.cfg.base + 0x018) .w32 (w.zeroExtend 64)) =
        .next { s with byteLen := BitVec.ofNat 16 w.toNat, resp := some .ok } ∧
      s.serve (.read (s.cfg.base + 0x014) .w32) =
        .next { s with resp := some (.data (BitVec.ofNat 32 s.symLen.toNat)) } ∧
      s.serve (.read (s.cfg.base + 0x018) .w32) =
        .next { s with resp := some (.data (BitVec.ofNat 32 s.byteLen.toNat)) }) ∧
    (s.cfg.symCap < s.symLen.toNat → ∀ check lenEn len,
      exec (.decInt check) s = .next (s.raise .capacityExceeded) ∧
      exec (.decStr check lenEn len) s = .next (s.raise .capacityExceeded)) ∧
    (s.cfg.vb < s.byteLen.toNat → ∀ check lenEn step len,
      exec .pack s = .next (s.raise .capacityExceeded) ∧
      exec (.encBytes check lenEn step len) s = .next (s.raise .capacityExceeded)) ∧
    State.reset.symLen = 0 ∧ State.reset.byteLen = 0

/-- 10_state.md R29: CFG reads SYM_CAP and VB, busy or not, ignores writes, is 0x00200100 in the reference configuration,
and no step changes it. -/
def Obligations.CfgIsConstant : Prop :=
  (∀ (s : State) (w : Word),
    s.serve (.read (s.cfg.base + 0x01C) .w32) =
      .next { s with resp := some (.data (BitVec.ofNat 16 s.cfg.vb ++ BitVec.ofNat 16 s.cfg.symCap)) } ∧
    s.serve (.write (s.cfg.base + 0x01C) .w32 (w.zeroExtend 64)) = .next { s with resp := some .ok }) ∧
  BitVec.ofNat 16 State.reset.cfg.vb ++ BitVec.ofNat 16 State.reset.cfg.symCap = 0x00200100#32 ∧
  (∀ s t : State, step s = .next t → t.cfg = s.cfg)

/-- Two whole-machine rules. 44_control.md R224: no move of the host changes a command in flight, its inputs or its
outputs, and STATUS only in WERR. 60_exceptions.md R235: while the block is idle, a step that is no reset leaves the
error report (ERR, ERR_CODE, ERR_POS, CHK), DONE and RESULT as they were unless it accepts a command, and an accept clears
the report; and whatever the step, WERR is cleared only by a host write of 1 to bit 3 of STATUS or by reset. -/
def Obligations.HostMovesFreezeTheCommandInFlight : Prop :=
  (∀ s t : State, s.status.busy = true → s.hostMove = .next t →
    t.cmd = s.cmd ∧ t.mem = s.mem ∧ t.symLen = s.symLen ∧ t.byteLen = s.byteLen ∧ t.result = s.result ∧
    t.errPos = s.errPos ∧ t.chk = s.chk ∧ t.cfg = s.cfg ∧
    t.status = { s.status with werr := t.status.werr }) ∧
  (∀ s t : State, s.status.busy = false → s.turn ≠ .reset → step s = .next t →
    t.result = s.result ∧
    (t.status.busy = false →
      t.status = { s.status with werr := t.status.werr } ∧ t.errPos = s.errPos ∧ t.chk = s.chk) ∧
    (t.status.busy = true →
      t.status = { busy := true, done := false, err := false, werr := s.status.werr, errCode := 0 } ∧
      t.errPos = 0 ∧ t.chk = { actual := 0, expected := 0 })) ∧
  (∀ s t : State, step s = .next t → s.status.werr = true → t.status.werr = false →
    s.turn = .reset ∨
    (s.turn = .host ∧ ∃ data rest, s.host = .access (.write (s.cfg.base + 0x004) .w32 data) :: rest ∧
      data.getLsbD 3 = true))

/-- 30_encoding.md R99, POLL: one round reads STATUS, and the loop is over exactly when DONE was 1. -/
def Obligations.PollReadsStatusUntilDone : Prop :=
  ∀ (s : State) (rest : List HostOp), s.host = .poll :: rest →
    s.hostMove = .next { s with
      host := if s.status.done then rest else .poll :: rest, resp := some (.data s.status.word) }

/-- 30_encoding.md R99, the pseudo-instructions, run by an idle block whose schedule is used up (assumption log 5):
CLRSTAT leaves the word of NOP in CMD, STATUS = 0x00000002 and a clear report, and changes no other register and no
array; WRVAL, WRBYTES and WRSTR place their operand, zeros up to a whole word, and its length, and change no other
register and no byte outside the words they write. (The byte of a character outside US-ASCII is the model's choice:
assumption log 18.) -/
def Obligations.HostScriptsPlaceOperandsAndClearTheReport : Prop :=
  ∀ (s : State) (rest : List HostOp), s.cfg.Legal → s.status.busy = false → s.sched = [] →
    (∃ t, Host.Core.run core 4 { s with host := Script.clrStat s.cfg ++ rest } = .next t ∧
      t = { s with cmd := 0x00000000, status := t.status, errPos := 0, chk := t.chk, host := rest, resp := some .ok } ∧
      t.status.word = 0x00000002 ∧ t.chk.word = 0) ∧
    (∀ n < 2 ^ s.cfg.valueBits,
      ∃ t, Host.Core.run core (s.cfg.vb / 4) { s with host := Script.wrVal s.cfg n ++ rest } = .next t ∧
        t = { s with mem := t.mem, host := rest, resp := some .ok } ∧ t.value = n ∧
        Mem.SameOutside s.mem t.mem 0x100 s.cfg.vb) ∧
    (∀ bs : List Byte, bs.length ≤ s.cfg.vb →
      ∃ t, Host.Core.run core ((bs.length + 3) / 4 + 1) { s with host := Script.wrBytes s.cfg bs ++ rest } = .next t ∧
        t = { s with mem := t.mem, byteLen := t.byteLen, host := rest, resp := some .ok } ∧
        t.byteLen.toNat = bs.length ∧ Mem.Holds t.mem 0x200 bs ∧
        (∀ k, bs.length ≤ k → k < 4 * ((bs.length + 3) / 4) → Mem.get t.mem (0x200 + k) = some 0) ∧
        Mem.SameOutside s.mem t.mem 0x200 (4 * ((bs.length + 3) / 4))) ∧
    (∀ text : List Char, text.length ≤ s.cfg.symCap →
      ∃ t, Host.Core.run core ((text.length + 3) / 4 + 1) { s with host := Script.wrStr s.cfg text ++ rest } =
          .next t ∧
        t = { s with mem := t.mem, symLen := t.symLen, host := rest, resp := some .ok } ∧
        t.symLen.toNat = text.length ∧ Mem.Holds t.mem 0x400 (text.map Script.ascii) ∧
        (∀ k, text.length ≤ k → k < 4 * ((text.length + 3) / 4) → Mem.get t.mem (0x400 + k) = some 0) ∧
        Mem.SameOutside s.mem t.mem 0x400 (4 * ((text.length + 3) / 4)))

/-! ## Reset, invariants and the whole machine -/

/-- 70_reset_and_hazards.md R260: what reset leaves, also with a command in flight. VALUE reads 0 in every byte; no byte
of BYTE_BUF or SYM_BUF has a value. (That host, sched and draws go on and that resp is cleared is the model's own,
assumption log 9.) -/
def Obligations.ResetGivesTheResetValues : Prop :=
  (∀ (s : State) (rest : List Turn), s.cfg.Legal → s.sched = .reset :: rest →
    ∃ t, step s = .next t ∧ t.cfg = s.cfg ∧ t.cmd = 0 ∧ t.status.word = 0 ∧ t.errPos = 0 ∧
      t.chk.word = 0 ∧ t.result = 0 ∧ t.symLen = 0 ∧ t.byteLen = 0 ∧ t.value = 0 ∧
      (∀ a, 0x100 ≤ a → a < 0x100 + s.cfg.vb → Mem.get t.mem a = some 0) ∧
      (∀ a, 0x200 ≤ a → Mem.get t.mem a = none)) ∧
  State.reset.cmd = 0 ∧ State.reset.status.word = 0 ∧ State.reset.errPos = 0 ∧ State.reset.chk.word = 0 ∧
  State.reset.result = 0 ∧ State.reset.symLen = 0 ∧ State.reset.byteLen = 0 ∧ State.reset.mem = []

/-- The invariant holds right after reset, for every legal configuration. -/
def Obligations.ResetStateMeetsTheInvariant : Prop :=
  State.reset.Inv ∧ ∀ c : Config, c.Legal → (State.resetWith c).Inv

/-- Every step keeps the invariant: memory in its canonical form and inside the arrays, STATUS legal (10_state.md R23:
BUSY and DONE never both 1, ERR with DONE and a code), only codes 0 to 8 (93 U7), ERR_POS and CHK only after their
errors (R24, R25). -/
def Obligations.EveryStepKeepsTheInvariant : Prop :=
  ∀ s t : State, s.Inv → step s = .next t → t.Inv

/-- 70_reset_and_hazards.md R261: a command whose buffer bytes have been written completes, whatever its operands and
the state. -/
def Obligations.CommandsWithWrittenOperandsComplete : Prop :=
  ∀ (i : Instr) (s : State), operandsReady i s → ∃ t, exec i s = .next t ∧ t.status.done = true

/-- 93_implementation_defined.md U1, both directions: no command is refused, a command stops only on a byte of its buffer
that nothing has written, and it does stop on the first such byte it reaches: PACK and ENC.BYTES of a BYTE_LEN within VB,
DEC.INT and DEC.STR when every character before it is a data symbol or a separator (a raise before it ends the command
first: assumption log 8). -/
def Obligations.OnlyUnwrittenBytesStopACommand : Prop :=
  (∀ (i : Instr) (s : State) (k : Nat),
    (i = .pack ∨ ∃ check lenEn step len, i = .encBytes check lenEn step len) → s.byteLen.toNat ≤ s.cfg.vb →
    k < s.byteLen.toNat → Mem.Written s.mem 0x200 k → Mem.get s.mem (0x200 + k) = none →
    exec i s = .fault (.uninitRead (0x200 + k))) ∧
  (∀ (i : Instr) (s : State) (check : Bool) (before : List Byte),
    (i = .decInt check ∨ ∃ lenEn len, i = .decStr check lenEn len ∧ (lenEn = true → len ≤ s.cfg.vb)) →
    s.symLen.toNat ≤ s.cfg.symCap → before.length < s.symLen.toNat → Mem.Holds s.mem 0x400 before →
    (∀ b ∈ before, DataSymbol b) → Mem.get s.mem (0x400 + before.length) = none →
    exec i s = .fault (.uninitRead (0x400 + before.length))) ∧
  ∀ (i : Instr) (s : State),
    (∀ r, exec i s ≠ .refused r) ∧
    ∀ f, exec i s = .fault f →
      ∃ a, f = .uninitRead a ∧ Mem.get s.mem a = none ∧
        match i with
        | .pack | .encBytes .. => 0x200 ≤ a ∧ a < 0x200 + s.byteLen.toNat
        | .decInt _ | .decStr .. => 0x400 ≤ a ∧ a < 0x400 + s.symLen.toNat
        | .nop | .encInt .. | .encBadsel | .decBadsel | .unpack .. | .symfor _ | .valfor _ | .chksum
        | .reserved => False

/-- Memories in the canonical form that read alike at every offset are equal lists. -/
def Obligations.EqualMemoriesAreEqualLists : Prop :=
  ∀ m m' : Mem, m.wf → m'.wf → (∀ a, Mem.get m a = Mem.get m' a) → m = m'

/-- 44_control.md R221, fairness: from every legal state with a command in flight whose operands are written, and for
every schedule without a reset, the command completes within one step more than the schedule is long, however the
host's moves fall. -/
def Obligations.EveryAcceptedCommandCompletes : Prop :=
  ∀ s : State, s.cfg.Legal → s.status.busy = true → operandsReady (decode s.cmd) s → Turn.reset ∉ s.sched →
    ∃ k t, k ≤ s.sched.length + 1 ∧ Host.Core.run core k s = .next t ∧
      t.status.busy = false ∧ t.status.done = true ∧ t.cmd = s.cmd
end

