-- ==== Sys2Proof/Laws/Mem.lean ====
section
/-! SUPPORT. What the memory operations of Machine/Ops.lean do: reads after writes, the canonical form, and the
ranges. -/

namespace Sys2Proof.Machine.Mem

open Sys2Proof Sys2Proof.Machine

/-! ## One byte -/

theorem get_erase (m : Mem) (a x : Nat) : get (erase m a) x = if x = a then unlisted a else get m x := by
  induction m with
  | nil => by_cases h : x = a <;> simp [erase, get, h]
  | cons c rest ih =>
    obtain ⟨a', b⟩ := c
    by_cases h : a' = a
    · subst h
      by_cases hx : x = a'
      · subst hx; simpa [erase] using ih
      · simp [erase, get, ih, hx, Ne.symm hx]
    · by_cases hx : x = a
      · subst hx; simp [erase, get, h, ih]
      · simp [erase, get, h, ih, hx]

theorem get_insert (m : Mem) (a x : Nat) (b : Byte) : get (insert m a b) x = if x = a then some b else get m x := by
  induction m with
  | nil =>
    by_cases h : x = a
    · simp [insert, get, h]
    · simp [insert, get, h, Ne.symm h]
  | cons c rest ih =>
    obtain ⟨a', b'⟩ := c
    unfold insert
    split
    · by_cases h : x = a
      · simp [get, h]
      · simp [get, h, Ne.symm h]
    · split
      · rename_i h
        subst h
        by_cases hx : x = a'
        · simp [get, hx]
        · simp [get, hx, Ne.symm hx]
      · rename_i h
        by_cases hx : x = a
        · subst hx; simp [get, h, ih]
        · simp [get, ih, hx]

/-- Reading after writing: the byte written there, every other byte as before. -/
theorem get_set (m : Mem) (a x : Nat) (b : Byte) : get (set m a b) x = if x = a then some b else get m x := by
  unfold set
  split
  · rw [get_erase]; split <;> simp_all
  · exact get_insert m a x b

@[simp] theorem get_set_self (m : Mem) (a : Nat) (b : Byte) : get (set m a b) a = some b := by simp [get_set]

theorem get_set_ne (m : Mem) {a x : Nat} (b : Byte) (h : x ≠ a) : get (set m a b) x = get m x := by
  simp [get_set, h]

/-! ## Ranges -/

/-- Bytes outside the written range read as before. -/
theorem get_setBytes_outside (bs : List Byte) (m : Mem) (a x : Nat) (h : x < a ∨ a + bs.length ≤ x) :
    get (setBytes m a bs) x = get m x := by
  induction bs generalizing m a with
  | nil => rfl
  | cons b bs ih =>
    simp only [List.length_cons] at h
    rw [setBytes, ih _ _ (by omega), get_set_ne _ _ (by omega)]

/-- Bytes inside the written range read as written. -/
theorem get_setBytes_inside (bs : List Byte) (m : Mem) (a k : Nat) (h : k < bs.length) :
    get (setBytes m a bs) (a + k) = bs[k]? := by
  induction bs generalizing m a k with
  | nil => simp at h
  | cons b bs ih =>
    rw [setBytes]
    cases k with
    | zero => rw [get_setBytes_outside _ _ _ _ (by omega)]; simp
    | succ k =>
      simp only [List.length_cons] at h
      rw [show a + (k + 1) = a + 1 + k by omega, ih _ _ _ (by omega)]
      simp

/-- A range read succeeds exactly when every byte has a value, and then gives those values. -/
theorem readBytes_ok_iff (m : Mem) (n : Nat) (a : Nat) (bs : List Byte) :
    readBytes m a n = .ok bs ↔ bs.length = n ∧ ∀ k < n, get m (a + k) = bs[k]? := by
  induction n generalizing a bs with
  | zero => cases bs <;> simp [readBytes]
  | succ n ih =>
    constructor
    · intro h
      cases hg : get m a with
      | none => simp [readBytes, hg] at h
      | some b =>
        cases hr : readBytes m (a + 1) n with
        | error f => simp [readBytes, hg, hr] at h
        | ok rest =>
          simp only [readBytes, hg, hr, Except.ok.injEq] at h
          subst h
          obtain ⟨hl, hk⟩ := (ih (a + 1) rest).1 hr
          refine ⟨by simp [hl], fun k hkn => ?_⟩
          cases k with
          | zero => simp [hg]
          | succ k =>
            have := hk k (by omega)
            rw [show a + (k + 1) = a + 1 + k by omega, this]; simp
    · rintro ⟨hl, hk⟩
      cases bs with
      | nil => simp at hl
      | cons b rest =>
        have h0 := hk 0 (by omega)
        simp only [Nat.add_zero, List.getElem?_cons_zero] at h0
        have hr : readBytes m (a + 1) n = .ok rest := by
          refine (ih (a + 1) rest).2 ⟨by simpa using hl, fun k hkn => ?_⟩
          have := hk (k + 1) (by omega)
          rw [show a + 1 + k = a + (k + 1) by omega, this]; simp
        simp [readBytes, h0, hr]

/-- A range read stops at a byte that has no value and lies in the range. -/
theorem readBytes_error (m : Mem) (n a : Nat) (f : Fault) (h : readBytes m a n = .error f) :
    ∃ k < n, f = .uninitRead (a + k) ∧ get m (a + k) = none := by
  induction n generalizing a with
  | zero => simp [readBytes] at h
  | succ n ih =>
    cases hg : get m a with
    | none =>
      simp only [readBytes, hg, Except.error.injEq] at h
      exact ⟨0, by omega, by simp [← h], by simpa using hg⟩
    | some b =>
      cases hr : readBytes m (a + 1) n with
      | ok rest => simp [readBytes, hg, hr] at h
      | error f' =>
        simp only [readBytes, hg, hr, Except.error.injEq] at h
        subst h
        obtain ⟨k, hk, hf, hn⟩ := ih (a + 1) hr
        exact ⟨k + 1, by omega, by rw [hf]; congr 1; omega, by rw [show a + (k + 1) = a + 1 + k by omega]; exact hn⟩

/-- A range read stops at the first byte of the range that has no value. -/
theorem readBytes_unwritten (m : Mem) (n a k : Nat) (hk : k < n) (hw : Mem.Written m a k) (hg : get m (a + k) = none) :
    readBytes m a n = .error (.uninitRead (a + k)) := by
  induction k generalizing n a with
  | zero =>
    obtain ⟨n, rfl⟩ : ∃ n', n = n' + 1 := ⟨n - 1, by omega⟩
    simp only [Nat.add_zero] at hg
    simp [readBytes, hg]
  | succ k ih =>
    obtain ⟨n, rfl⟩ : ∃ n', n = n' + 1 := ⟨n - 1, by omega⟩
    obtain ⟨b, hb⟩ := Option.ne_none_iff_exists'.1 (hw 0 (by omega))
    have hrest := ih n (a + 1) (by omega)
      (fun j hj => by rw [show a + 1 + j = a + (j + 1) by omega]; exact hw (j + 1) (by omega))
      (by rwa [show a + 1 + k = a + (k + 1) by omega])
    rw [Nat.add_zero] at hb
    simp only [readBytes, hb, hrest]
    rw [show a + 1 + k = a + (k + 1) by omega]

/-- A range whose bytes all have values can be read. -/
theorem readBytes_of_written (m : Mem) (a n : Nat) (h : Mem.Written m a n) :
    ∃ bs, readBytes m a n = .ok bs := by
  cases hr : readBytes m a n with
  | ok bs => exact ⟨bs, rfl⟩
  | error f =>
    obtain ⟨k, hk, -, hn⟩ := readBytes_error m n a f hr
    exact absurd hn (h k hk)

/-! ## The canonical form -/

theorem mem_erase {m : Mem} {a : Nat} {c : Host.Cell} (h : c ∈ erase m a) : c ∈ m := by
  induction m with
  | nil => simp [erase] at h
  | cons d rest ih =>
    obtain ⟨a', b⟩ := d
    unfold erase at h
    split at h
    · exact List.mem_cons_of_mem _ (ih h)
    · rcases List.mem_cons.1 h with h | h
      · exact h ▸ List.mem_cons_self
      · exact List.mem_cons_of_mem _ (ih h)

theorem mem_insert {m : Mem} {a : Nat} {b : Byte} {c : Host.Cell} (h : c ∈ insert m a b) : c = (a, b) ∨ c ∈ m := by
  induction m with
  | nil => simpa [insert] using h
  | cons d rest ih =>
    obtain ⟨a', b'⟩ := d
    unfold insert at h
    split at h
    · simpa using h
    · split at h
      · rcases List.mem_cons.1 h with h | h
        · exact .inl h
        · exact .inr (List.mem_cons_of_mem _ h)
      · rcases List.mem_cons.1 h with h | h
        · exact .inr (h ▸ List.mem_cons_self)
        · exact (ih h).imp_right (List.mem_cons_of_mem _)

/-- The list rises exactly when its tail rises and every later offset is above the first. -/
theorem rising_cons (a : Nat) (b : Byte) (m : Mem) :
    rising ((a, b) :: m) = true ↔ (∀ c ∈ m, a < c.1) ∧ rising m = true := by
  induction m generalizing a b with
  | nil => simp [rising]
  | cons d rest ih =>
    obtain ⟨a', b'⟩ := d
    simp only [rising, Bool.and_eq_true, decide_eq_true_eq, List.mem_cons, forall_eq_or_imp]
    constructor
    · rintro ⟨h, hr⟩
      exact ⟨⟨h, fun c hc => Nat.lt_trans h (((ih a' b').1 hr).1 c hc)⟩, hr⟩
    · rintro ⟨⟨h, -⟩, hr⟩
      exact ⟨h, hr⟩

theorem rising_erase (m : Mem) (a : Nat) (h : rising m = true) : rising (erase m a) = true := by
  induction m with
  | nil => rfl
  | cons d rest ih =>
    obtain ⟨a', b⟩ := d
    obtain ⟨hlt, hr⟩ := (rising_cons a' b rest).1 h
    unfold erase
    split
    · exact ih hr
    · exact (rising_cons a' b _).2 ⟨fun c hc => hlt c (mem_erase hc), ih hr⟩

theorem rising_insert (m : Mem) (a : Nat) (b : Byte) (h : rising m = true) : rising (insert m a b) = true := by
  induction m with
  | nil => rfl
  | cons d rest ih =>
    obtain ⟨a', b'⟩ := d
    obtain ⟨hlt, hr⟩ := (rising_cons a' b' rest).1 h
    unfold insert
    split
    · rename_i hlt'
      refine (rising_cons a b _).2 ⟨fun c hc => ?_, h⟩
      rcases List.mem_cons.1 hc with hc | hc
      · exact hc ▸ hlt'
      · exact Nat.lt_trans hlt' (hlt c hc)
    · split
      · rename_i heq
        exact (rising_cons a b _).2 ⟨fun c hc => heq ▸ hlt c hc, hr⟩
      · refine (rising_cons a' b' _).2 ⟨fun c hc => ?_, ih hr⟩
        rcases mem_insert hc with hc | hc
        · subst hc; simp only; omega
        · exact hlt c hc

theorem wf_nil : wf [] := ⟨rfl, by simp⟩

/-- A write keeps the canonical form. -/
theorem wf_set (m : Mem) (a : Nat) (b : Byte) (h : wf m) : wf (set m a b) := by
  unfold set
  split
  · exact ⟨rising_erase m a h.1, fun c hc => h.2 c (mem_erase hc)⟩
  · rename_i hne
    refine ⟨rising_insert m a b h.1, fun c hc => ?_⟩
    rcases mem_insert hc with hc | hc
    · subst hc; exact hne
    · exact h.2 c hc

/-- A range write keeps the canonical form. -/
theorem wf_setBytes (bs : List Byte) (m : Mem) (a : Nat) (h : wf m) : wf (setBytes m a bs) := by
  induction bs generalizing m a with
  | nil => exact h
  | cons b bs ih => exact ih _ _ (wf_set m a b h)

/-! ## Staying inside the arrays -/

theorem mem_set {m : Mem} {a : Nat} {b : Byte} {c : Host.Cell} (h : c ∈ set m a b) : c = (a, b) ∨ c ∈ m := by
  unfold set at h
  split at h
  · exact .inr (mem_erase h)
  · exact mem_insert h

theorem mem_setBytes {bs : List Byte} {m : Mem} {a : Nat} {c : Host.Cell} (h : c ∈ setBytes m a bs) :
    (a ≤ c.1 ∧ c.1 < a + bs.length) ∨ c ∈ m := by
  induction bs generalizing m a with
  | nil => exact .inr h
  | cons b bs ih =>
    rcases ih h with h | h
    · left; simp only [List.length_cons]; omega
    · rcases mem_set h with h | h
      · left; subst h; simp
      · exact .inr h

/-- A range write into an array stays inside the arrays. -/
theorem inside_setBytes {c : Config} {m : Mem} {a : Nat} {bs : List Byte} (h : Mem.Inside c m)
    (ha : ∀ k < bs.length, inArrays c (a + k)) : Mem.Inside c (setBytes m a bs) := by
  intro cell hc
  rcases mem_setBytes hc with hc | hc
  · have := ha (cell.1 - a) (by omega)
    rwa [show a + (cell.1 - a) = cell.1 by omega] at this
  · exact h cell hc

/-! ## VALUE always has a value -/

theorem get_value_isSome (m : Mem) (a : Nat) (h : valueBase ≤ a ∧ a < byteBufBase) : (get m a).isSome = true := by
  induction m with
  | nil => simp [get, unlisted, h]
  | cons c rest ih =>
    obtain ⟨a', b⟩ := c
    unfold get
    split
    · rfl
    · exact ih

end Sys2Proof.Machine.Mem
end

