-- ==== Sys2Proof/Laws/State.lean ====
section
/-! SUPPORT. One lemma per field per update of State, so that no proof unfolds a record update. -/

namespace Sys2Proof.Machine

open Sys2Proof

variable (s : State)

/-! ## accept -/

@[simp] theorem State.accept_cfg (w : Word) : (s.accept w).cfg = s.cfg := rfl
@[simp] theorem State.accept_cmd (w : Word) : (s.accept w).cmd = w := rfl
@[simp] theorem State.accept_status (w : Word) : (s.accept w).status = s.status.accepted := rfl
@[simp] theorem State.accept_errPos (w : Word) : (s.accept w).errPos = 0 := rfl
@[simp] theorem State.accept_chk (w : Word) : (s.accept w).chk = { actual := 0, expected := 0 } := rfl
@[simp] theorem State.accept_result (w : Word) : (s.accept w).result = s.result := rfl
@[simp] theorem State.accept_symLen (w : Word) : (s.accept w).symLen = s.symLen := rfl
@[simp] theorem State.accept_byteLen (w : Word) : (s.accept w).byteLen = s.byteLen := rfl
@[simp] theorem State.accept_mem (w : Word) : (s.accept w).mem = s.mem := rfl
@[simp] theorem State.accept_host (w : Word) : (s.accept w).host = s.host := rfl
@[simp] theorem State.accept_sched (w : Word) : (s.accept w).sched = s.sched := rfl
@[simp] theorem State.accept_resp (w : Word) : (s.accept w).resp = s.resp := rfl
@[simp] theorem State.accept_draws (w : Word) : (s.accept w).draws = s.draws := rfl

/-! ## complete -/

@[simp] theorem State.complete_cfg : (s.complete).cfg = s.cfg := rfl
@[simp] theorem State.complete_cmd : (s.complete).cmd = s.cmd := rfl
@[simp] theorem State.complete_status : (s.complete).status = s.status.completed := rfl
@[simp] theorem State.complete_errPos : (s.complete).errPos = s.errPos := rfl
@[simp] theorem State.complete_chk : (s.complete).chk = s.chk := rfl
@[simp] theorem State.complete_result : (s.complete).result = s.result := rfl
@[simp] theorem State.complete_symLen : (s.complete).symLen = s.symLen := rfl
@[simp] theorem State.complete_byteLen : (s.complete).byteLen = s.byteLen := rfl
@[simp] theorem State.complete_mem : (s.complete).mem = s.mem := rfl
@[simp] theorem State.complete_host : (s.complete).host = s.host := rfl
@[simp] theorem State.complete_sched : (s.complete).sched = s.sched := rfl
@[simp] theorem State.complete_resp : (s.complete).resp = s.resp := rfl
@[simp] theorem State.complete_draws : (s.complete).draws = s.draws := rfl

/-! ## raise -/

@[simp] theorem State.raise_cfg (e : CmdError) : (s.raise e).cfg = s.cfg := rfl
@[simp] theorem State.raise_cmd (e : CmdError) : (s.raise e).cmd = s.cmd := rfl
@[simp] theorem State.raise_status (e : CmdError) : (s.raise e).status = (s.status.errored e.code).completed := rfl
@[simp] theorem State.raise_errPos (e : CmdError) : (s.raise e).errPos = e.errPosAfter s.errPos := rfl
@[simp] theorem State.raise_chk (e : CmdError) : (s.raise e).chk = e.chkAfter s.chk := rfl
@[simp] theorem State.raise_result (e : CmdError) : (s.raise e).result = s.result := rfl
@[simp] theorem State.raise_symLen (e : CmdError) : (s.raise e).symLen = s.symLen := rfl
@[simp] theorem State.raise_byteLen (e : CmdError) : (s.raise e).byteLen = s.byteLen := rfl
@[simp] theorem State.raise_mem (e : CmdError) : (s.raise e).mem = s.mem := rfl
@[simp] theorem State.raise_host (e : CmdError) : (s.raise e).host = s.host := rfl
@[simp] theorem State.raise_sched (e : CmdError) : (s.raise e).sched = s.sched := rfl
@[simp] theorem State.raise_resp (e : CmdError) : (s.raise e).resp = s.resp := rfl
@[simp] theorem State.raise_draws (e : CmdError) : (s.raise e).draws = s.draws := rfl

/-! ## setResult -/

@[simp] theorem State.setResult_cfg (w : Word) : (s.setResult w).cfg = s.cfg := rfl
@[simp] theorem State.setResult_cmd (w : Word) : (s.setResult w).cmd = s.cmd := rfl
@[simp] theorem State.setResult_status (w : Word) : (s.setResult w).status = s.status := rfl
@[simp] theorem State.setResult_errPos (w : Word) : (s.setResult w).errPos = s.errPos := rfl
@[simp] theorem State.setResult_chk (w : Word) : (s.setResult w).chk = s.chk := rfl
@[simp] theorem State.setResult_result (w : Word) : (s.setResult w).result = w := rfl
@[simp] theorem State.setResult_symLen (w : Word) : (s.setResult w).symLen = s.symLen := rfl
@[simp] theorem State.setResult_byteLen (w : Word) : (s.setResult w).byteLen = s.byteLen := rfl
@[simp] theorem State.setResult_mem (w : Word) : (s.setResult w).mem = s.mem := rfl
@[simp] theorem State.setResult_host (w : Word) : (s.setResult w).host = s.host := rfl
@[simp] theorem State.setResult_sched (w : Word) : (s.setResult w).sched = s.sched := rfl
@[simp] theorem State.setResult_resp (w : Word) : (s.setResult w).resp = s.resp := rfl
@[simp] theorem State.setResult_draws (w : Word) : (s.setResult w).draws = s.draws := rfl

/-! ## setSymbols -/

@[simp] theorem State.setSymbols_cfg (out : List Byte) : (s.setSymbols out).cfg = s.cfg := rfl
@[simp] theorem State.setSymbols_cmd (out : List Byte) : (s.setSymbols out).cmd = s.cmd := rfl
@[simp] theorem State.setSymbols_status (out : List Byte) : (s.setSymbols out).status = s.status := rfl
@[simp] theorem State.setSymbols_errPos (out : List Byte) : (s.setSymbols out).errPos = s.errPos := rfl
@[simp] theorem State.setSymbols_chk (out : List Byte) : (s.setSymbols out).chk = s.chk := rfl
@[simp] theorem State.setSymbols_result (out : List Byte) : (s.setSymbols out).result = s.result := rfl
@[simp] theorem State.setSymbols_symLen (out : List Byte) : (s.setSymbols out).symLen = BitVec.ofNat 16 out.length := rfl
@[simp] theorem State.setSymbols_byteLen (out : List Byte) : (s.setSymbols out).byteLen = s.byteLen := rfl
@[simp] theorem State.setSymbols_mem (out : List Byte) : (s.setSymbols out).mem = Mem.setBytes s.mem symBufBase out := rfl
@[simp] theorem State.setSymbols_host (out : List Byte) : (s.setSymbols out).host = s.host := rfl
@[simp] theorem State.setSymbols_sched (out : List Byte) : (s.setSymbols out).sched = s.sched := rfl
@[simp] theorem State.setSymbols_resp (out : List Byte) : (s.setSymbols out).resp = s.resp := rfl
@[simp] theorem State.setSymbols_draws (out : List Byte) : (s.setSymbols out).draws = s.draws := rfl

/-! ## setByteBuf -/

@[simp] theorem State.setByteBuf_cfg (bs : List Byte) : (s.setByteBuf bs).cfg = s.cfg := rfl
@[simp] theorem State.setByteBuf_cmd (bs : List Byte) : (s.setByteBuf bs).cmd = s.cmd := rfl
@[simp] theorem State.setByteBuf_status (bs : List Byte) : (s.setByteBuf bs).status = s.status := rfl
@[simp] theorem State.setByteBuf_errPos (bs : List Byte) : (s.setByteBuf bs).errPos = s.errPos := rfl
@[simp] theorem State.setByteBuf_chk (bs : List Byte) : (s.setByteBuf bs).chk = s.chk := rfl
@[simp] theorem State.setByteBuf_result (bs : List Byte) : (s.setByteBuf bs).result = s.result := rfl
@[simp] theorem State.setByteBuf_symLen (bs : List Byte) : (s.setByteBuf bs).symLen = s.symLen := rfl
@[simp] theorem State.setByteBuf_byteLen (bs : List Byte) : (s.setByteBuf bs).byteLen = BitVec.ofNat 16 bs.length := rfl
@[simp] theorem State.setByteBuf_mem (bs : List Byte) : (s.setByteBuf bs).mem = Mem.setBytes s.mem byteBufBase bs := rfl
@[simp] theorem State.setByteBuf_host (bs : List Byte) : (s.setByteBuf bs).host = s.host := rfl
@[simp] theorem State.setByteBuf_sched (bs : List Byte) : (s.setByteBuf bs).sched = s.sched := rfl
@[simp] theorem State.setByteBuf_resp (bs : List Byte) : (s.setByteBuf bs).resp = s.resp := rfl
@[simp] theorem State.setByteBuf_draws (bs : List Byte) : (s.setByteBuf bs).draws = s.draws := rfl

/-! ## setValue -/

@[simp] theorem State.setValue_cfg (n : Nat) : (s.setValue n).cfg = s.cfg := rfl
@[simp] theorem State.setValue_cmd (n : Nat) : (s.setValue n).cmd = s.cmd := rfl
@[simp] theorem State.setValue_status (n : Nat) : (s.setValue n).status = s.status := rfl
@[simp] theorem State.setValue_errPos (n : Nat) : (s.setValue n).errPos = s.errPos := rfl
@[simp] theorem State.setValue_chk (n : Nat) : (s.setValue n).chk = s.chk := rfl
@[simp] theorem State.setValue_result (n : Nat) : (s.setValue n).result = s.result := rfl
@[simp] theorem State.setValue_symLen (n : Nat) : (s.setValue n).symLen = s.symLen := rfl
@[simp] theorem State.setValue_byteLen (n : Nat) : (s.setValue n).byteLen = s.byteLen := rfl
@[simp] theorem State.setValue_mem (n : Nat) : (s.setValue n).mem = Mem.setBytes s.mem valueBase (integerToBytes n s.cfg.vb) := rfl
@[simp] theorem State.setValue_host (n : Nat) : (s.setValue n).host = s.host := rfl
@[simp] theorem State.setValue_sched (n : Nat) : (s.setValue n).sched = s.sched := rfl
@[simp] theorem State.setValue_resp (n : Nat) : (s.setValue n).resp = s.resp := rfl
@[simp] theorem State.setValue_draws (n : Nat) : (s.setValue n).draws = s.draws := rfl

/-! ## respond -/

@[simp] theorem State.respond_cfg (r : Response) : (s.respond r).cfg = s.cfg := rfl
@[simp] theorem State.respond_cmd (r : Response) : (s.respond r).cmd = s.cmd := rfl
@[simp] theorem State.respond_status (r : Response) : (s.respond r).status = s.status := rfl
@[simp] theorem State.respond_errPos (r : Response) : (s.respond r).errPos = s.errPos := rfl
@[simp] theorem State.respond_chk (r : Response) : (s.respond r).chk = s.chk := rfl
@[simp] theorem State.respond_result (r : Response) : (s.respond r).result = s.result := rfl
@[simp] theorem State.respond_symLen (r : Response) : (s.respond r).symLen = s.symLen := rfl
@[simp] theorem State.respond_byteLen (r : Response) : (s.respond r).byteLen = s.byteLen := rfl
@[simp] theorem State.respond_mem (r : Response) : (s.respond r).mem = s.mem := rfl
@[simp] theorem State.respond_host (r : Response) : (s.respond r).host = s.host := rfl
@[simp] theorem State.respond_sched (r : Response) : (s.respond r).sched = s.sched := rfl
@[simp] theorem State.respond_resp (r : Response) : (s.respond r).resp = some r := rfl
@[simp] theorem State.respond_draws (r : Response) : (s.respond r).draws = s.draws := rfl

/-! ## turnTaken -/

@[simp] theorem State.turnTaken_cfg : (s.turnTaken).cfg = s.cfg := rfl
@[simp] theorem State.turnTaken_cmd : (s.turnTaken).cmd = s.cmd := rfl
@[simp] theorem State.turnTaken_status : (s.turnTaken).status = s.status := rfl
@[simp] theorem State.turnTaken_errPos : (s.turnTaken).errPos = s.errPos := rfl
@[simp] theorem State.turnTaken_chk : (s.turnTaken).chk = s.chk := rfl
@[simp] theorem State.turnTaken_result : (s.turnTaken).result = s.result := rfl
@[simp] theorem State.turnTaken_symLen : (s.turnTaken).symLen = s.symLen := rfl
@[simp] theorem State.turnTaken_byteLen : (s.turnTaken).byteLen = s.byteLen := rfl
@[simp] theorem State.turnTaken_mem : (s.turnTaken).mem = s.mem := rfl
@[simp] theorem State.turnTaken_host : (s.turnTaken).host = s.host := rfl
@[simp] theorem State.turnTaken_sched : (s.turnTaken).sched = s.sched.tail := rfl
@[simp] theorem State.turnTaken_resp : (s.turnTaken).resp = s.resp := rfl
@[simp] theorem State.turnTaken_draws : (s.turnTaken).draws = s.draws := rfl

/-! ## hardReset -/

@[simp] theorem State.hardReset_cfg : (s.hardReset).cfg = s.cfg := rfl
@[simp] theorem State.hardReset_cmd : (s.hardReset).cmd = (State.resetWith s.cfg).cmd := rfl
@[simp] theorem State.hardReset_status : (s.hardReset).status = (State.resetWith s.cfg).status := rfl
@[simp] theorem State.hardReset_errPos : (s.hardReset).errPos = (State.resetWith s.cfg).errPos := rfl
@[simp] theorem State.hardReset_chk : (s.hardReset).chk = (State.resetWith s.cfg).chk := rfl
@[simp] theorem State.hardReset_result : (s.hardReset).result = (State.resetWith s.cfg).result := rfl
@[simp] theorem State.hardReset_symLen : (s.hardReset).symLen = (State.resetWith s.cfg).symLen := rfl
@[simp] theorem State.hardReset_byteLen : (s.hardReset).byteLen = (State.resetWith s.cfg).byteLen := rfl
@[simp] theorem State.hardReset_mem : (s.hardReset).mem = (State.resetWith s.cfg).mem := rfl
@[simp] theorem State.hardReset_host : (s.hardReset).host = s.host := rfl
@[simp] theorem State.hardReset_sched : (s.hardReset).sched = s.sched := rfl
@[simp] theorem State.hardReset_resp : (s.hardReset).resp = (State.resetWith s.cfg).resp := rfl
@[simp] theorem State.hardReset_draws : (s.hardReset).draws = s.draws := rfl

/-! ## STATUS -/

variable (st : Status)

@[simp] theorem Status.accepted_busy : st.accepted.busy = true := rfl
@[simp] theorem Status.accepted_done : st.accepted.done = false := rfl
@[simp] theorem Status.accepted_err : st.accepted.err = false := rfl
@[simp] theorem Status.accepted_werr : st.accepted.werr = st.werr := rfl
@[simp] theorem Status.accepted_errCode : st.accepted.errCode = 0x00 := rfl
@[simp] theorem Status.completed_busy : st.completed.busy = false := rfl
@[simp] theorem Status.completed_done : st.completed.done = true := rfl
@[simp] theorem Status.completed_err : st.completed.err = st.err := rfl
@[simp] theorem Status.completed_werr : st.completed.werr = st.werr := rfl
@[simp] theorem Status.completed_errCode : st.completed.errCode = st.errCode := rfl
@[simp] theorem Status.errored_busy (c : BitVec 8) : (st.errored c).busy = st.busy := rfl
@[simp] theorem Status.errored_done (c : BitVec 8) : (st.errored c).done = st.done := rfl
@[simp] theorem Status.errored_err (c : BitVec 8) : (st.errored c).err = true := rfl
@[simp] theorem Status.errored_werr (c : BitVec 8) : (st.errored c).werr = st.werr := rfl
@[simp] theorem Status.errored_errCode (c : BitVec 8) : (st.errored c).errCode = c := rfl
@[simp] theorem Status.withWerr_busy : st.withWerr.busy = st.busy := rfl
@[simp] theorem Status.withWerr_done : st.withWerr.done = st.done := rfl
@[simp] theorem Status.withWerr_err : st.withWerr.err = st.err := rfl
@[simp] theorem Status.withWerr_werr : st.withWerr.werr = true := rfl
@[simp] theorem Status.withWerr_errCode : st.withWerr.errCode = st.errCode := rfl

@[simp] theorem Status.written_busy (w : Word) : (st.written w).busy = st.busy := by
  unfold Status.written; split <;> rfl
@[simp] theorem Status.written_done (w : Word) : (st.written w).done = st.done := by
  unfold Status.written; split <;> rfl
@[simp] theorem Status.written_err (w : Word) : (st.written w).err = st.err := by
  unfold Status.written; split <;> rfl
@[simp] theorem Status.written_errCode (w : Word) : (st.written w).errCode = st.errCode := by
  unfold Status.written; split <;> rfl
@[simp] theorem Status.written_werr (w : Word) : (st.written w).werr = (st.werr && !w.getLsbD 3) := by
  unfold Status.written; split <;> simp_all

/-! ## val(VALUE) sees only the parameters and the memory -/

/-- Two states with the same parameters and memory hold the same integer. -/
theorem State.value_congr {s t : State} (hc : s.cfg = t.cfg) (hm : s.mem = t.mem) : s.value = t.value := by
  unfold State.value State.valueBytes State.valueByte
  rw [hc, hm]

@[simp] theorem State.complete_value : s.complete.value = s.value := rfl
@[simp] theorem State.raise_value (e : CmdError) : (s.raise e).value = s.value := rfl
@[simp] theorem State.accept_value (w : Word) : (s.accept w).value = s.value := rfl
@[simp] theorem State.setResult_value (w : Word) : (s.setResult w).value = s.value := rfl

end Sys2Proof.Machine
end

