-- ==== Sys2Proof/Laws/Ops.lean ====
section
/-! SUPPORT. One lemma per shared operation, saying once everything it can do. -/

namespace Sys2Proof.Machine

open Sys2Proof

/-! ## Results -/

theorem Result.bind_eq_ok {α β : Type} {r : Result α} {k : α → Result β} {b : β} :
    r.bind k = .ok b ↔ ∃ a, r = .ok a ∧ k a = .ok b := by
  cases r <;> simp [Result.bind]

theorem Result.bind_eq_raise {α β : Type} {r : Result α} {k : α → Result β} {e : CmdError} :
    r.bind k = .raise e ↔ r = .raise e ∨ ∃ a, r = .ok a ∧ k a = .raise e := by
  cases r <;> simp [Result.bind]

theorem Result.bind_eq_fault {α β : Type} {r : Result α} {k : α → Result β} {f : Fault} :
    r.bind k = .fault f ↔ r = .fault f ∨ ∃ a, r = .ok a ∧ k a = .fault f := by
  cases r <;> simp [Result.bind]

theorem Result.ofRead_eq_ok {α : Type} {r : Except Fault α} {a : α} : Result.ofRead r = .ok a ↔ r = .ok a := by
  cases r <;> simp [Result.ofRead]

theorem Result.ofRead_eq_fault {α : Type} {r : Except Fault α} {f : Fault} :
    Result.ofRead r = .fault f ↔ r = .error f := by
  cases r <;> simp [Result.ofRead]

theorem Result.ofRead_ne_raise {α : Type} {r : Except Fault α} {e : CmdError} : Result.ofRead r ≠ .raise e := by
  cases r <;> simp [Result.ofRead]

/-! ## Completing a command -/

/-- A command's next state is its outcome completed, or its error report. -/
theorem State.finish_next {s t : State} {r : Result State} :
    s.finish r = .next t ↔ (∃ u, r = .ok u ∧ t = u.complete) ∨ (∃ e, r = .raise e ∧ t = s.raise e) := by
  cases r <;> simp [State.finish, eq_comm]

theorem State.finish_fault {s : State} {r : Result State} {f : Fault} : s.finish r = .fault f ↔ r = .fault f := by
  cases r <;> simp [State.finish]

/-- No command is refused. -/
theorem State.finish_ne_refused {s : State} {r : Result State} {x : Refusal} : s.finish r ≠ .refused x := by
  cases r <;> simp [State.finish]

/-! ## Byte sequences and integers -/

@[simp] theorem integerToBytes_length (v m : Nat) : (integerToBytes v m).length = m := by
  induction m generalizing v with
  | zero => rfl
  | succ m ih => simp [integerToBytes, ih]

theorem bytesToInteger_lt (bs : List Byte) : bytesToInteger bs < 256 ^ bs.length := by
  induction bs with
  | nil => simp [bytesToInteger]
  | cons b bs ih =>
    have := b.isLt
    simp only [bytesToInteger, List.length_cons, Nat.pow_succ]
    omega

@[simp] theorem State.valueBytes_length (s : State) : s.valueBytes.length = s.cfg.vb := by
  simp [State.valueBytes]

/-- val(VALUE) fits its register (10_state.md R33). -/
theorem State.value_lt (s : State) : s.value < 2 ^ s.cfg.valueBits := by
  have := bytesToInteger_lt s.valueBytes
  rw [State.valueBytes_length] at this
  rw [Config.valueBits, Nat.pow_mul]
  exact this

theorem two_pow_valueBits (c : Config) : 2 ^ c.valueBits = 256 ^ c.vb := by
  rw [Config.valueBits, Nat.pow_mul]

theorem lt_two_pow_bitLen (v : Nat) : v < 2 ^ bitLen v := by
  unfold bitLen
  split
  · subst_vars; simp
  · exact Nat.lt_log2_self

theorem bitLen_le_of_lt {v k : Nat} (h : v < 2 ^ k) : bitLen v ≤ k := by
  unfold bitLen
  split
  · omega
  · rename_i hv
    exact (Nat.log2_lt hv).2 h

/-- A value that fits VALUE needs at most VB bytes. -/
theorem nbytes_le_of_lt {c : Config} {v : Nat} (h : v < 2 ^ c.valueBits) : nbytes v ≤ c.vb := by
  have := bitLen_le_of_lt h
  unfold nbytes
  unfold Config.valueBits at this
  omega

/-! ## Operands -/

theorem State.byteOperand_ok {s : State} {v : Nat} (h : s.byteOperand = .ok v) :
    s.byteLen.toNat ≤ s.cfg.vb ∧
    ∃ bs, Mem.readBytes s.mem byteBufBase s.byteLen.toNat = .ok bs ∧ v = bytesToInteger bs := by
  unfold State.byteOperand at h
  split at h
  · exact absurd h (by simp)
  · rename_i hle
    obtain ⟨bs, hr, hv⟩ := Result.bind_eq_ok.1 h
    exact ⟨by omega, bs, Result.ofRead_eq_ok.1 hr, by simpa using hv.symm⟩

theorem State.byteOperand_raise {s : State} {e : CmdError} (h : s.byteOperand = .raise e) :
    e = .capacityExceeded ∧ s.cfg.vb < s.byteLen.toNat := by
  unfold State.byteOperand at h
  split at h
  · rename_i hlt
    exact ⟨by simpa using h.symm, hlt⟩
  · rcases Result.bind_eq_raise.1 h with h | ⟨bs, -, h⟩
    · exact absurd h Result.ofRead_ne_raise
    · exact absurd h (by simp)

theorem State.byteOperand_fault {s : State} {f : Fault} (h : s.byteOperand = .fault f) :
    ∃ k < s.byteLen.toNat, f = .uninitRead (byteBufBase + k) ∧ Mem.get s.mem (byteBufBase + k) = none := by
  unfold State.byteOperand at h
  split at h
  · exact absurd h (by simp)
  · rcases Result.bind_eq_fault.1 h with h | ⟨bs, -, h⟩
    · exact Mem.readBytes_error _ _ _ _ (Result.ofRead_eq_fault.1 h)
    · exact absurd h (by simp)

theorem byteCount_ok {lenEn : Bool} {len v m : Nat} :
    byteCount lenEn len v = .ok m ↔ if lenEn then nbytes v ≤ len ∧ m = len else m = nbytes v := by
  unfold byteCount
  cases lenEn
  · simp [eq_comm]
  · by_cases h : len < nbytes v
    · simp [h, Nat.not_le.2 h]
    · simp [h, Nat.not_lt.1 h, eq_comm]

theorem byteCount_raise {lenEn : Bool} {len v : Nat} {e : CmdError} :
    byteCount lenEn len v = .raise e ↔ lenEn = true ∧ len < nbytes v ∧ e = .lengthTooSmall := by
  unfold byteCount
  cases lenEn
  · simp
  · by_cases h : len < nbytes v <;> simp [h, eq_comm]

theorem byteCount_ne_fault {lenEn : Bool} {len v : Nat} {f : Fault} : byteCount lenEn len v ≠ .fault f := by
  unfold byteCount
  split
  · split <;> simp
  · simp

/-- The number of bytes written fits BYTE_BUF when the length request and the value do. -/
theorem byteCount_le {c : Config} {lenEn : Bool} {len v m : Nat} (h : byteCount lenEn len v = .ok m)
    (hb : byteLenTooBig c lenEn len = false) (hv : v < 2 ^ c.valueBits) : m ≤ c.vb := by
  have hn := nbytes_le_of_lt hv
  rw [byteCount_ok] at h
  cases lenEn
  · simp only [Bool.false_eq_true, if_false] at h; omega
  · simp only [if_true] at h
    simp only [byteLenTooBig, Bool.true_and, decide_eq_false_iff_not] at hb
    omega

/-! ## The encoder -/

theorem digitCount_raise {check lenEn : Bool} {step len d : Nat} {e : CmdError}
    (h : digitCount check lenEn step len d = .raise e) : lenEn = true ∧ e = .lengthTooSmall := by
  unfold digitCount at h
  cases lenEn
  · simp at h
  · refine ⟨rfl, ?_⟩
    simp only [if_true] at h
    split at h
    · simpa using h.symm
    · split at h
      · simpa using h.symm
      · simp at h

theorem digitCount_ne_fault {check lenEn : Bool} {step len d : Nat} {f : Fault} :
    digitCount check lenEn step len d ≠ .fault f := by
  unfold digitCount
  split
  · split
    · simp
    · split <;> simp
  · simp

theorem digitCount_ok {check lenEn : Bool} {step len d D : Nat} (h : digitCount check lenEn step len d = .ok D) :
    d ≤ D ∧ (lenEn = true → total step check D = len) := by
  unfold digitCount at h
  cases lenEn
  · simp only [Bool.false_eq_true, if_false, Result.ok.injEq] at h
    exact ⟨by omega, by simp⟩
  · simp only [if_true] at h
    split at h
    · simp at h
    · split at h
      · simp at h
      · rename_i D' hp
        simp only [Result.ok.injEq] at h
        subst h
        unfold padTo at hp
        split at hp
        · rename_i hc
          simp only [Option.some.injEq] at hp
          subst hp
          exact ⟨hc.1, fun _ => hc.2⟩
        · simp at hp

/-- What ENCODE can answer once its value is known (42_encoder.md R165). -/
theorem encodeValue_cases (check lenEn : Bool) (step len : Nat) (s : State) (v : Nat) :
    (∃ D, digitCount check lenEn step len (digits v).length = .ok D ∧ total step check D ≤ s.cfg.symCap ∧
      encodeValue check lenEn step len s v = .ok (s.setSymbols (encodeText check step D v))) ∨
    (∃ D, digitCount check lenEn step len (digits v).length = .ok D ∧ s.cfg.symCap < total step check D ∧
      encodeValue check lenEn step len s v = .raise .capacityExceeded) ∨
    (digitCount check lenEn step len (digits v).length = .raise .lengthTooSmall ∧
      encodeValue check lenEn step len s v = .raise .lengthTooSmall) := by
  cases h : digitCount check lenEn step len (digits v).length with
  | ok D =>
    by_cases hc : total step check D > s.cfg.symCap
    · exact .inr (.inl ⟨D, rfl, hc, by simp [encodeValue, h, Result.bind, hc]⟩)
    · exact .inl ⟨D, rfl, by omega, by simp [encodeValue, h, Result.bind, hc]⟩
  | raise e =>
    obtain ⟨-, rfl⟩ := digitCount_raise h
    exact .inr (.inr ⟨rfl, by simp [encodeValue, h, Result.bind]⟩)
  | fault f => exact absurd h digitCount_ne_fault

theorem digits_length_pos (v : Nat) : 0 < (digits v).length := by
  unfold digits
  split
  · simp
  · rename_i hv
    obtain ⟨n, hn⟩ : ∃ n, bitLen v = n + 1 := ⟨Nat.log2 v, by simp [bitLen, hv]⟩
    simp [hn, digitsUp, hv]

theorem format_length (step : Nat) (ds : List (Fin 32)) :
    (format step ds).length = ds.length + seps step ds.length := by
  induction ds with
  | nil => simp [format, seps]
  | cons d rest ih =>
    by_cases hs : step = 0
    · subst hs
      simp only [seps, if_true, Nat.add_zero] at ih
      simp [format, seps, ih]
    · have hpos : 0 < step := by omega
      by_cases hr : rest.length = 0
      · have : rest = [] := List.length_eq_zero_iff.1 hr
        subst this
        simp [format, seps]
      · obtain ⟨k, hk⟩ : ∃ k, rest.length = k + 1 := ⟨rest.length - 1, by omega⟩
        have hd : (k + 1) / step = k / step + if step ∣ k + 1 then 1 else 0 := Nat.succ_div
        by_cases hm : rest.length % step = 0
        · have hdv : step ∣ k + 1 := Nat.dvd_of_mod_eq_zero (hk ▸ hm)
          rw [if_pos hdv] at hd
          simp only [seps, hs, if_false] at ih ⊢
          rw [hk] at ih hm
          simp only [format, ne_eq, hs, not_false_eq_true, hk, hm, and_true, if_true, List.length_cons, ih,
            Nat.add_eq_zero_iff, Nat.one_ne_zero, and_false, Nat.add_sub_cancel]
          omega
        · have hdv : ¬ step ∣ k + 1 := fun hdv => hm (hk ▸ Nat.mod_eq_zero_of_dvd hdv)
          rw [if_neg hdv] at hd
          simp only [seps, hs, if_false] at ih ⊢
          rw [hk] at ih hm
          simp only [format, hk, hm, and_false, if_false, List.length_cons, ih, Nat.add_sub_cancel]
          omega

/-- The output of D digits has total(D) characters (42_encoder.md R163, R165 step 15). -/
theorem encodeText_length (check : Bool) (step D v : Nat) (h : (digits v).length ≤ D) :
    (encodeText check step D v).length = total step check D := by
  unfold encodeText total
  rw [List.length_append, format_length]
  have : (List.replicate (D - (digits v).length) 0 ++ digits v).length = D := by simp; omega
  rw [this]
  cases check <;> simp

/-! ## The decoder -/

theorem scan_fault {m : Mem} {n i acc : Nat} {f : Fault} (h : scan m n i acc = .fault f) :
    ∃ k < n, f = .uninitRead (symBufBase + (i + k)) ∧ Mem.get m (symBufBase + (i + k)) = none := by
  induction n generalizing i acc with
  | zero => simp [scan] at h
  | succ n ih =>
    unfold scan at h
    split at h
    · rename_i hg
      simp only [Result.fault.injEq] at h
      exact ⟨0, by omega, by simp [← h], by simpa using hg⟩
    · split at h
      · obtain ⟨k, hk, hf, hn⟩ := ih h
        exact ⟨k + 1, by omega, by rw [hf]; congr 2; omega,
          by rw [show i + (k + 1) = i + 1 + k by omega]; exact hn⟩
      · simp at h
      · split at h
        · simp at h
        · obtain ⟨k, hk, hf, hn⟩ := ih h
          exact ⟨k + 1, by omega, by rw [hf]; congr 2; omega,
            by rw [show i + (k + 1) = i + 1 + k by omega]; exact hn⟩

/-- The scan raises INVALID_CHARACTER at a position it reached, and nothing else. -/
theorem scan_raise {m : Mem} {n i acc : Nat} {e : CmdError} (h : scan m n i acc = .raise e) :
    ∃ k < n, e = .invalidCharacter (i + k) := by
  induction n generalizing i acc with
  | zero => simp [scan] at h
  | succ n ih =>
    unfold scan at h
    split at h
    · simp at h
    · split at h
      · obtain ⟨k, hk, he⟩ := ih h
        exact ⟨k + 1, by omega, by rw [he]; congr 1; omega⟩
      · simp only [Result.raise.injEq] at h
        exact ⟨0, by omega, by simp [← h]⟩
      · split at h
        · simp only [Result.raise.injEq] at h
          exact ⟨0, by omega, by simp [← h]⟩
        · obtain ⟨k, hk, he⟩ := ih h
          exact ⟨k + 1, by omega, by rw [he]; congr 1; omega⟩

/-- The scan passes over data symbols and separators, accumulating their values (43_decoder.md R191, R192). -/
theorem scan_data {m : Mem} {before : List Byte} {n i acc : Nat} (hm : Mem.Holds m (symBufBase + i) before)
    (hd : ∀ b ∈ before, DataSymbol b) :
    scan m (before.length + n) i acc =
      scan m n (i + before.length) ((dataValues before).foldl (fun acc x => acc * 32 + x) acc) := by
  induction before generalizing i acc with
  | nil => simp [dataValues]
  | cons b rest ih =>
    have hb : Mem.get m (symBufBase + i) = some b := by simpa using hm 0 (by simp)
    have hrest : Mem.Holds m (symBufBase + (i + 1)) rest := fun k hk => by
      have := hm (k + 1) (by simpa using hk)
      rwa [show symBufBase + i + (k + 1) = symBufBase + (i + 1) + k by omega] at this
    rw [List.length_cons, show rest.length + 1 + n = (rest.length + n) + 1 by omega, scan, hb]
    rcases hd b (by simp) with hc | ⟨x, hx, hc⟩
    · have hv : dataValues (b :: rest) = dataValues rest := by simp [dataValues, hc]
      simp only [hc]
      rw [ih hrest fun y hy => hd y (List.mem_cons_of_mem _ hy), hv]
      congr 1; omega
    · have hv : dataValues (b :: rest) = x.val :: dataValues rest := by simp [dataValues, hc]
      have hge : ¬ x.val ≥ 32 := by omega
      simp only [hc, if_neg hge]
      rw [ih hrest fun y hy => hd y (List.mem_cons_of_mem _ hy), hv, List.foldl_cons]
      congr 1; omega

theorem checkSymbol_raise {m : Mem} {i : Nat} {e : CmdError} (h : checkSymbol m i = .raise e) :
    e = .invalidCharacter i := by
  unfold checkSymbol at h
  split at h
  · simp at h
  · split at h <;> simp_all

theorem checkSymbol_fault {m : Mem} {i : Nat} {f : Fault} (h : checkSymbol m i = .fault f) :
    f = .uninitRead (symBufBase + i) ∧ Mem.get m (symBufBase + i) = none := by
  unfold checkSymbol at h
  split at h
  · rename_i hg
    exact ⟨by simpa using h.symm, hg⟩
  · split at h <;> simp_all

theorem fitValue_ok {c : Config} {acc a : Nat} : fitValue c acc = .ok a ↔ a = acc ∧ acc < 2 ^ c.valueBits := by
  unfold fitValue
  split
  · simp; omega
  · simp only [Result.ok.injEq]; constructor
    · rintro rfl; exact ⟨rfl, by omega⟩
    · rintro ⟨rfl, -⟩; rfl

theorem fitValue_raise {c : Config} {acc : Nat} {e : CmdError} :
    fitValue c acc = .raise e ↔ e = .capacityExceeded ∧ 2 ^ c.valueBits ≤ acc := by
  unfold fitValue
  split
  · rename_i h; simp only [Result.raise.injEq]; constructor
    · rintro rfl; exact ⟨rfl, h⟩
    · rintro ⟨rfl, -⟩; rfl
  · simp; omega

theorem fitValue_ne_fault {c : Config} {acc : Nat} {f : Fault} : fitValue c acc ≠ .fault f := by
  unfold fitValue; split <;> simp

theorem verify_ok {acc a : Nat} {y : Fin 37} : verify acc y = .ok a ↔ a = acc ∧ checksum acc = y := by
  unfold verify
  split
  · rename_i h; simp [h]
  · rename_i h; simp only [ne_eq, not_not] at h; simp [h, eq_comm]

theorem verify_raise {acc : Nat} {y : Fin 37} {e : CmdError} :
    verify acc y = .raise e ↔ e = .checksumMismatch y (checksum acc) ∧ checksum acc ≠ y := by
  unfold verify
  split
  · rename_i h; simp [h, eq_comm]
  · rename_i h; simp only [ne_eq, not_not] at h; simp [h]

theorem verify_ne_fault {acc : Nat} {y : Fin 37} {f : Fault} : verify acc y ≠ .fault f := by
  unfold verify; split <;> simp

/-- DECODE's integer, and with it the scan, the check symbol and the two tests it passed (43_decoder.md R195). -/
theorem decodeSymbols_ok {s : State} {check : Bool} {L acc : Nat} (h : decodeSymbols s check L = .ok acc) :
    acc < 2 ^ s.cfg.valueBits ∧
    (check = false → scan s.mem L 0 0 = .ok acc) ∧
    (check = true → 0 < L ∧ scan s.mem (L - 1) 0 0 = .ok acc ∧ checkSymbol s.mem (L - 1) = .ok (checksum acc)) := by
  unfold decodeSymbols at h
  cases check
  · simp only [Bool.false_eq_true, if_false] at h
    obtain ⟨a, ha, hf⟩ := Result.bind_eq_ok.1 h
    obtain ⟨rfl, hlt⟩ := fitValue_ok.1 hf
    exact ⟨hlt, fun _ => ha, by simp⟩
  · simp only [if_true] at h
    split at h
    · simp at h
    · obtain ⟨a, ha, h1⟩ := Result.bind_eq_ok.1 h
      obtain ⟨y, hy, h2⟩ := Result.bind_eq_ok.1 h1
      obtain ⟨a', hf, h3⟩ := Result.bind_eq_ok.1 h2
      obtain ⟨rfl, hlt⟩ := fitValue_ok.1 hf
      obtain ⟨rfl, rfl⟩ := verify_ok.1 h3
      exact ⟨hlt, by simp, fun _ => ⟨by omega, ha, hy⟩⟩

/-- The errors of DECODE after its capacity checks (43_decoder.md R195). -/
theorem decodeSymbols_raise {s : State} {check : Bool} {L : Nat} {e : CmdError}
    (h : decodeSymbols s check L = .raise e) :
    (∃ p, e = .invalidCharacter p ∧ (p < L ∨ (check = true ∧ L = 0 ∧ p = 0))) ∨ e = .capacityExceeded ∨
    (check = true ∧ ∃ y x, e = .checksumMismatch y x) := by
  unfold decodeSymbols at h
  cases check
  · simp only [Bool.false_eq_true, if_false] at h
    rcases Result.bind_eq_raise.1 h with h | ⟨a, -, h⟩
    · obtain ⟨k, hk, rfl⟩ := scan_raise h
      exact .inl ⟨0 + k, rfl, .inl (by omega)⟩
    · exact .inr (.inl (fitValue_raise.1 h).1)
  · simp only [if_true] at h
    split at h
    · exact .inl ⟨0, by simpa using h.symm, .inr ⟨rfl, by assumption, rfl⟩⟩
    · rcases Result.bind_eq_raise.1 h with h | ⟨a, -, h⟩
      · obtain ⟨k, hk, rfl⟩ := scan_raise h
        exact .inl ⟨0 + k, rfl, .inl (by omega)⟩
      · rcases Result.bind_eq_raise.1 h with h | ⟨y, -, h⟩
        · exact .inl ⟨_, checkSymbol_raise h, .inl (by omega)⟩
        · rcases Result.bind_eq_raise.1 h with h | ⟨a', -, h⟩
          · exact .inr (.inl (fitValue_raise.1 h).1)
          · exact .inr (.inr ⟨rfl, _, _, (verify_raise.1 h).1⟩)

/-- DECODE stops only at a character that nothing has written. -/
theorem decodeSymbols_fault {s : State} {check : Bool} {L : Nat} {f : Fault} (h : decodeSymbols s check L = .fault f) :
    ∃ k < L, f = .uninitRead (symBufBase + k) ∧ Mem.get s.mem (symBufBase + k) = none := by
  have key : ∀ n, n ≤ L → scan s.mem n 0 0 = .fault f →
      ∃ k < L, f = .uninitRead (symBufBase + k) ∧ Mem.get s.mem (symBufBase + k) = none := by
    intro n hn hs
    obtain ⟨k, hk, hf, hm⟩ := scan_fault hs
    exact ⟨k, by omega, by simpa using hf, by simpa using hm⟩
  unfold decodeSymbols at h
  cases check
  · simp only [Bool.false_eq_true, if_false] at h
    rcases Result.bind_eq_fault.1 h with h | ⟨a, -, h⟩
    · exact key L (by omega) h
    · exact absurd h fitValue_ne_fault
  · simp only [if_true] at h
    split at h
    · simp at h
    · rcases Result.bind_eq_fault.1 h with h | ⟨a, -, h⟩
      · exact key (L - 1) (by omega) h
      · rcases Result.bind_eq_fault.1 h with h | ⟨y, -, h⟩
        · obtain ⟨hf, hm⟩ := checkSymbol_fault h
          exact ⟨L - 1, by omega, hf, hm⟩
        · rcases Result.bind_eq_fault.1 h with h | ⟨a', -, h⟩
          · exact absurd h fitValue_ne_fault
          · exact absurd h verify_ne_fault

/-! ## The bus -/

/-- The data of a 32-bit write. -/
@[simp] theorem extract_zeroExtend (w : Word) : (w.zeroExtend 64).extractLsb' 0 32 = w := by
  apply BitVec.eq_of_toNat_eq
  have := w.isLt
  simp only [BitVec.extractLsb'_toNat, BitVec.truncate_eq_setWidth, BitVec.toNat_setWidth, Nat.shiftRight_zero]
  omega

/-- An offset of the window, from its address. -/
theorem offsetOf_base (c : Config) {off : Nat} (h : off < 0x800) : offsetOf c (c.base + off) = some off := by
  unfold offsetOf windowSize
  rw [if_pos (by omega)]
  simp

/-- An address outside the window. -/
theorem offsetOf_outside (c : Config) {addr : Nat} (h : addr < c.base ∨ c.base + 0x800 ≤ addr) :
    offsetOf c addr = none := by
  unfold offsetOf windowSize
  rw [if_neg (by omega)]

/-- An aligned word of an array is mapped. -/
theorem locate_of_inArrays {c : Config} {off : Nat} (ha : off % 4 = 0) (h : inArrays c off) :
    locate c .w32 off = some (.array off) := by
  have above : ∀ r < 0x100, off ≠ r := by
    unfold inArrays valueBase byteBufBase symBufBase at h
    omega
  simp [locate, ha, h, above]

/-- A location the map gives: an array word is aligned, and it lies in the arrays. -/
theorem locate_array {c : Config} {w : Width} {off a : Nat} (h : locate c w off = some (.array a)) :
    w = .w32 ∧ a = off ∧ off % 4 = 0 ∧ inArrays c off := by
  simp only [locate] at h
  split at h
  · simp at h
  · rename_i hw
    simp only [not_or, ne_eq, not_not] at hw
    repeat' split at h
    all_goals first
      | (simp at h; done)
      | (simp only [Option.some.injEq, Loc.array.injEq] at h; exact ⟨hw.1, h.symm, hw.2, by assumption⟩)

/-- With whole-word capacities, a mapped array word lies in its array with all four bytes (20_memory.md R60, R63). -/
theorem inArrays_word {c : Config} {off : Nat} (hc : c.Legal) (ha : off % 4 = 0) (h : inArrays c off) :
    ∀ k < 4, inArrays c (off + k) := by
  obtain ⟨⟨hv, -, -⟩, ⟨hs, -, -⟩, -, -⟩ := hc
  intro k hk
  unfold inArrays valueBase byteBufBase symBufBase at h ⊢
  omega

/-- What one host access can do: answer only, draw an unspecified word, set WERR, or write one location while idle. -/
theorem State.serve_next {s t : State} {a : Access} (h : s.serve a = .next t) :
    (∃ r, t = s.respond r) ∨
    (s.status.busy = true ∧ ∃ r, t = { s with draws := s.draws + 1 }.respond r) ∨
    (s.status.busy = true ∧ t = { s with status := s.status.withWerr }.respond .ok) ∨
    (∃ addr width data off l, a = .write addr width data ∧ offsetOf s.cfg addr = some off ∧
      locate s.cfg width off = some l ∧ (s.status.busy = true → l.frozenWhileBusy = false) ∧
      t = (s.writeLoc (data.extractLsb' 0 32) l).respond .ok) := by
  cases a with
  | read addr width =>
    simp only [State.serve] at h
    split at h
    · exact .inl ⟨_, by simpa using h.symm⟩
    · split at h
      · exact .inl ⟨_, by simpa using h.symm⟩
      · unfold State.serveRead at h
        split at h
        · rename_i hb
          exact .inr (.inl ⟨hb.1, _, by simpa using h.symm⟩)
        · split at h
          · exact .inl ⟨_, by simpa using h.symm⟩
          · simp at h
  | write addr width data =>
    simp only [State.serve] at h
    split at h
    · exact .inl ⟨_, by simpa using h.symm⟩
    · rename_i off ho
      split at h
      · exact .inl ⟨_, by simpa using h.symm⟩
      · rename_i l hl
        unfold State.serveWrite at h
        split at h
        · rename_i hb
          exact .inr (.inr (.inl ⟨hb.1, by simpa using h.symm⟩))
        · rename_i hb
          refine .inr (.inr (.inr ⟨addr, width, data, off, l, rfl, ho, hl, fun hbusy => ?_, by simpa using h.symm⟩))
          simpa [hbusy] using hb

/-- No host access is refused. -/
theorem State.serve_ne_refused {s : State} {a : Access} {r : Refusal} : s.serve a ≠ .refused r := by
  cases a <;> simp only [State.serve]
  · split
    · simp
    · split
      · simp
      · unfold State.serveRead; split
        · simp
        · split <;> simp
  · split
    · simp
    · split
      · simp
      · unfold State.serveWrite; split <;> simp

/-- What one move of the host can do. -/
theorem State.hostMove_next {s t : State} (h : s.hostMove = .next t) :
    (s.host = [] ∧ t = s) ∨ (∃ u a, (∃ ops, u = { s with host := ops }) ∧ u.serve a = .next t) := by
  unfold State.hostMove at h
  split at h
  · rename_i hh
    exact .inl ⟨hh, by simpa using h.symm⟩
  · exact .inr ⟨_, _, ⟨_, rfl⟩, h⟩
  · refine .inr ⟨_, _, ?_, h⟩
    split
    · exact ⟨_, rfl⟩
    · exact ⟨s.host, rfl⟩

/-! ## The step -/

/-- A legal configuration's step is the move of the agent whose turn it is. -/
theorem step_of_legal {s : State} (hc : s.cfg.Legal) :
    step s = match s.turn with
      | .engine => if s.turnTaken.status.busy then exec s.turnTaken.inFlight s.turnTaken else .next s.turnTaken
      | .host => s.turnTaken.hostMove
      | .reset => .next s.turnTaken.hardReset := if_pos hc

/-- What one step can do (44_control.md R221; 20_memory.md R66; 70_reset_and_hazards.md R260). -/
theorem step_next {s t : State} (h : step s = .next t) :
    s.cfg.Legal ∧
    ((s.turn = .engine ∧ s.status.busy = true ∧ exec s.turnTaken.inFlight s.turnTaken = .next t) ∨
     (s.turn = .engine ∧ s.status.busy = false ∧ t = s.turnTaken) ∨
     (s.turn = .host ∧ s.turnTaken.hostMove = .next t) ∨
     (s.turn = .reset ∧ t = s.turnTaken.hardReset)) := by
  unfold step at h
  split at h
  · rename_i hc
    refine ⟨hc, ?_⟩
    split at h
    · rename_i ht
      split at h
      · rename_i hb
        exact .inl ⟨ht, hb, h⟩
      · rename_i hb
        exact .inr (.inl ⟨ht, by simpa using hb, by simpa using h.symm⟩)
    · exact .inr (.inr (.inl ⟨by assumption, h⟩))
    · exact .inr (.inr (.inr ⟨by assumption, by simpa using h.symm⟩))
  · simp at h

end Sys2Proof.Machine
end

