-- ==== Sys2Proof/Laws/Inv.lean ====
section
/-! SUPPORT. What the shared operations keep of the invariant of Safety.lean: memory, STATUS, and the report. -/

namespace Sys2Proof.Machine

open Sys2Proof

/-! ## Memory writes -/

/-- The memory part of the invariant. -/
abbrev Mem.Good (c : Config) (m : Mem) : Prop := m.wf ∧ Mem.Inside c m

theorem Mem.good_setBytes {c : Config} {m : Mem} {a : Nat} {bs : List Byte} (h : Mem.Good c m)
    (ha : ∀ k < bs.length, inArrays c (a + k)) : Mem.Good c (Mem.setBytes m a bs) :=
  ⟨Mem.wf_setBytes bs m a h.1, Mem.inside_setBytes h.2 ha⟩

theorem State.setValue_good {s : State} (n : Nat) (h : Mem.Good s.cfg s.mem) :
    Mem.Good s.cfg (s.setValue n).mem := by
  refine Mem.good_setBytes h fun k hk => .inl ?_
  rw [integerToBytes_length] at hk
  omega

theorem State.setByteBuf_good {s : State} {bs : List Byte} (hl : bs.length ≤ s.cfg.vb)
    (h : Mem.Good s.cfg s.mem) : Mem.Good s.cfg (s.setByteBuf bs).mem :=
  Mem.good_setBytes h fun k hk => .inr (.inl ⟨by omega, by omega⟩)

theorem State.setSymbols_good {s : State} {out : List Byte} (hl : out.length ≤ s.cfg.symCap)
    (h : Mem.Good s.cfg s.mem) : Mem.Good s.cfg (s.setSymbols out).mem :=
  Mem.good_setBytes h fun k hk => .inr (.inr ⟨by omega, by omega⟩)

/-! ## STATUS -/

theorem Status.accepted_legal (st : Status) : st.accepted.Legal := by
  refine ⟨by simp, by simp, by simp, by simp⟩

theorem Status.completed_legal {st : Status} (h : st.Legal) : st.completed.Legal :=
  ⟨by simp, fun he => ⟨rfl, (h.2.1 he).2⟩, h.2.2.1, h.2.2.2⟩

theorem CmdError.code_ne_zero (e : CmdError) : e.code ≠ 0 := by cases e <;> simp [CmdError.code]

theorem CmdError.code_le (e : CmdError) : e.code.toNat ≤ 8 := by cases e <;> simp [CmdError.code]

theorem Status.errored_completed_legal (st : Status) (e : CmdError) : (st.errored e.code).completed.Legal :=
  ⟨by simp, fun _ => ⟨rfl, e.code_ne_zero⟩, by simp, e.code_le⟩

theorem Status.withWerr_legal {st : Status} (h : st.Legal) : st.withWerr.Legal := h

theorem Status.written_legal {st : Status} (w : Word) (h : st.Legal) : (st.written w).Legal := by
  unfold Status.written
  split
  · exact h
  · exact h

/-! ## The error report -/

/-- The report is clean: what an accept leaves, and so what every command in flight starts from. -/
abbrev State.CleanReport (s : State) : Prop :=
  s.status.err = false ∧ s.status.errCode = 0 ∧ s.errPos = 0 ∧ s.chk = { actual := 0, expected := 0 }

/-- With a command in flight the invariant says that the report is clean (44_control.md R220). -/
theorem State.Inv.clean_of_busy {s : State} (h : s.Inv) (hb : s.status.busy = true) : s.CleanReport := by
  obtain ⟨-, -, -, ⟨h1, h2, h3, -⟩, r1, r2, -, -⟩ := h
  have hd : s.status.done = false := by simpa [hb] using h1
  have he : s.status.err = false := by
    by_contra hc
    have := (h2 (by simpa using hc)).1
    simp [hd] at this
  have hc := h3 he
  refine ⟨he, hc, ?_, ?_⟩
  · by_contra hx
    have := r1 hx
    simp [hc] at this
  · by_contra hx
    have := r2 hx
    simp [hc] at this

/-- A raise from a clean report leaves a legal one. -/
theorem State.raise_reportLegal {s : State} (h : s.CleanReport) (e : CmdError) : (s.raise e).ReportLegal := by
  obtain ⟨-, -, hp, hk⟩ := h
  cases e with
  | checksumMismatch actual expected =>
    have ha := actual.isLt
    have hx := expected.isLt
    refine ⟨?_, ?_, ?_, ?_⟩
    · simp [CmdError.errPosAfter, hp]
    · simp [CmdError.code]
    · simp only [State.raise_chk, CmdError.chkAfter, BitVec.toNat_ofNat]; omega
    · simp only [State.raise_chk, CmdError.chkAfter, BitVec.toNat_ofNat]; omega
  | _ => simp [State.ReportLegal, CmdError.errPosAfter, CmdError.chkAfter, CmdError.code, hp, hk]

/-- A raise keeps the invariant. -/
theorem State.Inv.raise {s : State} (h : s.Inv) (hr : s.CleanReport) (e : CmdError) : (s.raise e).Inv :=
  ⟨h.1, h.2.1, h.2.2.1, Status.errored_completed_legal _ e, State.raise_reportLegal hr e⟩

/-- A success that changes only memory (within the arrays), the length registers and RESULT keeps the invariant. -/
theorem State.Inv.complete {s u : State} (h : s.Inv) (hc : u.cfg = s.cfg) (hm : Mem.Good u.cfg u.mem)
    (hs : u.status = s.status) (hp : u.errPos = s.errPos) (hk : u.chk = s.chk) : u.complete.Inv := by
  refine ⟨?_, hm.1, hm.2, ?_, ?_⟩
  · rw [State.complete_cfg, hc]; exact h.1
  · rw [State.complete_status, hs]; exact Status.completed_legal h.2.2.2.1
  · have := h.2.2.2.2
    simpa [State.ReportLegal, hs, hp, hk] using this

/-- Fields outside the invariant may change freely. -/
theorem State.Inv.congr {s t : State} (h : s.Inv) (hc : t.cfg = s.cfg) (hm : t.mem = s.mem)
    (hs : t.status = s.status) (hp : t.errPos = s.errPos) (hk : t.chk = s.chk) : t.Inv := by
  simpa [State.Inv, State.ReportLegal, hc, hm, hs, hp, hk] using h

end Sys2Proof.Machine
end

