-- ==== Sys2Proof/Laws/PerInstr.lean ====
section
/-! SUPPORT. Statements about every instruction as syntax, one lemma per constructor. -/

namespace Sys2Proof.Laws.DecodedWellFormed

open Sys2Proof

/-- A command read from a word has every operand in its field (30_encoding.md R90, R93). -/
def Statement (i : Instr) : Prop := ∀ w, decode w = i → i.WellFormed

theorem bitsOf_lt (w : Word) (hi lo n : Nat) (h : hi + 1 - lo = n) : bitsOf w hi lo < 2 ^ n := by
  subst h
  exact Nat.mod_lt _ (Nat.two_pow_pos _)

/-- The operand bounds of every decoded word at once; the lemmas below read their constructor off. -/
theorem decode_wellFormed (w : Word) : (decode w).WellFormed := by
  have h8 : bitsOf w 15 8 < 2 ^ 8 := bitsOf_lt w 15 8 8 rfl
  have h16 : bitsOf w 31 16 < 2 ^ 16 := bitsOf_lt w 31 16 16 rfl
  have hi : bitsOf w 23 16 < 2 ^ 8 := bitsOf_lt w 23 16 8 rfl
  simp only [decode]
  repeat' split
  all_goals trivial

theorem of_decode {i : Instr} : Statement i := fun w h => h ▸ decode_wellFormed w

theorem nop : Statement .nop := of_decode
theorem encInt (check lenEn : Bool) (step len : Nat) : Statement (.encInt check lenEn step len) := of_decode
theorem encBytes (check lenEn : Bool) (step len : Nat) : Statement (.encBytes check lenEn step len) := of_decode
theorem encBadsel : Statement .encBadsel := of_decode
theorem decInt (check : Bool) : Statement (.decInt check) := of_decode
theorem decStr (check lenEn : Bool) (len : Nat) : Statement (.decStr check lenEn len) := of_decode
theorem decBadsel : Statement .decBadsel := of_decode
theorem pack : Statement .pack := of_decode
theorem unpack (lenEn : Bool) (len : Nat) : Statement (.unpack lenEn len) := of_decode
theorem symfor (imm8 : Nat) : Statement (.symfor imm8) := of_decode
theorem valfor (imm8 : Nat) : Statement (.valfor imm8) := of_decode
theorem chksum : Statement .chksum := of_decode
theorem reserved : Statement .reserved := of_decode

end Sys2Proof.Laws.DecodedWellFormed
end

