-- ==== Sys2Proof/Laws/Text.lean ====
section
/-! SUPPORT. Command text (30_encoding.md R98): reading a printed number, option or line gives it back. -/

namespace Sys2Proof.Machine.Asm

open Sys2Proof

/-! ## Numbers -/

theorem hexDigit_showHexDigit {n : Nat} (h : n < 16) : hexDigit (showHexDigit n) = some n := by
  have all : ∀ k : Fin 16, hexDigit (showHexDigit k.val) = some k.val := by decide
  exact all ⟨n, h⟩

/-- A printed decimal digit is neither a blank, a comma, a quote nor `x`. -/
theorem showHexDigit_plain {n : Nat} (h : n < 10) : showHexDigit n ∉ [' ', ',', '\'', 'x'] := by
  have all : ∀ k : Fin 10, showHexDigit k.val ∉ [' ', ',', '\'', 'x'] := by decide
  exact all ⟨n, h⟩

theorem readDigits_append (b acc : Nat) (xs ys : List Char) :
    readDigits b acc (xs ++ ys) = (readDigits b acc xs).bind fun a => readDigits b a ys := by
  induction xs generalizing acc with
  | nil => rfl
  | cons ch xs ih =>
    simp only [List.cons_append, readDigits]
    cases hexDigit ch with
    | none => rfl
    | some d => by_cases hd : d < b <;> simp [hd, ih]

theorem readDigits_decimalUp (fuel n : Nat) (h : n < 10 ^ fuel) :
    readDigits 10 0 (decimalUp fuel n).reverse = some n := by
  induction fuel generalizing n with
  | zero => simp at h; subst h; rfl
  | succ fuel ih =>
    by_cases hn : n = 0
    · subst hn; rfl
    · have hd : n % 10 < 10 := Nat.mod_lt _ (by decide)
      rw [decimalUp, if_neg hn, List.reverse_cons, readDigits_append, ih _ (by rw [Nat.pow_succ] at h; omega)]
      simp only [Option.bind_some, readDigits, hexDigit_showHexDigit (by omega : n % 10 < 16), hd, if_true]
      congr 1
      omega

theorem decimalUp_plain {fuel n : Nat} {ch : Char} (h : ch ∈ decimalUp fuel n) : ch ∉ [' ', ',', '\'', 'x'] := by
  induction fuel generalizing n with
  | zero => simp [decimalUp] at h
  | succ fuel ih =>
    unfold decimalUp at h
    split at h
    · simp at h
    · rcases List.mem_cons.1 h with rfl | h
      · exact showHexDigit_plain (Nat.mod_lt _ (by decide))
      · exact ih h

theorem showNat_plain {n : Nat} {ch : Char} (h : ch ∈ showNat n) : ch ∉ [' ', ',', '\'', 'x'] := by
  unfold showNat at h
  split at h
  · simp only [List.mem_singleton] at h; subst h; decide
  · exact decimalUp_plain (List.mem_reverse.1 h)

theorem showNat_ne_nil (n : Nat) : showNat n ≠ [] := by
  unfold showNat
  split
  · simp
  · rename_i h; simp [decimalUp, h]

theorem readDigits_showNat (n : Nat) : readDigits 10 0 (showNat n) = some n := by
  unfold showNat
  split
  · subst_vars; rfl
  · refine readDigits_decimalUp _ _ (Nat.lt_of_lt_of_le Nat.lt_log2_self (Nat.pow_le_pow_left (by decide) _))

/-- Characters that are neither quotes nor `x` are read in decimal. -/
theorem readNumber_plain {cs : List Char} (hne : cs ≠ []) (h : ∀ ch ∈ cs, ch ∉ [' ', ',', '\'', 'x']) :
    readNumber cs = readDigits 10 0 cs := by
  unfold readNumber
  split
  · exact absurd rfl hne
  · exact absurd (h 'x' (by simp)) (by decide)
  · exact absurd (h '\'' (by simp)) (by decide)
  · rfl

theorem readNumber_showNat (n : Nat) : readNumber (showNat n) = some n := by
  rw [readNumber_plain (showNat_ne_nil n) fun _ => showNat_plain, readDigits_showNat]

theorem readNumber_showWord {n : Nat} (h : n < 2 ^ 32) : readNumber (showWord n) = some n := by
  have hd (k : Nat) : hexDigit (showHexDigit (n / 16 ^ k % 16)) = some (n / 16 ^ k % 16) :=
    hexDigit_showHexDigit (Nat.mod_lt _ (by decide))
  have hlt (k : Nat) : n / 16 ^ k % 16 < 16 := Nat.mod_lt _ (by decide)
  simp only [showWord, List.range, List.range.loop, List.map_cons, List.map_nil, List.cons_append, List.nil_append,
    readNumber, readDigits, hd, hlt, if_true, Option.some.injEq]
  omega

/-! ## Blanks and commas -/

/-- Text that begins and ends with something else than a blank has no blanks to take off. -/
theorem trim_of_ends {cs : List Char} (hh : cs.head? ≠ some ' ') (hl : cs.getLast? ≠ some ' ') : trim cs = cs := by
  have keep : ∀ xs : List Char, xs.head? ≠ some ' ' → xs.dropWhile (· == ' ') = xs := by
    intro xs hx
    cases xs with
    | nil => rfl
    | cons a xs => simp at hx; simp [hx]
  rw [trim, keep cs hh, keep _ (by rwa [List.head?_reverse]), List.reverse_reverse]

theorem trim_blank (cs : List Char) : trim (' ' :: cs) = trim cs := rfl

theorem trim_of_no_blank {cs : List Char} (h : ' ' ∉ cs) : trim cs = cs :=
  trim_of_ends (fun hc => h (List.mem_of_head? hc)) fun hc => h (List.mem_of_getLast? hc)

/-- A character that is no quote is a comma or belongs to the first piece. -/
theorem splitCommas_cons {a : Char} (h : a ≠ '\'') (cs : List Char) :
    splitCommas (a :: cs) = if a = ',' then [] :: splitCommas cs else beforeFirst [a] (splitCommas cs) := by
  rw [splitCommas]
  rintro ch rest rfl -
  exact h rfl

/-- A character in quotes belongs to the first piece, whatever it is. -/
theorem splitCommas_quoted (ch : Char) (rest : List Char) :
    splitCommas ('\'' :: ch :: '\'' :: rest) = beforeFirst ['\'', ch, '\''] (splitCommas rest) := by
  rw [splitCommas]

theorem splitCommas_plain {cs : List Char} (h : ',' ∉ cs) (hq : '\'' ∉ cs) : splitCommas cs = [cs] := by
  induction cs with
  | nil => rfl
  | cons a cs ih =>
    simp only [List.mem_cons, not_or] at h hq
    simp [splitCommas_cons (Ne.symm hq.1), Ne.symm h.1, ih h.2 hq.2, beforeFirst]

theorem splitCommas_comma {cs rest : List Char} (h : ',' ∉ cs) (hq : '\'' ∉ cs) :
    splitCommas (cs ++ ',' :: rest) = cs :: splitCommas rest := by
  induction cs with
  | nil => simp [splitCommas_cons]
  | cons a cs ih =>
    simp only [List.mem_cons, not_or] at h hq
    simp [splitCommas_cons (Ne.symm hq.1), Ne.symm h.1, ih h.2 hq.2, beforeFirst]

/-! ## Options -/

theorem Opt.text_plain (o : Opt) : ' ' ∉ o.text ∧ ',' ∉ o.text ∧ '\'' ∉ o.text := by
  cases o with
  | check => decide
  | step s | len s =>
    have h (ch : Char) (hc : ch ∈ [' ', ',', '\'', 'x']) : ch ∉ showNat s := fun hm => showNat_plain hm hc
    simp [Opt.text, h]

theorem readOpt_text (o : Opt) : readOpt o.text = some o := by
  unfold readOpt
  rw [trim_of_no_blank o.text_plain.1]
  cases o <;> simp [Opt.text, readNumber_showNat]

theorem readOpt_blank (cs : List Char) : readOpt (' ' :: cs) = readOpt cs := by
  unfold readOpt
  rw [trim_blank]

theorem beforeFirst_ne_nil (cs : List Char) (ps : List (List Char)) : beforeFirst cs ps ≠ [] := by
  cases ps <;> simp [beforeFirst]

theorem splitCommas_ne_nil (cs : List Char) : splitCommas cs ≠ [] := by
  unfold splitCommas
  split
  · simp
  · exact beforeFirst_ne_nil _ _
  · split
    · simp
    · exact beforeFirst_ne_nil _ _

theorem splitCommas_blank (cs : List Char) :
    ∃ p ps, splitCommas cs = p :: ps ∧ splitCommas (' ' :: cs) = (' ' :: p) :: ps := by
  obtain ⟨p, ps, h⟩ := List.exists_cons_of_ne_nil (splitCommas_ne_nil cs)
  exact ⟨p, ps, h, by simp [splitCommas_cons, h, beforeFirst]⟩

/-- Printed options are read back. -/
theorem readOpts_showOpts (o : Opt) (opts : List Opt) :
    readOpts (splitCommas (showOpts (o :: opts))) = some (o :: opts) := by
  induction opts generalizing o with
  | nil => simp [showOpts, splitCommas_plain o.text_plain.2.1 o.text_plain.2.2, readOpts, readOpt_text]
  | cons o' rest ih =>
    obtain ⟨p, ps, hp, hb⟩ := splitCommas_blank (showOpts (o' :: rest))
    have hrest := ih o'
    rw [hp] at hrest
    simp only [readOpts] at hrest
    rw [showOpts, List.append_assoc, List.cons_append, List.cons_append, List.nil_append,
      splitCommas_comma o.text_plain.2.1 o.text_plain.2.2, hb]
    simp only [readOpts, readOpt_text, readOpt_blank]
    cases hq : readOpt p with
    | none => simp [hq] at hrest
    | some q =>
      cases hr : readOpts ps with
      | none => simp [hq, hr] at hrest
      | some qs => simpa [hq, hr] using hrest

/-! ## Lines -/

/-- Printed options begin and end with something else than a blank. -/
theorem showOpts_ends (o : Opt) (opts : List Opt) :
    (showOpts (o :: opts)).head? ≠ some ' ' ∧ (showOpts (o :: opts)).getLast? ≠ some ' ' := by
  have nonempty (o : Opt) : o.text ≠ [] := by cases o <;> simp [Opt.text]
  have first (o : Opt) (tail : List Char) : (o.text ++ tail).head? ≠ some ' ' := by
    rw [List.head?_append_of_ne_nil _ (nonempty o)]
    exact fun h => o.text_plain.1 (List.mem_of_head? h)
  induction opts generalizing o with
  | nil =>
    exact ⟨by simpa [showOpts] using first o [], fun h => o.text_plain.1 (List.mem_of_getLast? (by simpa [showOpts] using h))⟩
  | cons o' rest ih =>
    refine ⟨by rw [showOpts, List.append_assoc]; exact first o _, ?_⟩
    have hne : showOpts (o' :: rest) ≠ [] := by
      cases rest with
      | nil => exact nonempty o'
      | cons o'' rest => simp [showOpts]
    rw [showOpts, List.getLast?_append_of_ne_nil _ hne]
    exact (ih o').2

/-- A line is read as its first word and the rest. -/
theorem readLine_split {name rest : List Char} (hn : name ≠ []) (hb : ' ' ∉ name)
    (hh : rest.head? ≠ some ' ') (hl : rest.getLast? ≠ some ' ') (hr : rest ≠ []) :
    readLine (name ++ [' '] ++ rest) = readWords name rest := by
  have hne : ∀ ch ∈ name, (ch != ' ') = true := fun ch hc => by
    simp only [bne_iff_ne, ne_eq]; rintro rfl; exact hb hc
  have htrim : trim (name ++ [' '] ++ rest) = name ++ ' ' :: rest := by
    rw [List.append_assoc]
    refine trim_of_ends ?_ ?_
    · rw [List.head?_append_of_ne_nil _ hn]; exact fun h => hb (List.mem_of_head? h)
    · rw [← List.append_assoc, List.getLast?_append_of_ne_nil _ hr]; exact hl
  have htake : (name ++ ' ' :: rest).takeWhile (· != ' ') = name := by
    rw [List.takeWhile_append_of_pos hne]; simp
  have hdrop : (name ++ ' ' :: rest).dropWhile (· != ' ') = ' ' :: rest := by
    rw [List.dropWhile_append_of_pos hne]; simp
  rw [readLine, htrim, htake, hdrop, trim_blank, trim_of_ends hh hl]

/-- A mnemonic's spelling names it alone. -/
theorem Op.find_name (op : Op) : Op.all.find? (fun o => o.name == op.name) = some op := by cases op <;> decide

theorem Op.name_plain (op : Op) : op.name ≠ [] ∧ ' ' ∉ op.name ∧ op.name ≠ ['.', 'w', 'o', 'r', 'd'] := by
  cases op <;> decide

theorem showNat_ends (n : Nat) : (showNat n).head? ≠ some ' ' ∧ (showNat n).getLast? ≠ some ' ' :=
  have h : ' ' ∉ showNat n := fun hm => showNat_plain hm (by simp)
  ⟨fun hc => h (List.mem_of_head? hc), fun hc => h (List.mem_of_getLast? hc)⟩

theorem readLine_text_cmd {op : Op} (hi : op.takesIndex = false) (opts : List Opt) :
    readLine (Line.cmd op opts).text = some (.cmd op opts) := by
  obtain ⟨hn, hb, hw⟩ := op.name_plain
  cases opts with
  | nil => cases op <;> first | decide | simp [Op.takesIndex] at hi
  | cons o opts =>
    obtain ⟨hh, hl⟩ := showOpts_ends o opts
    have hr : showOpts (o :: opts) ≠ [] := by
      intro h
      have := readOpts_showOpts o opts
      simp [h, splitCommas, readOpts, readOpt, trim] at this
    rw [Line.text, readLine_split hn hb hh hl hr, readWords, if_neg hw, Op.find_name]
    simp [hi, hr, readOpts_showOpts]

theorem readLine_text_index {op : Op} (hi : op.takesIndex = true) (i : Nat) :
    readLine (Line.index op i).text = some (.index op i) := by
  obtain ⟨hn, hb, hw⟩ := op.name_plain
  obtain ⟨hh, hl⟩ := showNat_ends i
  rw [Line.text, readLine_split hn hb hh hl (showNat_ne_nil i), readWords, if_neg hw, Op.find_name]
  simp [hi, readNumber_showNat]

theorem readLine_text_word {n : Nat} (h : n < 2 ^ 32) : readLine (Line.word n).text = some (.word n) := by
  have hr := readNumber_showWord h
  have hx (k : Nat) : showHexDigit (n / 16 ^ k % 16) ≠ ' ' := fun hc => by
    have := hexDigit_showHexDigit (Nat.mod_lt (n / 16 ^ k) (by decide : 0 < 16))
    rw [hc] at this
    exact absurd this (by simp [hexDigit])
  have hsplit : (Line.word n).text = ['.', 'w', 'o', 'r', 'd'] ++ [' '] ++ showWord n := rfl
  rw [hsplit, readLine_split (by simp) (by decide) (by simp [showWord])
    (by simpa [showWord, List.range, List.range.loop] using hx 0) (by simp [showWord]), readWords, if_pos rfl, hr]
  rfl

end Sys2Proof.Machine.Asm
end

