-- ==== Sys2Proof/Tests/Slice0.lean ====
section
/-! SUPPORT. The model's own tests: words written out from the spec's encodings, the vectors of
spec/95_test_vectors.md (and of the rules' own examples), and a witness for the hypotheses of every statement that
has some. -/

namespace Sys2Proof.Tests

open Sys2Proof Sys2Proof.Machine

/-! ## WellFormed refuses a term whose operand does not fit its field -/

theorem test_wf_refuses_encInt_step : ¬ (Instr.encInt false false 256 0).WellFormed := by decide
theorem test_wf_refuses_encInt_len : ¬ (Instr.encInt false true 0 65536).WellFormed := by decide
theorem test_wf_refuses_encBytes_step : ¬ (Instr.encBytes false false 256 0).WellFormed := by decide
theorem test_wf_refuses_encBytes_len : ¬ (Instr.encBytes false true 0 65536).WellFormed := by decide
theorem test_wf_refuses_decStr_len : ¬ (Instr.decStr false true 65536).WellFormed := by decide
theorem test_wf_refuses_unpack_len : ¬ (Instr.unpack true 65536).WellFormed := by decide
theorem test_wf_refuses_symfor_index : ¬ (Instr.symfor 256).WellFormed := by decide
theorem test_wf_refuses_valfor_index : ¬ (Instr.valfor 256).WellFormed := by decide
theorem test_wf_takes_the_largest : (Instr.encInt true true 255 65535).WellFormed := by decide

/-! ## Decoding, bit by bit from 30_encoding.md R97 (the letters' places), with ignored bits set in some -/

theorem test_decode_nop : decode 0b00000000000000000000000000000000 = .nop := by decide
theorem test_decode_nop_ignored : decode 0b11111111111111111111111111110000 = .nop := by decide
theorem test_decode_encInt : decode 0b00000001001011000000001101000001 = .encInt true false 3 300 := by decide
theorem test_decode_encBytes : decode 0b00000000000001011111111110010001 = .encBytes false true 255 5 := by decide
theorem test_decode_encBadsel_2 : decode 0b00000000000000000000000000100001 = .encBadsel := by decide
theorem test_decode_encBadsel_3 : decode 0b11111111111111111111111111110001 = .encBadsel := by decide
theorem test_decode_decInt : decode 0b11111111111111111111111111000010 = .decInt true := by decide
theorem test_decode_decStr : decode 0b10000000000000011111111111010010 = .decStr true true 32769 := by decide
theorem test_decode_decBadsel : decode 0b00000000000000000000000000110010 = .decBadsel := by decide
theorem test_decode_pack : decode 0b11111111111111111111111111110011 = .pack := by decide
theorem test_decode_unpack : decode 0b00000000000001001111111111110100 = .unpack true 4 := by decide
theorem test_decode_symfor : decode 0b11111111001001001111111111110101 = .symfor 36 := by decide
theorem test_decode_valfor : decode 0b00000000011011000000000000000110 = .valfor 0x6C := by decide
theorem test_decode_chksum : decode 0b11111111111111111111111111110111 = .chksum := by decide
theorem test_decode_reserved_8 : decode 0b00000000000000000000000000001000 = .reserved := by decide
theorem test_decode_reserved_F : decode 0b11111111111111111111111111111111 = .reserved := by decide
theorem test_decodeBytes_little_endian : decodeBytes [0xD1, 0x02, 0x0C, 0x00, 0xAA] = .ok (.encBytes true true 2 12, [0xAA]) := by
  decide
theorem test_decodeBytes_truncated : decodeBytes [0x01, 0x00, 0x00] = .error .truncated := by decide

/-! ## Small states -/

/-- What a step left, if it left anything. -/
def after (o : Host.Outcome State Fault Refusal) : Option State :=
  match o with
  | .next t => some t
  | .fault _ => none
  | .refused _ => none

/-- The step completed without an error. -/
def succeeds (o : Host.Outcome State Fault Refusal) : Bool :=
  match o with
  | .next t => !t.status.err
  | .fault _ => false
  | .refused _ => false

theorem succeeds_next {o : Host.Outcome State Fault Refusal} (h : succeeds o = true) :
    ∃ t, o = .next t ∧ t.status.err = false := by
  cases o with
  | next t => exact ⟨t, rfl, by simpa [succeeds] using h⟩
  | fault f => simp [succeeds] at h
  | refused r => simp [succeeds] at h

/-- A step went on to a state with a property. -/
def leaves (o : Host.Outcome State Fault Refusal) (p : State → Bool) : Bool :=
  match o with
  | .next t => p t
  | .fault _ => false
  | .refused _ => false

theorem leaves_next {o : Host.Outcome State Fault Refusal} {p : State → Bool} (h : leaves o p = true) :
    ∃ t, o = .next t ∧ p t = true := by
  cases o with
  | next t => exact ⟨t, rfl, h⟩
  | fault f => simp [leaves] at h
  | refused r => simp [leaves] at h

/-- `r` has the parameters and the symbol string of `t`. -/
def sameText (r t : State) : Bool :=
  decide (r.cfg = t.cfg ∧ r.symLen = t.symLen ∧ r.status.err = false ∧ t.status.err = false ∧
    ∀ k < t.symLen.toNat, Mem.get r.mem (0x400 + k) = Mem.get t.mem (0x400 + k))

/-- Reset, with `val(VALUE) = n`. -/
def withValue (n : Nat) : State := State.reset.setValue n

/-- Reset, with a byte sequence in BYTE_BUF. -/
def withBytes (bs : List Byte) : State := State.reset.setByteBuf bs

/-- Reset, with a symbol string in SYM_BUF. -/
def withText (bs : List Byte) : State := State.reset.setSymbols bs

/-- The string a state holds. -/
def textOf (s : State) : Except Fault (List Byte) := Mem.readBytes s.mem symBufBase s.symLen.toNat

/-- The byte sequence a state holds. -/
def bytesOf (s : State) : Except Fault (List Byte) := Mem.readBytes s.mem byteBufBase s.byteLen.toNat

/-- STATUS and SYM_BUF's string after a command. -/
def endText (o : Host.Outcome State Fault Refusal) : Option (Word × Option (List Byte)) :=
  (after o).map fun t => (t.status.word, (textOf t).toOption)

/-- STATUS, ERR_POS, CHK and val(VALUE) after a command. -/
def endValue (o : Host.Outcome State Fault Refusal) : Option (Word × Nat × Word × Nat) :=
  (after o).map fun t => (t.status.word, t.errPos.toNat, t.chk.word, t.value)

/-- STATUS, the byte sequence and val(VALUE) after a command. -/
def endBytes (o : Host.Outcome State Fault Refusal) : Option (Word × Option (List Byte) × Nat) :=
  (after o).map fun t => (t.status.word, (bytesOf t).toOption, t.value)

/-- STATUS and RESULT after a command. -/
def endResult (o : Host.Outcome State Fault Refusal) : Option (Word × Word) :=
  (after o).map fun t => (t.status.word, t.result)

/-! ## One step of each command, from spec/95_test_vectors.md Part 2 -/

/-- "1-6-JD": 42_encoder.md R163, no separator before the check symbol. -/
theorem test_encInt_check_step1 : endText (exec (.encInt true false 1 0) (withValue 1234)) =
    some (0x2, some [0x31, 0x2D, 0x36, 0x2D, 0x4A, 0x44]) := by decide
/-- STEP=2, LEN=6 for 1234 is unreachable: LENGTH_TOO_SMALL. -/
theorem test_encInt_unreachable_length : endText (exec (.encInt false true 2 6) (withValue 1234)) =
    some (0x206, some []) := by decide
/-- [0x41, 0x42, 0x43] CHECK, STEP=2 gives "4-6G-J1T". -/
theorem test_encBytes_check_step2 : endText (exec (.encBytes true false 2 0) (withBytes [0x41, 0x42, 0x43])) =
    some (0x2, some [0x34, 0x2D, 0x36, 0x47, 0x2D, 0x4A, 0x31, 0x54]) := by decide
/-- BYTE_LEN = 33 with VB = 32: CAPACITY_EXCEEDED. -/
theorem test_encBytes_too_long : endText (exec (.encBytes false false 0 0) { State.reset with byteLen := 33 }) =
    some (0x706, some []) := by decide
theorem test_encBadsel : endText (exec .encBadsel (withValue 1234)) = some (0x106, some []) := by decide
/-- "16JD-" with CHECK: the trailing separator is the check symbol, INVALID_CHARACTER at 4. -/
theorem test_decInt_trailing_separator :
    endValue (exec (.decInt true) (withText [0x31, 0x36, 0x4A, 0x44, 0x2D])) = some (0x306, 4, 0, 0) := by decide
/-- "-16J" with CHECK: CHECKSUM_MISMATCH, CHK 0x112. -/
theorem test_decInt_mismatch :
    endValue (exec (.decInt true) (withText [0x2D, 0x31, 0x36, 0x4A])) = some (0x406, 0, 0x112, 0) := by decide
/-- "16JD" with CHECK, LEN=4: BYTE_BUF [0xD2, 0x04, 0, 0]. -/
theorem test_decStr_check_len4 : endBytes (exec (.decStr true true 4) (withText [0x31, 0x36, 0x4A, 0x44])) =
    some (0x2, some [0xD2, 0x04, 0x00, 0x00], 1234) := by decide
/-- "80" with LEN=1: LENGTH_TOO_SMALL, VALUE unchanged. -/
theorem test_decStr_len_too_small : endBytes (exec (.decStr false true 1) (withText [0x38, 0x30])) =
    some (0x206, some [], 0) := by decide
theorem test_decBadsel : endValue (exec .decBadsel (withText [0x41, 0x2A])) = some (0x506, 0, 0, 0) := by decide
theorem test_pack : endValue (exec .pack (withBytes [1, 2, 3, 4, 5])) = some (0x2, 0, 0, 0x0504030201) := by decide
theorem test_unpack_natural : endBytes (exec (.unpack false 0) (withValue 1234)) =
    some (0x2, some [0xD2, 0x04], 1234) := by decide
theorem test_unpack_too_small : endBytes (exec (.unpack true 1) (withValue 256)) = some (0x206, some [], 256) := by
  decide
theorem test_symfor_36 : endResult (exec (.symfor 36) State.reset) = some (0x2, 0x55) := by decide
theorem test_symfor_37 : endResult (exec (.symfor 37) { State.reset with result := 7 }) = some (0x806, 7) := by decide
theorem test_valfor_u : endResult (exec (.valfor 0x75) State.reset) = some (0x2, 0x24) := by decide
theorem test_valfor_dash : endResult (exec (.valfor 0x2D) State.reset) = some (0x2, 0x100) := by decide
theorem test_chksum : endResult (exec .chksum (withValue (10 ^ 20))) = some (0x2, 0x541A) := by decide
theorem test_nop : endValue (exec .nop (State.reset.accept 0x10)) = some (0x2, 0, 0, 0) := by decide
theorem test_reserved : endValue (exec .reserved (State.reset.accept 0xFFFFFFFF)) = some (0x606, 0, 0, 0) := by decide
/-- PACK over an unwritten byte stops (93_implementation_defined.md U1). -/
theorem test_pack_unwritten : (match exec .pack { State.reset with byteLen := 1 } with
    | .fault f => f == .uninitRead 0x200
    | .next _ => false
    | .refused _ => false) = true := by decide

/-! ## The bus and the step, from spec/95_test_vectors.md Part 2 -/

/-- The response and STATUS after one host access. -/
def endAccess (o : Host.Outcome State Fault Refusal) : Option (Option Response × Word) :=
  (after o).map fun t => (t.resp, t.status.word)

theorem test_read_cfg : endAccess (State.reset.serve (.read 0x01C .w32)) = some (some (.data 0x00200100), 0) := by decide
theorem test_read_unmapped : endAccess (State.reset.serve (.read 0x020 .w32)) = some (some .busError, 0) := by decide
theorem test_read_past_value : endAccess (State.reset.serve (.read 0x120 .w32)) = some (some .busError, 0) := by decide
theorem test_write_byte : endAccess (State.reset.serve (.write 0x400 .w8 1)) = some (some .busError, 0) := by decide
theorem test_write_while_busy :
    endAccess ((State.reset.accept 2).serve (.write 0x014 .w32 7)) = some (some .ok, 0x9) := by decide
theorem test_status_w1c : endAccess ({ State.reset with status := ⟨false, true, false, true, 0⟩ }.serve
    (.write 0x004 .w32 8)) = some (some .ok, 0x2) := by decide
/-- SYM_BUF "16JD" reads 0x444A3631 (program P1). -/
theorem test_read_sym_buf : endAccess ((withText [0x31, 0x36, 0x4A, 0x44]).serve (.read 0x400 .w32)) =
    some (some (.data 0x444A3631), 0) := by decide
theorem test_fetch_runs_symfor : endResult (step (State.reset.withFetchWord 32 0x00120005)) = some (0x2, 0x4A) := by
  decide
theorem test_decodeTableWord : decodeTableWord 32 0x000C02D1 = some (.encBytes true true 2 12) := by decide

/-! ## Command text and host scripts (30_encoding.md R98, R99) -/

/-- `ENC.BYTES CHECK, STEP=2, LEN=12` is 0x000C02D1 (program P3). -/
theorem test_assemble_text : Asm.assembleText
    ['E', 'N', 'C', '.', 'B', 'Y', 'T', 'E', 'S', ' ', 'C', 'H', 'E', 'C', 'K', ',', ' ', 'S', 'T', 'E', 'P', '=', '2',
      ',', ' ', 'L', 'E', 'N', '=', '1', '2'] = some 0x000C02D1 := by decide
/-- VALFOR 'u' is 0x00750006 (program P5). -/
theorem test_assemble_char : Asm.assembleText ['V', 'A', 'L', 'F', 'O', 'R', ' ', '\'', 'u', '\''] = some 0x00750006 := by
  decide
/-- A comma in quotes is its ASCII byte 44 and separates nothing: `ENC.INT STEP=',', LEN=','`. -/
theorem test_assemble_quoted_comma : Asm.assembleText
    ['E', 'N', 'C', '.', 'I', 'N', 'T', ' ', 'S', 'T', 'E', 'P', '=', '\'', ',', '\'', ',', ' ', 'L', 'E', 'N', '=', '\'',
      ',', '\''] = some 0x002C2C81 := by decide
/-- Each option may be given at most once. -/
theorem test_assemble_twice : Asm.assemble (.cmd .encInt [.check, .check]) = none := by decide
theorem test_disassemble_word : Asm.disassemble 0x00000010 = .word 0x10 := by decide
/-- The text of 0x000C02D1 is its line of program P3. -/
theorem test_disassemble_text : (Asm.disassemble 0x000C02D1).text =
    ['E', 'N', 'C', '.', 'B', 'Y', 'T', 'E', 'S', ' ', 'C', 'H', 'E', 'C', 'K', ',', ' ', 'S', 'T', 'E', 'P', '=', '2',
      ',', ' ', 'L', 'E', 'N', '=', '1', '2'] := by decide
theorem test_disassemble_mnemonic : Asm.disassemble 0x00040084 = .cmd .unpack [.len 4] := by decide
/-- WRBYTES of three bytes writes one word with a zero byte on top, then BYTE_LEN (program P3). -/
theorem test_wrBytes : Script.wrBytes Config.reference [0x41, 0x42, 0x43] =
    [.access (.write 0x200 .w32 0x00434241), .access (.write 0x018 .w32 3)] := by decide
/-- WRVAL writes VB/4 words. -/
theorem test_wrVal_length : (Script.wrVal Config.reference 1234).length = 8 := by decide

/-! ## Witnesses: concrete states and operands that meet the hypotheses of the statements -/

theorem witness_DecodeFollowsTheTableOnEveryWord :
    (0xB1#32).extractLsb' 0 4 = 0x1 ∧ 2 ≤ ((0xB1#32).extractLsb' 4 2).toNat ∧ 8 ≤ ((0x8#32).extractLsb' 0 4).toNat := by
  decide
theorem witness_DecodeOfEncodeGivesTheCommandBack : (Instr.encInt true true 255 65535).WellFormed := by decide
theorem witness_EncodeOfDecodeClearsIgnoredBits :
    0x00000010 &&& (decode 0).usedBits = (0 : Word) &&& (decode 0).usedBits := by decide
theorem witness_IgnoredBitsChangeNoResult :
    0xFFFFFFF0 &&& (decode State.reset.cmd).usedBits = State.reset.cmd &&& (decode State.reset.cmd).usedBits := by decide
theorem witness_DisassembledLinesAssembleBack :
    List.Perm [Asm.Opt.check, .len 4] [.len 4, .check] ∧
    (0x00000010 : Word) &&& ~~~(decode 0x00000010).usedBits ≠ 0 ∧
    (0x00040084 : Word) &&& ~~~(decode 0x00040084).usedBits = 0 ∧ decode 0x00040084 = .unpack true 4 :=
  ⟨List.Perm.swap _ _ [], by decide, by decide, by decide⟩
theorem witness_IdleCmdWriteAccepts : State.reset.status.busy = false := by decide
theorem witness_StepRunsTheCommandInFlight :
    ((State.reset.accept 7).cfg.Legal ∧ (State.reset.accept 7).status.busy = true ∧
      { State.reset.accept 7 with sched := [.engine] }.sched = .engine :: [] ∧ (State.reset.accept 7).sched = []) ∧
    (State.reset.status.busy = false ∧ State.reset.sched = [] ∧ State.reset.host = []) := by decide
theorem witness_CompletionEndsTheCommand : ∃ t, exec .chksum (withValue 36) = .next t ∧ t.status.err = false :=
  succeeds_next (by decide)
theorem witness_NopOnlyReportsSuccess :
    (State.reset.accept 0).Inv ∧ (State.reset.accept 0).status.busy = true ∧ (0xFFFFFFF0 : Word) &&& 0x0000000F = 0 := by
  decide
theorem witness_ErrorRowsReportTheirError :
    (0x000000B1 : Word) &&& 0x0000002F = 0x00000021 ∧ (0x00000032 : Word) &&& 0x0000002F = 0x00000022 ∧
    (0x0000000F : Word) &&& 0x00000008 = 0x00000008 := by decide
theorem witness_RaiseWritesExactlyTheReport :
    CmdError.checksumMismatch 36 0 = .checksumMismatch 36 0 ∧ (∀ pos, CmdError.capacityExceeded ≠ .invalidCharacter pos) := by
  simp
theorem witness_RaisedCodesAreTheCommandsOwn : State.reset.status.err = false ∧
    ∃ t, exec (.symfor 37) State.reset = .next t ∧ t.status.err = true := ⟨rfl, _, rfl, rfl⟩
theorem witness_ErrorsLeaveNoPartialResults : State.reset.status.err = false ∧
    ∃ t, exec .reserved State.reset = .next t ∧ t.status.err = true := ⟨rfl, _, rfl, rfl⟩
theorem witness_CommandsChangeOnlyTheirOutputs :
    ∃ t, exec (.unpack true 32) (withValue 255) = .next t ∧ t.status.err = false := succeeds_next (by decide)
theorem witness_DecTableHasTheEntriesOfR31 : (0x30 ≤ (0x39 : Nat) ∧ (0x39 : Nat) ≤ 0x39) ∧ 0x7F ≤ (255 : Fin 256).val := by
  decide
theorem witness_TablesFoldCaseAndAreInverse : (25 : Nat) < 26 ∧ sym 36 = sym 36 := by decide
theorem witness_SymforReadsTheTableOrReportsRange : (36 : Nat) < 37 ∧ (36 : Fin 37).val = 36 := by decide
theorem witness_ValforReportsClassAndValue : cls (BitVec.ofNat 8 0x75) = .value 36 ∧
    cls (BitVec.ofNat 8 0x2D) = .skip ∧ cls (BitVec.ofNat 8 255) = .invalid := by decide
theorem witness_IntegerToBytesShiftsAndMasks : (0 : Nat) < 1 ∧ (1 : Nat) ≠ 0 := by decide
theorem witness_ByteSequencesRoundTrip : nbytes 256 ≤ 2 ∧ nbytes 0 ≤ 0 := by decide
theorem witness_PackLoadsTheByteSequence :
    ({ State.reset with byteLen := 33 } : State).cfg.vb < ({ State.reset with byteLen := 33 } : State).byteLen.toNat ∧
    [0xD2, 0x04].length = (withBytes [0xD2, 0x04]).byteLen.toNat ∧
    (withBytes [0xD2, 0x04]).byteLen.toNat ≤ (withBytes [0xD2, 0x04]).cfg.vb ∧
    Mem.Holds (withBytes [0xD2, 0x04]).mem byteBufBase [0xD2, 0x04] := by decide
/-- Words with ignored bits set that are SYMFOR, VALFOR, CHKSUM, PACK and UNPACK (30_encoding.md R97). -/
theorem witness_row_words : (0xFFFFFFF5 : Word) &&& 0x0000000F = 0x00000005 ∧ (0xFFFFFFF6 : Word) &&& 0x0000000F = 0x00000006 ∧
    (0xFFFFFFF7 : Word) &&& 0x0000000F = 0x00000007 ∧ (0xFFFFFFF3 : Word) &&& 0x0000000F = 0x00000003 ∧
    (0xFFFFFFF4 : Word) &&& 0x0000000F = 0x00000004 := by decide
theorem witness_UnpackWritesTheBytesOfValue :
    (withValue 256).cfg.vb < 33 ∧ (1 ≤ (withValue 256).cfg.vb ∧ 1 < nbytes (withValue 256).value) ∧
    (2 ≤ (withValue 256).cfg.vb ∧ nbytes (withValue 256).value ≤ 2) ∧ 2 = nbytes (withValue 256).value := by decide
theorem witness_DigitsAreTheBase32Expansion : (0 : Nat) = 0 ∧ (32 : Nat) ≠ 0 := by decide
theorem witness_SeparatorsStandEveryStepDigitsFromTheRight :
    0 < (2 : Nat) ∧ 0 < [1, 6, 18].length ∧ 0 < [1, 6, 18].length - 1 ∧ ([1, 6, 18].length - 1 - 0) % 2 = 0 := by decide
theorem witness_EncIntWritesItsText :
    ((digits (withValue 1234).value).length ≤ 5 ∧ total 0 false 5 = 5) ∧ 3 = (digits (withValue 1234).value).length ∧
    total 0 false 5 ≤ (withValue 1234).cfg.symCap := by decide
theorem witness_EncBytesWritesItsText :
    [0xD2, 0x04].length = (withBytes [0xD2, 0x04]).byteLen.toNat ∧
    (withBytes [0xD2, 0x04]).byteLen.toNat ≤ (withBytes [0xD2, 0x04]).cfg.vb ∧
    Mem.Holds (withBytes [0xD2, 0x04]).mem 0x200 [0xD2, 0x04] ∧
    ((digits (bytesToInteger [0xD2, 0x04])).length ≤ 5 ∧ total 0 false 5 = 5) ∧
    total 0 false 5 ≤ (withBytes [0xD2, 0x04]).cfg.symCap := by decide
theorem witness_FixedLengthPadsOrReportsTooSmall_short :
    2 < (digits (withValue 1234).value).length + false.toNat := by decide
theorem witness_FixedLengthPadsOrReportsTooSmall_unreachable :
    ¬ ∃ D, (digits (withValue 1234).value).length ≤ D ∧ total 2 false D = 6 := by
  rintro ⟨D, -, h⟩
  simp [total, seps] at h
  omega
theorem witness_FixedLengthPadsOrReportsTooSmall_fits :
    (digits (withValue 1234).value).length ≤ 4 ∧ total 2 true 4 = 6 ∧ 6 ≤ (withValue 1234).cfg.symCap := by decide
theorem witness_EncodeReportsItsErrorsInOrder_bytes :
    ({ State.reset with byteLen := 33 } : State).cfg.vb < ({ State.reset with byteLen := 33 } : State).byteLen.toNat ∧
    [0xD2, 0x04].length = (withBytes [0xD2, 0x04]).byteLen.toNat ∧
    Mem.Holds (withBytes [0xD2, 0x04]).mem 0x200 [0xD2, 0x04] := by decide
theorem witness_EncodeReportsItsErrorsInOrder_unreachable :
    ¬ ∃ D, (digits (bytesToInteger [0xD2, 0x04])).length ≤ D ∧ total 2 false D = 6 := by
  rintro ⟨D, -, h⟩
  simp [total, seps] at h
  omega
theorem witness_EncodeReportsItsErrorsInOrder_capacity :
    (digits (withValue 1234).value).length ≤ 257 ∧ total 0 false 257 = 257 ∧ (withValue 1234).cfg.symCap < 257 := by
  decide
theorem witness_EncodeReportsItsErrorsInOrder_bytes_capacity :
    (digits (bytesToInteger [0xD2, 0x04])).length ≤ 257 ∧ total 0 false 257 = 257 ∧
    (withBytes [0xD2, 0x04]).cfg.symCap < 257 := by decide
theorem witness_EncodeWithoutLengthAlwaysFits : State.reset.cfg.Legal ∧ 2 ^ 256 - 1 < 2 ^ State.reset.cfg.valueBits ∧
    (withBytes [0xD2, 0x04]).cfg.Legal ∧ [0xD2, 0x04].length = (withBytes [0xD2, 0x04]).byteLen.toNat ∧
    Mem.Holds (withBytes [0xD2, 0x04]).mem 0x200 [0xD2, 0x04] ∧
    Config.Legal { vb := 4, symCap := 16, base := 0x800 } ∧ Config.Legal { vb := 256, symCap := 1024, base := 0 } := by
  decide
theorem witness_DecIntAccumulatesTheDataSymbols_too_long :
    ({ State.reset with symLen := 257 } : State).cfg.symCap < ({ State.reset with symLen := 257 } : State).symLen.toNat := by
  decide
theorem witness_DecIntAccumulatesTheDataSymbols :
    [0x31, 0x2D, 0x6F].length = (withText [0x31, 0x2D, 0x6F]).symLen.toNat ∧
    (withText [0x31, 0x2D, 0x6F]).symLen.toNat ≤ (withText [0x31, 0x2D, 0x6F]).cfg.symCap ∧
    Mem.Holds (withText [0x31, 0x2D, 0x6F]).mem 0x400 [0x31, 0x2D, 0x6F] ∧
    (∀ b ∈ ([0x31, 0x2D, 0x6F] : List Byte), DataSymbol b) ∧
    symbolValue [0x31, 0x2D, 0x6F] < 2 ^ (withText [0x31, 0x2D, 0x6F]).cfg.valueBits := by decide
/-- "2" followed by 51 "0" is 2^256, the least value that does not fit the reference configuration. -/
theorem witness_DecIntAccumulatesTheDataSymbols_capacity :
    2 ^ (withText []).cfg.valueBits ≤ symbolValue (0x32 :: List.replicate 51 0x30) ∧
    (∀ b ∈ (0x32 :: List.replicate 51 0x30 : List Byte), DataSymbol b) := by decide
theorem witness_LowestInvalidPositionIsReported :
    (withText [0x31, 0x2A, 0x31]).symLen.toNat ≤ (withText [0x31, 0x2A, 0x31]).cfg.symCap ∧
    [0x31].length + true.toNat < (withText [0x31, 0x2A, 0x31]).symLen.toNat ∧
    Mem.Holds (withText [0x31, 0x2A, 0x31]).mem 0x400 ([0x31] ++ [0x2A]) ∧
    (∀ c ∈ ([0x31] : List Byte), DataSymbol c) ∧ BadInData 0x2A ∧ BadInData 0x20 ∧
    32 ≤ (withText [0x31, 0x2A, 0x31]).cfg.vb := by decide
theorem witness_CheckSymbolIsSplitAndVerified :
    State.reset.symLen = 0 ∧ 32 ≤ State.reset.cfg.vb ∧
    [0x31, 0x36, 0x4A].length + 1 = (withText [0x31, 0x36, 0x4A, 0x44]).symLen.toNat ∧
    Mem.Holds (withText [0x31, 0x36, 0x4A, 0x44]).mem 0x400 ([0x31, 0x36, 0x4A] ++ [0x44]) ∧
    (∀ b ∈ ([0x31, 0x36, 0x4A] : List Byte), DataSymbol b) ∧ cls 0x2D = .skip ∧ cls 0x20 = .invalid ∧
    cls 0x44 = .value 13 ∧ (13 : Fin 37).val = symbolValue [0x31, 0x36, 0x4A] % 37 ∧
    (14 : Fin 37).val ≠ symbolValue [0x31, 0x36, 0x4A] % 37 ∧
    2 ^ (withText []).cfg.valueBits ≤ symbolValue (0x32 :: List.replicate 51 0x30) := by decide
theorem witness_DecStrWritesValueAndBytes :
    [0x38, 0x30].length + [0x59].length = (withText [0x38, 0x30, 0x59]).symLen.toNat ∧
    Mem.Holds (withText [0x38, 0x30, 0x59]).mem 0x400 ([0x38, 0x30] ++ [0x59]) ∧
    (∀ b ∈ ([0x38, 0x30] : List Byte), DataSymbol b) ∧
    symbolValue [0x38, 0x30] < 2 ^ (withText [0x38, 0x30, 0x59]).cfg.valueBits ∧
    cls 0x59 = .value (30 : Fin 37) ∧ cls 0x2A = .value (32 : Fin 37) ∧ 1 < nbytes (symbolValue [0x38, 0x30]) ∧
    nbytes (symbolValue [0x38, 0x30]) ≤ 2 := by decide
/-- "80" is 256 and 256 mod 37 = 34, so its check symbol is "$". -/
theorem witness_DecStrWritesValueAndBytes_check : cls 0x24 = .value (checksum (symbolValue [0x38, 0x30])) := by decide
/-- 2^256 again, as DEC.STR's data, with a check symbol of any value. -/
theorem witness_DecStrWritesValueAndBytes_capacity :
    2 ^ (withText []).cfg.valueBits ≤ symbolValue (0x32 :: List.replicate 51 0x30) ∧
    (∀ b ∈ (0x32 :: List.replicate 51 0x30 : List Byte), DataSymbol b) ∧ cls 0x55 = .value 36 := by decide
theorem witness_DecodingAnEncodedValueGivesItBack : (withValue 1234).Inv ∧ (withValue 1234).status.err = false ∧
    ∃ t, exec (.encInt true true 2 6) (withValue 1234) = .next t ∧ t.status.err = false :=
  ⟨by decide, by decide, succeeds_next (by decide)⟩
/-- "16JD" placed in a state whose VALUE is 0 and whose BYTE_BUF is unwritten is the text of 1234 and of [0xD2, 0x04]. -/
theorem witness_DecodingAnEncodedValueGivesItBack_elsewhere :
    (∃ t, exec (.encInt true false 0 0) (withValue 1234) = .next t ∧
      sameText (withText [0x31, 0x36, 0x4A, 0x44]) t = true) ∧
    (∃ t, exec (.encBytes true false 0 0) (withBytes [0xD2, 0x04]) = .next t ∧
      sameText (withText [0x31, 0x36, 0x4A, 0x44]) t = true) ∧
    (withBytes [0xD2, 0x04]).Inv ∧ Mem.Holds (withBytes [0xD2, 0x04]).mem 0x200 [0xD2, 0x04] :=
  ⟨leaves_next (by decide), leaves_next (by decide), by decide, by decide⟩
theorem witness_DecodingEncodedBytesGivesThemBack : (withBytes [0x00, 0x41]).Inv ∧
    (withBytes [0x00, 0x41]).status.err = false ∧ [0x00, 0x41].length = (withBytes [0x00, 0x41]).byteLen.toNat ∧
    Mem.Holds (withBytes [0x00, 0x41]).mem 0x200 [0x00, 0x41] ∧ ([0x00, 0x41] : List Byte).getLast? ≠ some 0 ∧
    ∃ t, exec (.encBytes true false 2 0) (withBytes [0x00, 0x41]) = .next t ∧ t.status.err = false :=
  ⟨by decide, by decide, by decide, by decide, by decide, succeeds_next (by decide)⟩
/-- "16JD" passes and "17JD" fails (CK32's own example, vector S7). -/
theorem witness_OneChangedCharacterIsDetected :
    (withText [0x31, 0x37, 0x4A, 0x44]).symLen = (withText [0x31, 0x36, 0x4A, 0x44]).symLen ∧
    ([0x31] ++ [0x36] ++ [0x4A] ++ [0x44]).length = (withText [0x31, 0x36, 0x4A, 0x44]).symLen.toNat ∧
    Mem.Holds (withText [0x31, 0x36, 0x4A, 0x44]).mem 0x400 ([0x31] ++ [0x36] ++ [0x4A] ++ [0x44]) ∧
    Mem.Holds (withText [0x31, 0x37, 0x4A, 0x44]).mem 0x400 ([0x31] ++ [0x37] ++ [0x4A] ++ [0x44]) ∧
    (∀ y ∈ ([0x31] ++ [0x4A] : List Byte), DataSymbol y) ∧ cls 0x36 = .value 6 ∧ cls 0x37 = .value 7 ∧
    ∃ t, exec (.decInt true) (withText [0x31, 0x36, 0x4A, 0x44]) = .next t ∧ t.status.err = false :=
  ⟨by decide, by decide, by decide, by decide, by decide, by decide, by decide, succeeds_next (by decide)⟩
/-- "O" and "o" have one entry. -/
theorem witness_AliasesAndSeparatorsAreTransparent :
    (∀ k < (withText [0x4F]).symLen.toNat,
      (Mem.get (withText [0x6F]).mem (0x400 + k)).map cls = (Mem.get (withText [0x4F]).mem (0x400 + k)).map cls) ∧
    (∃ t, exec (.decInt false) (withText [0x4F]) = .next t ∧ t.status.err = false) ∧
    ∃ t, exec (.decStr false true 2) (withText [0x4F]) = .next t ∧ t.status.err = false :=
  ⟨by decide, succeeds_next (by decide), succeeds_next (by decide)⟩
theorem witness_UnservedAccessesChangeNoState :
    (0x402 : Nat) < 0x800 ∧ (0x402 : Nat) % 4 ≠ 0 ∧ Width.w8 ≠ .w32 ∧ ¬ inArrays State.reset.cfg 0x120 ∧
    inArrays State.reset.cfg 0x11C ∧ State.reset.cfg.Legal ∧ State.reset.cfg.base + 0x800 ≤ 0x800 := by decide
/-- A window at 0x800: 64 bits at BASE - 4 begin below it (assumption log 19), and so does a word far below. -/
theorem witness_UnservedAccessesChangeNoState_below :
    0x7FC < ({ State.reset with cfg := { Config.reference with base := 0x800 } } : State).cfg.base ∧
    0 < ({ State.reset with cfg := { Config.reference with base := 0x800 } } : State).cfg.base ∧
    ({ State.reset with cfg := { Config.reference with base := 0x800 } } : State).cfg.Legal := by decide
theorem witness_ArrayWordsAreLittleEndian : State.reset.cfg.Legal ∧ State.reset.status.busy = false ∧
    (0x11C : Nat) % 4 = 0 ∧ inArrays State.reset.cfg 0x11C ∧ 0x11C = 0x100 + 4 * 7 ∧ 4 * 7 < State.reset.cfg.vb := by
  decide
theorem witness_WritesWhileBusyAreDropped : (State.reset.accept 2).status.busy = true ∧
    (0x4FC : Nat) % 4 = 0 ∧ (0x4FC : Nat) < 0x800 ∧ inArrays State.reset.cfg 0x4FC := by decide
theorem witness_ReadsWhileBusyAreUnspecified : (State.reset.accept 2).status.busy = true ∧
    (0x200 : Nat) % 4 = 0 ∧ inArrays (State.reset.accept 2).cfg 0x200 := by decide
/-- The word at 0x400 holds "16JD"; in the next state its bytes 1 to 3 have never been written. -/
theorem witness_IdleRegisterReadsHaveNoSideEffect : (withText [0x31, 0x36, 0x4A, 0x44]).status.busy = false ∧
    inArrays (withText [0x31, 0x36, 0x4A, 0x44]).cfg 0x400 ∧
    Mem.Holds (withText [0x31, 0x36, 0x4A, 0x44]).mem 0x400 [0x31, 0x36, 0x4A, 0x44] ∧
    Mem.Written (withText [0x31]).mem 0x400 1 ∧ Mem.get (withText [0x31]).mem 0x401 = none := by decide
theorem witness_LengthRegistersKeepSixteenBits : State.reset.status.busy = false ∧
    ({ State.reset with symLen := 257 } : State).cfg.symCap < ({ State.reset with symLen := 257 } : State).symLen.toNat ∧
    ({ State.reset with byteLen := 33 } : State).cfg.vb < ({ State.reset with byteLen := 33 } : State).byteLen.toNat := by
  decide
theorem witness_CfgIsConstant : ∃ t, step State.reset = .next t ∧ t.status.err = false := succeeds_next (by decide)
theorem witness_HostMovesFreezeTheCommandInFlight : (State.reset.accept 2).status.busy = true ∧
    ∃ t, { State.reset.accept 2 with host := [.access (.write 0x014 .w32 7)] }.hostMove = .next t ∧
      t.status.err = false := ⟨by decide, succeeds_next (by decide)⟩
/-- An idle block with a report: a read keeps it, an accept clears it, and the W1C write clears WERR. -/
theorem witness_HostMovesFreezeTheCommandInFlight_idle :
    ({ State.reset with host := [.access (.write 0x000 .w32 1)] } : State).turn = .host ∧
    (∃ t, step { State.reset with host := [.access (.write 0x000 .w32 1)] } = .next t ∧ t.status.err = false) ∧
    (∃ t, step { State.reset with host := [.access (.write 0x004 .w32 8)], status := ⟨false, true, false, true, 0⟩ } =
      .next t ∧ t.status.err = false) ∧ (8 : BitVec 64).getLsbD 3 = true :=
  ⟨by decide, succeeds_next (by decide), succeeds_next (by decide), by decide⟩
theorem witness_PollReadsStatusUntilDone : ({ State.reset with host := [.poll] } : State).host = .poll :: [] := rfl
theorem witness_HostScriptsPlaceOperandsAndClearTheReport : State.reset.cfg.Legal ∧ State.reset.status.busy = false ∧
    State.reset.sched = [] ∧ 1234 < 2 ^ State.reset.cfg.valueBits ∧ [0xD2, 0x04].length ≤ State.reset.cfg.vb ∧
    ['1', '6', 'J'].length ≤ State.reset.cfg.symCap ∧ (['1', '6', 'J'].length ≤ 3 ∧ 3 < 4 * ((['1', '6', 'J'].length + 3) / 4)) ∧
    ([0xD2, 0x04].length ≤ 3 ∧ 3 < 4 * (([0xD2, 0x04].length + 3) / 4)) := by decide
theorem witness_ResetGivesTheResetValues : (State.reset.accept 2).cfg.Legal ∧
    ({ State.reset.accept 2 with sched := [.reset] } : State).sched = .reset :: [] := by decide
theorem witness_EveryStepKeepsTheInvariant : (withValue 1234).Inv ∧
    ∃ t, step ((withValue 1234).withFetchWord 32 0x41) = .next t ∧ t.status.err = false :=
  ⟨by decide, succeeds_next (by decide)⟩
theorem witness_CommandsWithWrittenOperandsComplete : operandsReady .pack (withBytes [1, 2]) ∧
    operandsReady (.decInt true) (withText [0x31]) ∧ operandsReady .pack State.reset := by decide
theorem witness_OnlyUnwrittenBytesStopACommand : exec .pack { State.reset with byteLen := 1 } =
    .fault (.uninitRead 0x200) := rfl
/-- "1" and an unwritten character: DEC.INT reaches it. -/
theorem witness_OnlyUnwrittenBytesStopACommand_reached :
    (Mem.Written (withBytes [7]).mem 0x200 1 ∧ Mem.get (withBytes [7]).mem 0x201 = none) ∧
    Mem.Holds (withText [0x31]).mem 0x400 [0x31] ∧ DataSymbol 0x31 ∧ Mem.get (withText [0x31]).mem 0x401 = none := by
  decide
theorem witness_EqualMemoriesAreEqualLists : Mem.wf (withText [0x31, 0x36]).mem ∧ Mem.wf (withValue 256).mem := by decide
theorem witness_EveryAcceptedCommandCompletes : (State.reset.accept 7).cfg.Legal ∧
    (State.reset.accept 7).status.busy = true ∧ operandsReady (decode (State.reset.accept 7).cmd) (State.reset.accept 7) ∧
    Turn.reset ∉ (State.reset.accept 7).sched := by
  have h : decode (State.reset.accept 7).cmd = .chksum := by decide
  rw [h]
  exact ⟨by decide, by decide, trivial, by decide⟩

end Sys2Proof.Tests
end

section
/-! The bit length and the number of digits of a value (00_scope.md R12; 42_encoder.md R161). -/

namespace Sys2Proof.Machine

open Sys2Proof

/-- The bit length of a value is the least number of bits that holds it (00_scope.md R12). -/
theorem bitLen_le_iff {v k : Nat} : bitLen v ≤ k ↔ v < 2 ^ k :=
  ⟨fun h => (lt_two_pow_bitLen v).trans_le (Nat.pow_le_pow_right (by decide) h), bitLen_le_of_lt⟩

@[simp] theorem bitLen_eq_zero {v : Nat} : bitLen v = 0 ↔ v = 0 := by
  rw [← Nat.le_zero, bitLen_le_iff]
  omega

@[simp] theorem bitLen_two_pow_sub_one (n : Nat) : bitLen (2 ^ n - 1) = n := by
  refine eq_of_forall_ge_iff fun k => ?_
  have hpos := Nat.two_pow_pos n
  rw [bitLen_le_iff, ← Nat.pow_le_pow_iff_right (a := 2) (by decide)]
  omega

/-- Taking off the lowest digit shortens a value by 5 bits. -/
theorem bitLen_div_32 (v : Nat) : bitLen (v / 32) = bitLen v - 5 := by
  refine eq_of_forall_ge_iff fun k => ?_
  rw [bitLen_le_iff, Nat.sub_le_iff_le_add, bitLen_le_iff, Nat.pow_add]
  omega

/-- Enough rounds of the digits loop give one digit for every 5 bits begun (42_encoder.md R161). -/
theorem digitsUp_length {fuel v : Nat} (h : bitLen v ≤ fuel) : (digitsUp fuel v).length = (bitLen v + 4) / 5 := by
  induction fuel generalizing v with
  | zero => simp [digitsUp, Nat.le_zero.1 h]
  | succ fuel ih =>
    by_cases hv : v = 0
    · simp [digitsUp, hv, bitLen]
    · have hb : bitLen v ≠ 0 := mt bitLen_eq_zero.1 hv
      have hdiv := bitLen_div_32 v
      have hrest := ih (v := v / 32) (by omega)
      simp only [digitsUp, hv, if_false, List.length_cons, hrest]
      omega

/-- 42_encoder.md R161: 0 has one digit, and any other value one for every 5 bits begun. -/
theorem digits_length (v : Nat) : (digits v).length = max 1 ((bitLen v + 4) / 5) := by
  by_cases hv : v = 0
  · simp [digits, hv, bitLen]
  · have hb : bitLen v ≠ 0 := mt bitLen_eq_zero.1 hv
    simp only [digits, hv, if_false, List.length_reverse, digitsUp_length le_rfl]
    omega

/-- A nonempty text has at most twice as many characters as digits: a separator for every digit but the last, and the
check symbol. -/
theorem total_le_two_mul (step : Nat) (check : Bool) {D : Nat} (hD : 0 < D) : total step check D ≤ 2 * D := by
  have hseps : seps step D ≤ D - 1 := by
    unfold seps
    split
    · omega
    · exact Nat.div_le_self _ _
  have hcheck := check.toNat_le
  unfold total
  omega

/-- STEP = 1 and CHECK = 1 reach that number. -/
theorem total_one_true {D : Nat} (hD : 0 < D) : total 1 true D = 2 * D := by
  simp only [total, seps, Nat.one_ne_zero, if_false, Nat.div_one, Bool.toNat_true]
  omega

/-- R169(3): the longest text of a value of at most `n` bits. -/
theorem total_digits_le {n v : Nat} (hn : 0 < n) (hv : v < 2 ^ n) (step : Nat) (check : Bool) :
    total step check (digits v).length ≤ 2 * ((n + 4) / 5) := by
  have htotal := total_le_two_mul step check (digits_length_pos v)
  have hlen := digits_length v
  have hbits := bitLen_le_of_lt hv
  omega

/-- R169(3): the largest value of `n` bits reaches it. -/
theorem total_digits_max {n : Nat} (hn : 0 < n) :
    total 1 true (digits (2 ^ n - 1)).length = 2 * ((n + 4) / 5) := by
  rw [total_one_true (digits_length_pos _), digits_length, bitLen_two_pow_sub_one]
  omega

end Sys2Proof.Machine
end

section
/-! ENCODE without a fixed length (42_encoder.md R165; 00_scope.md R8). -/

namespace Sys2Proof.Machine

open Sys2Proof

theorem exec_encInt (check lenEn : Bool) (step len : Nat) (s : State) :
    exec (.encInt check lenEn step len) s = s.finish (encodeValue check lenEn step len s s.value) := rfl

theorem exec_encBytes (check lenEn : Bool) (step len : Nat) (s : State) :
    exec (.encBytes check lenEn step len) s =
      s.finish (s.byteOperand.bind fun v => encodeValue check lenEn step len s v) := rfl

/-- A written sequence of at most VB bytes is read as its integer (42_encoder.md R160). -/
theorem State.byteOperand_of_holds {s : State} {bs : List Byte} (hlen : bs.length = s.byteLen.toNat)
    (hvb : s.byteLen.toNat ≤ s.cfg.vb) (hbs : Mem.Holds s.mem byteBufBase bs) :
    s.byteOperand = .ok (bytesToInteger bs) := by
  have hread : Mem.readBytes s.mem byteBufBase s.byteLen.toNat = .ok bs :=
    (Mem.readBytes_ok_iff _ _ _ _).2 ⟨hlen, hlen ▸ hbs⟩
  simp [State.byteOperand, Nat.not_lt.2 hvb, hread, Result.ofRead, Result.bind]

/-- Without a fixed length ENCODE writes the text of the value's own digits when that fits SYM_BUF. -/
theorem encodeValue_without_length {check : Bool} {step : Nat} (len : Nat) {s : State} {v : Nat}
    (hfits : total step check (digits v).length ≤ s.cfg.symCap) :
    encodeValue check false step len s v = .ok (s.setSymbols (encodeText check step (digits v).length v)) := by
  simp [encodeValue, digitCount, Result.bind, Nat.not_lt.2 hfits]

/-- 00_scope.md R8: in a legal configuration the text of any value of VALUE_BITS bits fits SYM_BUF. -/
theorem total_digits_le_symCap {c : Config} (hc : c.Legal) {v : Nat} (hv : v < 2 ^ c.valueBits)
    (step : Nat) (check : Bool) : total step check (digits v).length ≤ c.symCap := by
  obtain ⟨⟨-, hvb, -⟩, -, hcap, -⟩ := hc
  exact (total_digits_le (by unfold Config.valueBits; omega) hv step check).trans hcap

/-- Such a text completes its command without raising, and SYM_LEN, 16 bits wide, holds its length. -/
theorem finish_encodeValue_without_length {s : State} (hc : s.cfg.Legal) {v : Nat} (hv : v < 2 ^ s.cfg.valueBits)
    (check : Bool) (step len : Nat) :
    ∃ t, s.finish (encodeValue check false step len s v) = .next t ∧ t.status.err = s.status.err ∧
      t.symLen.toNat = total step check (digits v).length := by
  have hfits := total_digits_le_symCap hc hv step check
  obtain ⟨-, ⟨-, -, hcap⟩, -⟩ := hc
  rw [encodeValue_without_length len hfits]
  refine ⟨_, rfl, rfl, ?_⟩
  rw [State.complete_symLen, State.setSymbols_symLen, encodeText_length _ _ _ _ le_rfl, BitVec.toNat_ofNat]
  exact Nat.mod_eq_of_lt (by omega)

end Sys2Proof.Machine

open Sys2Proof Sys2Proof.Machine

/-- Settles O33: R169(3) bounds the text by 2*ceil(VALUE_BITS/5) characters, which R8 makes SYM_CAP hold; the operand of
either command is a value of VALUE_BITS bits. -/
theorem encodeWithoutLengthAlwaysFits : Obligations.EncodeWithoutLengthAlwaysFits := by
  intro s check step len hc
  have hbits : 0 < s.cfg.valueBits := by
    obtain ⟨⟨-, hvb, -⟩, -⟩ := hc
    unfold Config.valueBits
    omega
  refine ⟨fun v hv => total_digits_le hbits hv step check, total_digits_max hbits, ?_, fun bs hlen hvb hbs => ?_⟩
  · rw [exec_encInt]
    exact finish_encodeValue_without_length hc s.value_lt check step len
  · have hv : bytesToInteger bs < 2 ^ s.cfg.valueBits := by
      rw [two_pow_valueBits]
      exact (bytesToInteger_lt bs).trans_le (Nat.pow_le_pow_right (by decide) (hlen ▸ hvb))
    rw [exec_encBytes, State.byteOperand_of_holds hlen hvb hbs]
    exact finish_encodeValue_without_length hc hv check step len

end

section
/-! What a command commits, and what it stops on (44_control.md R221; 92_eei_decisions.md D26;
93_implementation_defined.md U1). -/

namespace Sys2Proof.Machine

open Sys2Proof

/-! ## A command as its pseudocode's outcome, completed -/

theorem exec_nop (s : State) : exec .nop s = s.finish (.ok s) := rfl

theorem exec_encBadsel (s : State) : exec .encBadsel s = s.finish (.raise .unsupportedInputType) := rfl

theorem exec_decInt (check : Bool) (s : State) :
    exec (.decInt check) s = s.finish (if s.symLenTooBig then .raise .capacityExceeded
      else (decodeSymbols s check s.symLen.toNat).bind fun acc => .ok (s.setValue acc)) := rfl

theorem exec_decStr (check lenEn : Bool) (len : Nat) (s : State) :
    exec (.decStr check lenEn len) s = s.finish (if s.symLenTooBig then .raise .capacityExceeded
      else if byteLenTooBig s.cfg lenEn len then .raise .capacityExceeded
      else (decodeSymbols s check s.symLen.toNat).bind fun acc =>
        (byteCount lenEn len acc).bind fun m =>
          .ok ((s.setValue acc).setByteBuf (integerToBytes acc m))) := rfl

theorem exec_decBadsel (s : State) : exec .decBadsel s = s.finish (.raise .unsupportedTargetType) := rfl

theorem exec_pack (s : State) :
    exec .pack s = s.finish (s.byteOperand.bind fun v => .ok (s.setValue v)) := rfl

theorem exec_unpack (lenEn : Bool) (len : Nat) (s : State) :
    exec (.unpack lenEn len) s = s.finish (if byteLenTooBig s.cfg lenEn len then .raise .capacityExceeded
      else (byteCount lenEn len s.value).bind fun m => .ok (s.setByteBuf (integerToBytes s.value m))) := rfl

theorem exec_symfor (imm8 : Nat) (s : State) :
    exec (.symfor imm8) s = s.finish (if h : imm8 < 37 then .ok (s.setResult ((sym ⟨imm8, h⟩).zeroExtend 32))
      else .raise .valueOutOfRange) := rfl

theorem exec_valfor (imm8 : Nat) (s : State) :
    exec (.valfor imm8) s = s.finish (.ok (s.setResult (cls (BitVec.ofNat 8 imm8)).resultWord)) := rfl

theorem exec_chksum (s : State) :
    exec .chksum s = s.finish (.ok (s.setResult (checksumWord (checksum s.value)))) := rfl

theorem exec_reserved (s : State) : exec .reserved s = s.finish (.raise .illegalCommand) := rfl

/-- No command is refused. -/
theorem exec_ne_refused (i : Instr) (s : State) (r : Refusal) : exec i s ≠ .refused r := by
  have key {o : Result State} (ho : exec i s = s.finish o) : exec i s ≠ .refused r := ho ▸ State.finish_ne_refused
  cases i with
  | nop => exact key (exec_nop s)
  | encInt => exact key (exec_encInt ..)
  | encBytes => exact key (exec_encBytes ..)
  | encBadsel => exact key (exec_encBadsel s)
  | decInt => exact key (exec_decInt ..)
  | decStr => exact key (exec_decStr ..)
  | decBadsel => exact key (exec_decBadsel s)
  | pack => exact key (exec_pack s)
  | unpack => exact key (exec_unpack ..)
  | symfor => exact key (exec_symfor ..)
  | valfor => exact key (exec_valfor ..)
  | chksum => exact key (exec_chksum s)
  | reserved => exact key (exec_reserved s)

/-- A capacity test passes with an outcome exactly when its condition is false. -/
theorem Result.ite_raise_eq_ok {α : Type} {p : Prop} [Decidable p] {e : CmdError} {r : Result α} {a : α} :
    (if p then .raise e else r) = .ok a ↔ ¬ p ∧ r = .ok a := by
  split <;> simp [*]

/-- A capacity test stops at no fault of its own. -/
theorem Result.ite_raise_eq_fault {α : Type} {p : Prop} [Decidable p] {e : CmdError} {r : Result α} {f : Fault} :
    (if p then .raise e else r) = .fault f ↔ ¬ p ∧ r = .fault f := by
  split <;> simp [*]

/-! ## The commit writes -/

/-- `u` is `s` with commit writes of the command `i`: each into an output of the command (92_eei_decisions.md D26), and
within its array. -/
inductive Commits (i : Instr) (s : State) : State → Prop
  | start : Commits i s s
  | setResult {u : State} (w : Word) (hw : writesResult i = true) (hu : Commits i s u) : Commits i s (u.setResult w)
  | setValue {u : State} (n : Nat) (hw : writesValue i = true) (hu : Commits i s u) : Commits i s (u.setValue n)
  | setByteBuf {u : State} {bs : List Byte} (hl : bs.length ≤ s.cfg.vb) (hw : writesBytes i = true)
      (hu : Commits i s u) : Commits i s (u.setByteBuf bs)
  | setSymbols {u : State} {out : List Byte} (hl : out.length ≤ s.cfg.symCap) (hw : writesSymbols i = true)
      (hu : Commits i s u) : Commits i s (u.setSymbols out)

variable {i : Instr} {s t u : State}

/-- Everything but the outputs stays. -/
theorem Commits.eq_update (h : Commits i s u) :
    u = { s with mem := u.mem, result := u.result, symLen := u.symLen, byteLen := u.byteLen } := by
  induction h with
  | start => rfl
  | setResult _ _ _ ih | setValue _ _ _ ih | setByteBuf _ _ _ ih | setSymbols _ _ _ ih => rw [ih]; rfl

theorem Commits.cfg (h : Commits i s u) : u.cfg = s.cfg := by rw [h.eq_update]
theorem Commits.status (h : Commits i s u) : u.status = s.status := by rw [h.eq_update]
theorem Commits.errPos (h : Commits i s u) : u.errPos = s.errPos := by rw [h.eq_update]
theorem Commits.chk (h : Commits i s u) : u.chk = s.chk := by rw [h.eq_update]

/-- The output registers of other commands stay. -/
theorem Commits.result (h : Commits i s u) (hi : writesResult i = false) : u.result = s.result := by
  induction h with
  | start => rfl
  | setResult _ hw => simp [hw] at hi
  | setValue _ _ _ ih | setByteBuf _ _ _ ih | setSymbols _ _ _ ih => exact ih

theorem Commits.symLen (h : Commits i s u) (hi : writesSymbols i = false) : u.symLen = s.symLen := by
  induction h with
  | start => rfl
  | setSymbols _ hw => simp [hw] at hi
  | setResult _ _ _ ih | setValue _ _ _ ih | setByteBuf _ _ _ ih => exact ih

theorem Commits.byteLen (h : Commits i s u) (hi : writesBytes i = false) : u.byteLen = s.byteLen := by
  induction h with
  | start => rfl
  | setByteBuf _ hw => simp [hw] at hi
  | setResult _ _ _ ih | setValue _ _ _ ih | setSymbols _ _ _ ih => exact ih

/-- Where a memory differs from `c` after a range write, it did so before or the byte lies in the written range. -/
theorem Mem.get_setBytes_ne {m : Mem} {a x : Nat} {bs : List Byte} {c : Option Byte}
    (h : Mem.get (Mem.setBytes m a bs) x ≠ c) : Mem.get m x ≠ c ∨ (a ≤ x ∧ x < a + bs.length) := by
  by_cases hx : x < a ∨ a + bs.length ≤ x
  · exact .inl (Mem.get_setBytes_outside bs m a x hx ▸ h)
  · exact .inr (by omega)

/-- A byte of memory changes only inside an array that the command writes. -/
theorem Commits.range_of_get_ne (h : Commits i s u) {a : Nat} (ha : Mem.get u.mem a ≠ Mem.get s.mem a) :
    (writesValue i = true ∧ valueBase ≤ a ∧ a < valueBase + s.cfg.vb) ∨
    (writesBytes i = true ∧ byteBufBase ≤ a ∧ a < byteBufBase + s.cfg.vb) ∨
    (writesSymbols i = true ∧ symBufBase ≤ a ∧ a < symBufBase + s.cfg.symCap) := by
  induction h with
  | start => exact absurd rfl ha
  | setResult _ _ _ ih => exact ih ha
  | setValue n hw hu ih =>
    rcases Mem.get_setBytes_ne ha with ha | ⟨hlo, hhi⟩
    · exact ih ha
    · rw [integerToBytes_length, hu.cfg] at hhi
      exact .inl ⟨hw, hlo, hhi⟩
  | setByteBuf hl hw _ ih =>
    rcases Mem.get_setBytes_ne ha with ha | ⟨hlo, hhi⟩
    · exact ih ha
    · exact .inr (.inl ⟨hw, hlo, by omega⟩)
  | setSymbols hl hw _ ih =>
    rcases Mem.get_setBytes_ne ha with ha | ⟨hlo, hhi⟩
    · exact ih ha
    · exact .inr (.inr ⟨hw, hlo, by omega⟩)

/-- Memory stays in its canonical form and inside the arrays. -/
theorem Commits.good (h : Commits i s u) (hg : Mem.Good s.cfg s.mem) : Mem.Good u.cfg u.mem := by
  induction h with
  | start => exact hg
  | setResult _ _ _ ih => exact ih
  | setValue n _ _ ih => exact State.setValue_good n ih
  | setByteBuf hl _ hu ih => exact State.setByteBuf_good (hu.cfg ▸ hl) ih
  | setSymbols hl _ hu ih => exact State.setSymbols_good (hu.cfg ▸ hl) ih

/-! ## Every command ends in its commit writes, an error report or an unwritten byte -/

/-- ENCODE's text fits SYM_BUF. -/
theorem encodeValue_ok {check lenEn : Bool} {step len v : Nat} (h : encodeValue check lenEn step len s v = .ok u) :
    ∃ out : List Byte, out.length ≤ s.cfg.symCap ∧ u = s.setSymbols out := by
  rcases encodeValue_cases check lenEn step len s v with ⟨D, hD, hfits, he⟩ | ⟨D, -, -, he⟩ | ⟨-, he⟩ <;> rw [he] at h
  · refine ⟨encodeText check step D v, ?_, by simpa using h.symm⟩
    rwa [encodeText_length _ _ _ _ (digitCount_ok hD).1]
  · simp at h
  · simp at h

theorem encodeValue_ne_fault {check lenEn : Bool} {step len v : Nat} {f : Fault} :
    encodeValue check lenEn step len s v ≠ .fault f := by
  rcases encodeValue_cases check lenEn step len s v with ⟨D, -, -, he⟩ | ⟨D, -, -, he⟩ | ⟨-, he⟩ <;> simp [he]

/-- A command's next state is its commit writes completed, or its error report. -/
theorem exec_next (h : exec i s = .next t) : (∃ u, Commits i s u ∧ t = u.complete) ∨ ∃ e, t = s.raise e := by
  have key {r : Result State} (hr : exec i s = s.finish r) (hok : ∀ u, r = .ok u → Commits i s u) :
      (∃ u, Commits i s u ∧ t = u.complete) ∨ ∃ e, t = s.raise e := by
    rcases State.finish_next.1 (hr ▸ h) with ⟨u, hu, rfl⟩ | ⟨e, -, rfl⟩
    · exact .inl ⟨u, hok u hu, rfl⟩
    · exact .inr ⟨e, rfl⟩
  cases i with
  | nop =>
    refine key (exec_nop s) fun u hu => ?_
    cases hu
    exact .start
  | encInt check lenEn step len =>
    refine key (exec_encInt ..) fun u hu => ?_
    obtain ⟨out, hl, rfl⟩ := encodeValue_ok hu
    exact .setSymbols hl rfl .start
  | encBytes check lenEn step len =>
    refine key (exec_encBytes ..) fun u hu => ?_
    obtain ⟨v, -, hv⟩ := Result.bind_eq_ok.1 hu
    obtain ⟨out, hl, rfl⟩ := encodeValue_ok hv
    exact .setSymbols hl rfl .start
  | encBadsel => exact key (exec_encBadsel s) nofun
  | decBadsel => exact key (exec_decBadsel s) nofun
  | reserved => exact key (exec_reserved s) nofun
  | decInt check =>
    refine key (exec_decInt ..) fun u hu => ?_
    obtain ⟨acc, -, hacc⟩ := Result.bind_eq_ok.1 (Result.ite_raise_eq_ok.1 hu).2
    cases hacc
    exact .setValue acc rfl .start
  | decStr check lenEn len =>
    refine key (exec_decStr ..) fun u hu => ?_
    obtain ⟨hlen, hu⟩ := Result.ite_raise_eq_ok.1 (Result.ite_raise_eq_ok.1 hu).2
    obtain ⟨acc, hacc, hu⟩ := Result.bind_eq_ok.1 hu
    obtain ⟨m, hm, hu⟩ := Result.bind_eq_ok.1 hu
    cases hu
    have hle := byteCount_le hm (by simpa using hlen) (decodeSymbols_ok hacc).1
    exact .setByteBuf (by simpa using hle) rfl (.setValue acc rfl .start)
  | pack =>
    refine key (exec_pack s) fun u hu => ?_
    obtain ⟨v, -, hv⟩ := Result.bind_eq_ok.1 hu
    cases hv
    exact .setValue v rfl .start
  | unpack lenEn len =>
    refine key (exec_unpack ..) fun u hu => ?_
    obtain ⟨hlen, hu⟩ := Result.ite_raise_eq_ok.1 hu
    obtain ⟨m, hm, hu⟩ := Result.bind_eq_ok.1 hu
    cases hu
    have hle := byteCount_le hm (by simpa using hlen) s.value_lt
    exact .setByteBuf (by simpa using hle) rfl .start
  | symfor imm8 =>
    refine key (exec_symfor ..) fun u hu => ?_
    split at hu
    · cases hu; exact .setResult _ rfl .start
    · cases hu
  | valfor imm8 =>
    refine key (exec_valfor ..) fun u hu => ?_
    cases hu
    exact .setResult _ rfl .start
  | chksum =>
    refine key (exec_chksum s) fun u hu => ?_
    cases hu
    exact .setResult _ rfl .start

/-- A command stops only in reading its byte-sequence operand or its symbol string. -/
theorem exec_fault {f : Fault} (h : exec i s = .fault f) :
    ((i = .pack ∨ ∃ check lenEn step len, i = .encBytes check lenEn step len) ∧ s.byteOperand = .fault f) ∨
    ∃ check, (i = .decInt check ∨ ∃ lenEn len, i = .decStr check lenEn len) ∧
      decodeSymbols s check s.symLen.toNat = .fault f := by
  have key {r : Result State} (hr : exec i s = s.finish r) : r = .fault f := State.finish_fault.1 (hr ▸ h)
  cases i with
  | nop => cases key (exec_nop s)
  | encBadsel => cases key (exec_encBadsel s)
  | decBadsel => cases key (exec_decBadsel s)
  | reserved => cases key (exec_reserved s)
  | valfor imm8 => cases key (exec_valfor ..)
  | chksum => cases key (exec_chksum s)
  | encInt check lenEn step len => exact absurd (key (exec_encInt ..)) encodeValue_ne_fault
  | encBytes check lenEn step len =>
    rcases Result.bind_eq_fault.1 (key (exec_encBytes ..)) with hf | ⟨v, -, hf⟩
    · exact .inl ⟨.inr ⟨_, _, _, _, rfl⟩, hf⟩
    · exact absurd hf encodeValue_ne_fault
  | decInt check =>
    rcases Result.bind_eq_fault.1 (Result.ite_raise_eq_fault.1 (key (exec_decInt ..))).2 with hf | ⟨acc, -, hf⟩
    · exact .inr ⟨check, .inl rfl, hf⟩
    · cases hf
  | decStr check lenEn len =>
    have hr := (Result.ite_raise_eq_fault.1 (Result.ite_raise_eq_fault.1 (key (exec_decStr ..))).2).2
    rcases Result.bind_eq_fault.1 hr with hf | ⟨acc, -, hf⟩
    · exact .inr ⟨check, .inr ⟨_, _, rfl⟩, hf⟩
    · rcases Result.bind_eq_fault.1 hf with hf | ⟨m, -, hf⟩
      · exact absurd hf byteCount_ne_fault
      · cases hf
  | pack =>
    rcases Result.bind_eq_fault.1 (key (exec_pack s)) with hf | ⟨v, -, hf⟩
    · exact .inl ⟨.inl rfl, hf⟩
    · cases hf
  | unpack lenEn len =>
    rcases Result.bind_eq_fault.1 (Result.ite_raise_eq_fault.1 (key (exec_unpack ..))).2 with hf | ⟨m, -, hf⟩
    · exact absurd hf byteCount_ne_fault
    · cases hf
  | symfor imm8 =>
    have hr := key (exec_symfor ..)
    split at hr <;> cases hr

/-! ## An unwritten byte of an operand stops the command that reads it -/

theorem State.byteOperand_unwritten {k : Nat} (hvb : s.byteLen.toNat ≤ s.cfg.vb) (hk : k < s.byteLen.toNat)
    (hw : Mem.Written s.mem byteBufBase k) (hn : Mem.get s.mem (byteBufBase + k) = none) :
    s.byteOperand = .fault (.uninitRead (byteBufBase + k)) := by
  simp [State.byteOperand, Nat.not_lt.2 hvb, Mem.readBytes_unwritten _ _ _ _ hk hw hn, Result.ofRead, Result.bind]

theorem scan_unwritten {m : Mem} {before : List Byte} {n : Nat} (hlt : before.length < n)
    (hm : Mem.Holds m symBufBase before) (hd : ∀ b ∈ before, DataSymbol b)
    (hn : Mem.get m (symBufBase + before.length) = none) :
    scan m n 0 0 = .fault (.uninitRead (symBufBase + before.length)) := by
  obtain ⟨k, rfl⟩ : ∃ k, n = before.length + (k + 1) := ⟨n - before.length - 1, by omega⟩
  rw [scan_data hm hd, Nat.zero_add, scan, hn]

theorem checkSymbol_unwritten {m : Mem} {p : Nat} (hn : Mem.get m (symBufBase + p) = none) :
    checkSymbol m p = .fault (.uninitRead (symBufBase + p)) := by
  rw [checkSymbol, hn]

/-- The unwritten character stands in the data portion, or it is the check symbol itself (43_decoder.md R195). -/
theorem decodeSymbols_unwritten (check : Bool) {before : List Byte} {L : Nat} (hlt : before.length < L)
    (hm : Mem.Holds s.mem symBufBase before) (hd : ∀ b ∈ before, DataSymbol b)
    (hn : Mem.get s.mem (symBufBase + before.length) = none) :
    decodeSymbols s check L = .fault (.uninitRead (symBufBase + before.length)) := by
  cases check with
  | false => simp [decodeSymbols, scan_unwritten hlt hm hd hn, Result.bind]
  | true =>
    have hL : L ≠ 0 := by omega
    by_cases hdata : before.length < L - 1
    · simp [decodeSymbols, hL, scan_unwritten hdata hm hd hn, Result.bind]
    · have hlast : L - 1 = before.length := by omega
      have hscan : scan s.mem before.length 0 0 = .ok _ := scan_data (n := 0) (i := 0) hm hd
      simp [decodeSymbols, hL, hlast, hscan, checkSymbol_unwritten hn, Result.bind]

theorem exec_of_byteOperand_fault {f : Fault}
    (hi : i = .pack ∨ ∃ check lenEn step len, i = .encBytes check lenEn step len) (hf : s.byteOperand = .fault f) :
    exec i s = .fault f := by
  rcases hi with rfl | ⟨check, lenEn, step, len, rfl⟩
  · rw [exec_pack, hf]; rfl
  · rw [exec_encBytes, hf]; rfl

theorem exec_of_decodeSymbols_fault {check : Bool} {f : Fault}
    (hi : i = .decInt check ∨ ∃ lenEn len, i = .decStr check lenEn len ∧ (lenEn = true → len ≤ s.cfg.vb))
    (hcap : s.symLen.toNat ≤ s.cfg.symCap) (hf : decodeSymbols s check s.symLen.toNat = .fault f) :
    exec i s = .fault f := by
  have hsym : s.symLenTooBig = false := by simpa [State.symLenTooBig] using hcap
  rcases hi with rfl | ⟨lenEn, len, rfl, hlen⟩
  · rw [exec_decInt, hsym, hf]; rfl
  · have hbytes : byteLenTooBig s.cfg lenEn len = false := by simpa [byteLenTooBig] using hlen
    rw [exec_decStr, hsym, hbytes, hf]; rfl

/-! ## A length register beyond its capacity -/

theorem State.byteOperand_of_lt (h : s.cfg.vb < s.byteLen.toNat) : s.byteOperand = .raise .capacityExceeded :=
  if_pos h

theorem State.symLenTooBig_of_lt (h : s.cfg.symCap < s.symLen.toNat) : s.symLenTooBig = true := decide_eq_true h

end Sys2Proof.Machine

open Sys2Proof Sys2Proof.Machine

/-- Settles O15: a command that raises changes no output, and one that succeeds changes only what it commits. -/
theorem commandsChangeOnlyTheirOutputs : Obligations.CommandsChangeOnlyTheirOutputs := by
  intro i s t h
  rcases exec_next h with ⟨u, hu, rfl⟩ | ⟨e, rfl⟩
  · exact ⟨hu.result, hu.symLen, hu.byteLen, fun a ha => hu.range_of_get_ne ha⟩
  · exact ⟨fun _ => rfl, fun _ => rfl, fun _ => rfl, fun a ha => absurd rfl ha⟩

/-- Settles O58: the two operand readers stop at the first unwritten byte they reach, and nothing else stops a
command. -/
theorem onlyUnwrittenBytesStopACommand : Obligations.OnlyUnwrittenBytesStopACommand := by
  refine ⟨fun i s k hi hvb hk hw hn => ?_, fun i s check before hi hcap hlt hm hd hn => ?_, fun i s => ?_⟩
  · exact exec_of_byteOperand_fault hi (State.byteOperand_unwritten hvb hk hw hn)
  · exact exec_of_decodeSymbols_fault hi hcap (decodeSymbols_unwritten check hlt hm hd hn)
  · refine ⟨exec_ne_refused i s, fun f h => ?_⟩
    rcases exec_fault h with ⟨hi, hf⟩ | ⟨check, hi, hf⟩
    · obtain ⟨k, hk, rfl, hn⟩ := State.byteOperand_fault hf
      refine ⟨_, rfl, hn, ?_⟩
      rcases hi with rfl | ⟨check, lenEn, step, len, rfl⟩ <;> exact ⟨Nat.le_add_right _ k, Nat.add_lt_add_left hk _⟩
    · obtain ⟨k, hk, rfl, hn⟩ := decodeSymbols_fault hf
      refine ⟨_, rfl, hn, ?_⟩
      rcases hi with rfl | ⟨lenEn, len, rfl⟩ <;> exact ⟨Nat.le_add_right _ k, Nat.add_lt_add_left hk _⟩

end

section
/-! The bus: accesses in the window, and what the host, the engine and reset keep (20_memory.md R60 to R64;
44_control.md R220, R224). -/

namespace Sys2Proof.Machine

open Sys2Proof

/-! ## An access to a mapped word -/

variable {s t : State} {l : Loc}

theorem State.serve_write {off : Nat} (hoff : off < 0x800) (hl : locate s.cfg .w32 off = some l) (w : Word) :
    s.serve (.write (s.cfg.base + off) .w32 (w.zeroExtend 64)) = s.serveWrite l w := by
  simp only [State.serve, offsetOf_base _ hoff, hl, extract_zeroExtend]

theorem State.serve_read {off : Nat} (hoff : off < 0x800) (hl : locate s.cfg .w32 off = some l) :
    s.serve (.read (s.cfg.base + off) .w32) = s.serveRead l := by
  simp only [State.serve, offsetOf_base _ hoff, hl]

/-- A write that BUSY does not hold off is served. -/
theorem State.serveWrite_served (w : Word) (h : s.status.busy = false ∨ l.frozenWhileBusy = false) :
    s.serveWrite l w = .next ((s.writeLoc w l).respond .ok) := by
  rcases h with h | h <;> simp [State.serveWrite, h]

/-- A read that BUSY does not hold off returns the word of its location. -/
theorem State.serveRead_served {w : Word} (h : s.status.busy = false ∨ l.definedWhileBusy = true)
    (hw : s.readLoc l = .ok w) : s.serveRead l = .next (s.respond (.data w)) := by
  rcases h with h | h <;> simp [State.serveRead, h, hw]

/-! ## STATUS -/

/-- Concatenation as arithmetic. -/
theorem toNat_append_eq_add {m n : Nat} (x : BitVec m) (y : BitVec n) :
    (x ++ y).toNat = 2 ^ n * x.toNat + y.toNat := by
  rw [BitVec.toNat_append, ← Nat.shiftLeft_add_eq_or_of_lt y.isLt, Nat.shiftLeft_eq, Nat.mul_comm]

/-- The places of STATUS's fields (10_state.md R23). -/
theorem Status.word_eq (st : Status) : st.word = BitVec.ofNat 32
    (st.busy.toNat + 2 * st.done.toNat + 4 * st.err.toNat + 8 * st.werr.toNat + 256 * st.errCode.toNat) := by
  apply BitVec.eq_of_toNat_eq
  have hcode := st.errCode.isLt
  have hbusy := st.busy.toNat_le
  have hdone := st.done.toNat_le
  have herr := st.err.toNat_le
  have hwerr := st.werr.toNat_le
  simp only [Status.word, toNat_append_eq_add, BitVec.toNat_ofBool, BitVec.toNat_ofNat]
  omega

theorem Status.written_eq (st : Status) (w : Word) :
    st.written w = { st with werr := st.werr && !w.getLsbD 3 } := by
  cases h : w.getLsbD 3 with
  | true => rw [Status.written, if_pos h, Bool.not_true, Bool.and_false]
  | false => rw [Status.written, h, Bool.not_false, Bool.and_true]; rfl

/-! ## The parameters -/

theorem State.writeLoc_cfg (s : State) (w : Word) (l : Loc) : (s.writeLoc w l).cfg = s.cfg := by
  cases l <;> rfl

theorem State.serve_cfg {a : Access} (h : s.serve a = .next t) : t.cfg = s.cfg := by
  rcases State.serve_next h with ⟨r, rfl⟩ | ⟨-, r, rfl⟩ | ⟨-, rfl⟩ | ⟨_, _, _, _, l, -, -, -, -, rfl⟩
  · rfl
  · rfl
  · rfl
  · exact State.writeLoc_cfg ..

theorem State.hostMove_cfg (h : s.hostMove = .next t) : t.cfg = s.cfg := by
  rcases State.hostMove_next h with ⟨-, rfl⟩ | ⟨_, a, ⟨ops, rfl⟩, h⟩
  · rfl
  · exact (State.serve_cfg h :)

theorem exec_cfg {i : Instr} (h : exec i s = .next t) : t.cfg = s.cfg := by
  rcases exec_next h with ⟨u, hu, rfl⟩ | ⟨e, rfl⟩
  · exact hu.cfg
  · rfl

/-- 10_state.md R29: no step changes the parameters. -/
theorem step_cfg (h : step s = .next t) : t.cfg = s.cfg := by
  obtain ⟨-, ⟨-, -, h⟩ | ⟨-, -, rfl⟩ | ⟨-, h⟩ | ⟨-, rfl⟩⟩ := step_next h
  · exact (exec_cfg h :)
  · rfl
  · exact (State.hostMove_cfg h :)
  · rfl

/-! ## The invariant -/

/-- An accept leaves a busy STATUS and a clear report (44_control.md R220). -/
theorem State.Inv.accept (h : s.Inv) (w : Word) : (s.accept w).Inv := by
  obtain ⟨hcfg, hwf, hin, -, -⟩ := h
  exact ⟨hcfg, hwf, hin, Status.accepted_legal _, by simp [State.ReportLegal]⟩

/-- A legal STATUS with the same ERR_CODE may take STATUS's place. -/
theorem State.Inv.withStatus (h : s.Inv) {st : Status} (hst : st.Legal) (hcode : st.errCode = s.status.errCode) :
    State.Inv { s with status := st } := by
  obtain ⟨hcfg, hwf, hin, -, hpos, hchk, hact, hexp⟩ := h
  exact ⟨hcfg, hwf, hin, hst, fun hp => hcode ▸ hpos hp, fun hc => hcode ▸ hchk hc, hact, hexp⟩

theorem State.Inv.status_legal (h : s.Inv) : s.status.Legal := h.2.2.2.1

theorem State.Inv.mem_good (h : s.Inv) : Mem.Good s.cfg s.mem := ⟨h.2.1, h.2.2.1⟩

/-- Memory in its canonical form inside the arrays may take the memory's place. -/
theorem State.Inv.withMem (h : s.Inv) {m : Mem} (hm : Mem.Good s.cfg m) : State.Inv { s with mem := m } :=
  ⟨h.1, hm.1, hm.2, h.2.2.2⟩

/-- A write to a mapped location keeps the invariant; an array takes all four bytes. -/
theorem State.Inv.writeLoc (h : s.Inv) {off : Nat} {width : Width} (hl : locate s.cfg width off = some l) (w : Word) :
    (s.writeLoc w l).Inv := by
  cases l with
  | cmd => exact h.accept w
  | status => exact h.withStatus (Status.written_legal w h.status_legal) (Status.written_errCode _ w)
  | errPos | chk | result | cfg => exact h
  | symLen | byteLen => exact h.congr rfl rfl rfl rfl rfl
  | array a =>
    obtain ⟨-, rfl, halign, hin⟩ := locate_array hl
    exact h.withMem (Mem.good_setBytes h.mem_good (inArrays_word h.1 halign hin))

theorem State.Inv.respond (h : s.Inv) (r : Response) : (s.respond r).Inv := h

theorem State.Inv.serve (h : s.Inv) {a : Access} (ht : s.serve a = .next t) : t.Inv := by
  rcases State.serve_next ht with ⟨r, rfl⟩ | ⟨-, r, rfl⟩ | ⟨-, rfl⟩ | ⟨_, _, data, _, l, -, -, hl, -, rfl⟩
  · exact h.respond r
  · exact h.respond r
  · exact (h.withStatus (Status.withWerr_legal h.status_legal) (Status.withWerr_errCode _)).respond .ok
  · exact (h.writeLoc hl _).respond .ok

theorem State.Inv.hostMove (h : s.Inv) (ht : s.hostMove = .next t) : t.Inv := by
  rcases State.hostMove_next ht with ⟨-, rfl⟩ | ⟨_, a, ⟨ops, rfl⟩, ht⟩
  · exact h
  · have hu : State.Inv { s with host := ops } := h.congr rfl rfl rfl rfl rfl
    exact hu.serve ht

/-- With a command in flight the report is clean, so what the command reports is legal. -/
theorem State.Inv.exec (h : s.Inv) (hb : s.status.busy = true) {i : Instr} (ht : exec i s = .next t) : t.Inv := by
  rcases exec_next ht with ⟨u, hu, rfl⟩ | ⟨e, rfl⟩
  · exact h.complete hu.cfg (hu.good h.mem_good) hu.status hu.errPos hu.chk
  · exact h.raise (h.clean_of_busy hb) e

theorem State.Inv.turnTaken (h : s.Inv) : s.turnTaken.Inv := h

theorem State.resetWith_inv {c : Config} (hc : c.Legal) : (State.resetWith c).Inv :=
  ⟨hc, Mem.wf_nil, by simp [State.resetWith], by simp [Status.Legal, State.resetWith],
    by simp [State.ReportLegal, State.resetWith]⟩

theorem State.Inv.hardReset (h : s.Inv) : s.hardReset.Inv :=
  (State.resetWith_inv h.1).congr rfl rfl rfl rfl rfl

end Sys2Proof.Machine

open Sys2Proof Sys2Proof.Machine

/-- Settles O56: each of the three agents keeps the invariant; the engine moves only a command in flight, whose report
is clean. -/
theorem everyStepKeepsTheInvariant : Obligations.EveryStepKeepsTheInvariant := by
  intro s t hinv h
  obtain ⟨-, ⟨-, hb, h⟩ | ⟨-, -, rfl⟩ | ⟨-, h⟩ | ⟨-, rfl⟩⟩ := step_next h
  · exact hinv.turnTaken.exec hb h
  · exact hinv.turnTaken
  · exact hinv.turnTaken.hostMove h
  · exact hinv.turnTaken.hardReset

/-- Settles O50: CFG's location is served busy or not, and nothing writes the parameters. -/
theorem cfgIsConstant : Obligations.CfgIsConstant := by
  refine ⟨fun s w => ⟨?_, ?_⟩, by decide, fun s t => step_cfg⟩
  · rw [State.serve_read (l := .cfg) (by decide) rfl]
    exact State.serveRead_served (.inr rfl) rfl
  · rw [State.serve_write (l := .cfg) (by decide) rfl]
    exact State.serveWrite_served w (.inr rfl)

/-- Settles O48: STATUS's word is the sum of its fields at their places, and its write reaches WERR alone. -/
theorem statusLayoutAndWriteOneToClear : Obligations.StatusLayoutAndWriteOneToClear := by
  refine ⟨Status.word_eq, fun s w => ?_⟩
  rw [State.serve_write (l := .status) (by decide) rfl, State.serveWrite_served w (.inr rfl), ← Status.written_eq]
  rfl

/-- Settles O49: the registers hold 16 bits of any word, and the commands that read them test them first. -/
theorem lengthRegistersKeepSixteenBits : Obligations.LengthRegistersKeepSixteenBits := by
  intro s w
  have hlow : w.extractLsb' 0 16 = BitVec.ofNat 16 w.toNat := by
    rw [BitVec.ofNat_toNat, BitVec.setWidth_eq_extractLsb' (by decide)]
  refine ⟨fun hb => ⟨?_, ?_, ?_, ?_⟩, fun hsym check lenEn len => ?_, fun hbyte check lenEn step len => ?_, rfl, rfl⟩
  · rw [State.serve_write (l := .symLen) (by decide) rfl, State.serveWrite_served w (.inl hb), ← hlow]
    rfl
  · rw [State.serve_write (l := .byteLen) (by decide) rfl, State.serveWrite_served w (.inl hb), ← hlow]
    rfl
  · rw [State.serve_read (l := .symLen) (by decide) rfl, State.serveRead_served (.inl hb) rfl, BitVec.ofNat_toNat]
    rfl
  · rw [State.serve_read (l := .byteLen) (by decide) rfl, State.serveRead_served (.inl hb) rfl, BitVec.ofNat_toNat]
    rfl
  · rw [exec_decInt, exec_decStr, State.symLenTooBig_of_lt hsym]
    exact ⟨rfl, rfl⟩
  · rw [exec_pack, exec_encBytes, State.byteOperand_of_lt hbyte]
    exact ⟨rfl, rfl⟩

end

section
/-! The canonical form of memory: a list that rises holds exactly what it reads as (10_state.md R33 to R35). -/

namespace Sys2Proof.Machine.Mem

open Sys2Proof Sys2Proof.Machine

theorem rising_iff_pairwise (m : Mem) : rising m = true ↔ m.Pairwise fun c d => c.1 < d.1 := by
  induction m with
  | nil => simp [rising]
  | cons c rest ih => rw [rising_cons, List.pairwise_cons, ih]

theorem get_of_mem {m : Mem} (h : rising m = true) {c : Host.Cell} (hc : c ∈ m) : get m c.1 = some c.2 := by
  induction m with
  | nil => simp at hc
  | cons d rest ih =>
    obtain ⟨hlt, hr⟩ := (rising_cons d.1 d.2 rest).1 h
    rcases List.mem_cons.1 hc with rfl | hc
    · simp [get]
    · rw [get, if_neg (hlt c hc).ne, ih hr hc]

theorem mem_of_get {m : Mem} {a : Nat} {b : Byte} (hg : get m a = some b) (hu : unlisted a ≠ some b) :
    (a, b) ∈ m := by
  induction m with
  | nil => exact absurd hg hu
  | cons d rest ih =>
    rw [get] at hg
    split at hg
    · rename_i ha
      cases ha
      cases hg
      exact List.mem_cons_self
    · exact List.mem_cons_of_mem _ (ih hg)

/-- The entries of a memory in canonical form are its reads that differ from an unlisted byte's. -/
theorem mem_iff_get {m : Mem} (h : wf m) (c : Host.Cell) :
    c ∈ m ↔ get m c.1 = some c.2 ∧ unlisted c.1 ≠ some c.2 :=
  ⟨fun hc => ⟨get_of_mem h.1 hc, h.2 c hc⟩, fun ⟨hg, hu⟩ => mem_of_get hg hu⟩

end Sys2Proof.Machine.Mem

open Sys2Proof Sys2Proof.Machine

/-- Settles O59: the reads determine the entries, and the rising offsets their order. -/
theorem equalMemoriesAreEqualLists : Obligations.EqualMemoriesAreEqualLists := by
  intro m m' h h' hget
  have hmem : ∀ c, c ∈ m ↔ c ∈ m' := fun c => by rw [Mem.mem_iff_get h, Mem.mem_iff_get h', hget]
  have hrise := (Mem.rising_iff_pairwise m).1 h.1
  have hrise' := (Mem.rising_iff_pairwise m').1 h'.1
  have hperm : m.Perm m' := (List.perm_ext_iff_of_nodup (hrise.imp fun hlt => ne_of_apply_ne _ hlt.ne)
    (hrise'.imp fun hlt => ne_of_apply_ne _ hlt.ne)).2 hmem
  exact hperm.eq_of_pairwise (fun c d _ _ hlt hgt => absurd hgt hlt.asymm) hrise hrise'

end

section
/-! The constant tables (10_state.md R30 to R32). -/

namespace Sys2Proof.Machine

/-- Every byte value stands in the grid of 10_state.md R31, in its row and column. -/
theorem exists_grid_position (b : Fin 256) : ∃ row col : Fin 16, b.val = 16 * row.val + col.val :=
  ⟨⟨b.val / 16, by omega⟩, ⟨b.val % 16, Nat.mod_lt _ (by decide)⟩, (Nat.div_add_mod b.val 16).symm⟩

/-- Counting byte values row by row of the grid. -/
theorem countP_range_grid (p : Nat → Bool) (rows : Nat) :
    (List.range (16 * rows)).countP p =
      ((List.range rows).map fun row => (List.range 16).countP fun col => p (16 * row + col)).sum := by
  induction rows with
  | zero => rfl
  | succ rows ih =>
    rw [Nat.mul_succ, List.range_add, List.countP_append, ih, List.countP_map, List.range_succ (n := rows), List.map_append,
      List.sum_append]
    rfl

/-- DEC_LUT undoes ENC_LUT (10_state.md R32). -/
theorem cls_sym (v : Fin 37) : cls (sym v) = .value v := by
  revert v
  decide

end Sys2Proof.Machine

open Sys2Proof Sys2Proof.Machine

/-- Settles O16: each range of R31 and each count is checked on the rows of the grid. -/
theorem decTableHasTheEntriesOfR31 : Obligations.DecTableHasTheEntriesOfR31 := by
  refine ⟨fun b => ?_, (countP_range_grid _ 16).trans (by decide), (countP_range_grid _ 16).trans (by decide),
    (countP_range_grid _ 16).trans (by decide)⟩
  obtain ⟨row, col, hb⟩ := exists_grid_position b
  simp only [hb]
  clear hb
  and_intros <;> (revert row col; decide)

/-- Settles O17: the letters are a check of the finite table, and symbols are distinct because DEC_LUT tells them
apart. -/
theorem tablesFoldCaseAndAreInverse : Obligations.TablesFoldCaseAndAreInverse := by
  refine ⟨by decide, cls_sym, fun v v' h => ?_⟩
  have hcls : SymClass.value v = .value v' := by rw [← cls_sym, ← cls_sym, h]
  exact SymClass.value.inj hcls

end

section
/-! Words and bytes: how a little-endian word stands in memory (20_memory.md R63), and the accesses that the map does
not serve (20_memory.md R61, R62). -/

namespace Sys2Proof.Machine

open Sys2Proof

variable {s : State} {c : Config} {m : Mem} {off : Nat}

/-! ## The word of four bytes -/

theorem wordOfBytes_eq (b0 b1 b2 b3 : Byte) :
    wordOfBytes b0 b1 b2 b3 = BitVec.ofNat 32 (bytesToInteger [b0, b1, b2, b3]) := by
  apply BitVec.eq_of_toNat_eq
  have hlt := bytesToInteger_lt [b0, b1, b2, b3]
  simp only [bytesToInteger, List.length_cons, List.length_nil] at hlt
  simp only [wordOfBytes, toNat_append_eq_add, bytesToInteger, BitVec.toNat_ofNat]
  omega

@[simp] theorem wordBytes_length (w : Word) : (wordBytes w).length = 4 := rfl

/-- Byte `k` of a word is its bits [8k+7:8k]. -/
theorem getElem?_wordBytes (w : Word) {k : Nat} (hk : k < 4) :
    (wordBytes w)[k]? = some (BitVec.ofNat 8 (w.toNat / 2 ^ (8 * k))) := by
  rw [← Nat.shiftRight_eq_div_pow]
  interval_cases k <;> rfl

theorem bytesToInteger_wordBytes (w : Word) : bytesToInteger (wordBytes w) = w.toNat := by
  have hlt := w.isLt
  simp only [wordBytes, bytesToInteger, BitVec.extractLsb'_toNat, Nat.shiftRight_eq_div_pow]
  omega

/-! ## A stretch of a byte sequence as an integer -/

theorem bytesToInteger_cons_div (b : Byte) (bs : List Byte) : bytesToInteger (b :: bs) / 256 = bytesToInteger bs := by
  have hb := b.isLt
  rw [bytesToInteger]
  omega

theorem bytesToInteger_cons_mod (b : Byte) (bs : List Byte) : bytesToInteger (b :: bs) % 256 = b.toNat := by
  have hb := b.isLt
  rw [bytesToInteger]
  omega

theorem bytesToInteger_drop (bs : List Byte) (n : Nat) : bytesToInteger (bs.drop n) = bytesToInteger bs / 256 ^ n := by
  induction n generalizing bs with
  | zero => simp
  | succ n ih =>
    cases bs with
    | nil => simp [bytesToInteger]
    | cons b bs =>
      rw [List.drop_succ_cons, ih, ← bytesToInteger_cons_div b bs, Nat.div_div_eq_div_mul, ← Nat.pow_succ']

theorem bytesToInteger_take (bs : List Byte) (n : Nat) : bytesToInteger (bs.take n) = bytesToInteger bs % 256 ^ n := by
  induction n generalizing bs with
  | zero => simp [bytesToInteger, Nat.mod_one]
  | succ n ih =>
    cases bs with
    | nil => simp [bytesToInteger]
    | cons b bs =>
      rw [List.take_succ_cons, bytesToInteger, ih, Nat.pow_succ', Nat.mod_mul, bytesToInteger_cons_div,
        bytesToInteger_cons_mod]

/-- A word's four bytes, found at byte 4j of VALUE, are val(VALUE)[32j+31:32j]. -/
theorem State.value_word {w : Word} {j : Nat} (hj : 4 * j + 4 ≤ s.cfg.vb)
    (hw : Mem.Holds s.mem (0x100 + 4 * j) (wordBytes w)) : s.value / 2 ^ (32 * j) % 2 ^ 32 = w.toNat := by
  have hbytes : (s.valueBytes.drop (4 * j)).take 4 = wordBytes w := by
    refine List.ext_getElem (by simp; omega) fun k hk hk4 => ?_
    have hget := hw k hk4
    rw [Nat.add_assoc, List.getElem?_eq_getElem hk4] at hget
    simp [State.valueBytes, State.valueByte, valueBase, hget]
  have hdiv : 2 ^ (32 * j) = 256 ^ (4 * j) := by rw [Nat.pow_mul, Nat.pow_mul]
  rw [State.value, hdiv, ← bytesToInteger_drop, show 2 ^ 32 = 256 ^ 4 from rfl, ← bytesToInteger_take, hbytes,
    bytesToInteger_wordBytes]

/-! ## Reading a word of an array -/

theorem Mem.holds_setBytes (m : Mem) (a : Nat) (bs : List Byte) : Mem.Holds (Mem.setBytes m a bs) a bs :=
  Mem.get_setBytes_inside bs m a

theorem readArrayWord_of_holds {bs : List Byte} (hlen : bs.length = 4) (hbs : Mem.Holds m off bs) :
    readArrayWord m off = .ok (BitVec.ofNat 32 (bytesToInteger bs)) := by
  have hread : Mem.readBytes m off 4 = .ok bs := (Mem.readBytes_ok_iff m 4 off bs).2 ⟨hlen, hlen ▸ hbs⟩
  obtain ⟨b0, b1, b2, b3, rfl⟩ := List.length_eq_four.1 hlen
  simp [readArrayWord, hread, wordOfBytes_eq]

/-- A write's word is read back. -/
theorem readArrayWord_setBytes (m : Mem) (off : Nat) (w : Word) :
    readArrayWord (Mem.setBytes m off (wordBytes w)) off = .ok w := by
  rw [readArrayWord_of_holds rfl (Mem.holds_setBytes m off _), bytesToInteger_wordBytes, BitVec.ofNat_toNat,
    BitVec.setWidth_eq]

theorem readArrayWord_unwritten {k : Nat} (hk : k < 4) (hw : Mem.Written m off k) (hn : Mem.get m (off + k) = none) :
    readArrayWord m off = .error (.uninitRead (off + k)) := by
  rw [readArrayWord, Mem.readBytes_unwritten m 4 off k hk hw hn]

/-! ## CHK -/

/-- The places of CHK's fields (10_state.md R25). -/
theorem Chk.word_eq (c : Chk) : c.word = BitVec.ofNat 32 (c.expected.toNat <<< 8 ||| c.actual.toNat) := by
  apply BitVec.eq_of_toNat_eq
  have hactual := c.actual.isLt
  have hexpected := c.expected.isLt
  rw [← Nat.shiftLeft_add_eq_or_of_lt (by omega)]
  simp only [Chk.word, toNat_append_eq_add, BitVec.toNat_ofNat]
  omega

/-! ## Accesses of an idle block -/

section Idle

variable (hb : s.status.busy = false) {l : Loc}
include hb

theorem State.serve_read_idle {w : Word} (hoff : off < 0x800) (hl : locate s.cfg .w32 off = some l)
    (hw : s.readLoc l = .ok w) :
    s.serve (.read (s.cfg.base + off) .w32) = .next { s with resp := some (.data w) } :=
  (State.serve_read hoff hl).trans (State.serveRead_served (.inl hb) hw)

theorem State.serve_read_fault {f : Fault} (hoff : off < 0x800) (hl : locate s.cfg .w32 off = some l)
    (hf : s.readLoc l = .error f) : s.serve (.read (s.cfg.base + off) .w32) = .fault f := by
  rw [State.serve_read hoff hl]
  simp [State.serveRead, hb, hf]

theorem State.serve_write_idle (w : Word) (hoff : off < 0x800) (hl : locate s.cfg .w32 off = some l) :
    s.serve (.write (s.cfg.base + off) .w32 (w.zeroExtend 64)) = .next ((s.writeLoc w l).respond .ok) :=
  (State.serve_write hoff hl w).trans (State.serveWrite_served w (.inl hb))

end Idle

/-! ## Accesses the map does not serve -/

/-- The arrays of a legal configuration lie in the window (20_memory.md R60). -/
theorem inArrays_lt (hc : c.Legal) (h : inArrays c off) : off < 0x800 := by
  obtain ⟨⟨-, -, hvb⟩, ⟨-, -, hcap⟩, -, -⟩ := hc
  simp only [inArrays, valueBase, byteBufBase, symBufBase] at h
  omega

/-- The ranges of the map that hold nothing (20_memory.md R60). -/
theorem not_inArrays_iff (hc : c.Legal) (hlow : 0x020 ≤ off) (hoff : off < 0x800) : ¬ inArrays c off ↔
    (0x020 ≤ off ∧ off < 0x100) ∨ (0x100 + c.vb ≤ off ∧ off < 0x200) ∨
    (0x200 + c.vb ≤ off ∧ off < 0x400) ∨ (0x400 + c.symCap ≤ off ∧ off < 0x800) := by
  obtain ⟨⟨-, -, hvb⟩, ⟨-, -, hcap⟩, -, -⟩ := hc
  simp only [inArrays, valueBase, byteBufBase, symBufBase]
  omega

theorem locate_eq_none {width : Width}
    (h : width ≠ .w32 ∨ off % 4 ≠ 0 ∨ (0x020 ≤ off ∧ ¬ inArrays c off)) :
    locate c width off = none := by
  by_cases hform : width ≠ .w32 ∨ off % 4 ≠ 0
  · exact if_pos hform
  · obtain ⟨hlow, hout⟩ : 0x020 ≤ off ∧ ¬ inArrays c off := by tauto
    have above : ∀ r < 0x020, off ≠ r := by omega
    simp only [locate, hform, hout, above, if_false, Nat.reduceLT]

/-- An access in the window that reaches no location gets a bus error. -/
theorem State.serve_unmapped {width : Width} (data : BitVec 64) (hoff : off < 0x800)
    (hl : locate s.cfg width off = none) :
    s.serve (.read (s.cfg.base + off) width) = .next { s with resp := some .busError } ∧
    s.serve (.write (s.cfg.base + off) width data) = .next { s with resp := some .busError } := by
  simp only [State.serve, offsetOf_base _ hoff, hl, State.respond, and_self]

theorem State.serve_outside {addr : Nat} (width : Width) (data : BitVec 64)
    (h : addr < s.cfg.base ∨ s.cfg.base + 0x800 ≤ addr) :
    s.serve (.read addr width) = .next { s with resp := some .notReached } ∧
    s.serve (.write addr width data) = .next { s with resp := some .notReached } := by
  simp only [State.serve, offsetOf_outside _ h, State.respond, and_self]

end Sys2Proof.Machine

open Sys2Proof Sys2Proof.Machine

/-- Settles O43: such an access reaches no location of the map, or no offset of the window. -/
theorem unservedAccessesChangeNoState : Obligations.UnservedAccessesChangeNoState := by
  intro s data
  exact ⟨fun off width hoff h => State.serve_unmapped data hoff (locate_eq_none h),
    fun hc off hlow hoff => not_inArrays_iff hc hlow hoff, fun addr width h => State.serve_outside width data h⟩

/-- Settles O44: the memory after the write holds the word's four bytes, which a read and val(VALUE) put together
again. -/
theorem arrayWordsAreLittleEndian : Obligations.ArrayWordsAreLittleEndian := by
  intro s off w hc hb halign hin
  have hoff := inArrays_lt hc hin
  have hl := locate_of_inArrays halign hin
  have hholds := Mem.holds_setBytes s.mem off (wordBytes w)
  refine ⟨Mem.setBytes s.mem off (wordBytes w), State.serve_write_idle hb w hoff hl, fun k hk => ?_,
    Mem.get_setBytes_outside (wordBytes w) s.mem off, ?_, fun j hj hvb => ?_⟩
  · rw [hholds k hk, getElem?_wordBytes w hk]
  · exact State.serve_read_idle (s := { s with mem := Mem.setBytes s.mem off (wordBytes w), resp := some .ok })
      hb hoff hl (readArrayWord_setBytes s.mem off w)
  · obtain ⟨⟨hwords, -, -⟩, -, -, -⟩ := hc
    have hfit : 4 * j + 4 ≤ s.cfg.vb := by omega
    exact State.value_word (s := { s with mem := Mem.setBytes s.mem off (wordBytes w) }) hfit (hj ▸ hholds)

/-- Settles O47: an idle read answers with the word of its location, and an idle write to a read-only location writes
nothing. -/
theorem idleRegisterReadsHaveNoSideEffect : Obligations.IdleRegisterReadsHaveNoSideEffect := by
  intro s w hb
  refine ⟨State.serve_read_idle hb (l := .cmd) (by decide) rfl rfl,
    State.serve_read_idle hb (l := .status) (by decide) rfl rfl,
    State.serve_read_idle hb (l := .errPos) (by decide) rfl (congrArg Except.ok (BitVec.ofNat_toNat 32 s.errPos).symm),
    State.serve_read_idle hb (l := .chk) (by decide) rfl (congrArg Except.ok s.chk.word_eq),
    State.serve_read_idle hb (l := .result) (by decide) rfl rfl,
    State.serve_read_idle hb (l := .symLen) (by decide) rfl (congrArg Except.ok (BitVec.ofNat_toNat 32 s.symLen).symm),
    State.serve_read_idle hb (l := .byteLen) (by decide) rfl
      (congrArg Except.ok (BitVec.ofNat_toNat 32 s.byteLen).symm),
    fun off halign hoff hin => ?_, ?_⟩
  · have hl := locate_of_inArrays halign hin
    exact ⟨fun bs hlen hbs => State.serve_read_idle hb hoff hl (readArrayWord_of_holds hlen hbs),
      fun k hk hw hn => State.serve_read_fault hb hoff hl (readArrayWord_unwritten hk hw hn)⟩
  · rintro off (rfl | rfl | rfl | rfl)
    · exact State.serve_write_idle (l := .errPos) hb w (by decide) rfl
    · exact State.serve_write_idle (l := .chk) hb w (by decide) rfl
    · exact State.serve_write_idle (l := .result) hb w (by decide) rfl
    · exact State.serve_write_idle (l := .cfg) hb w (by decide) rfl

end

section
/-! A command word as its six fields, and the rows of the table as cases on OP and SEL (30_encoding.md R90, R97). -/

namespace Sys2Proof

open Machine

/-! ## The fields -/

/-- The word with these fields (30_encoding.md R90). -/
def wordOfFields (op : BitVec 4) (sel : BitVec 2) (check lenEn : Bool) (step : BitVec 8) (len : BitVec 16) : Word :=
  len ++ step ++ BitVec.ofBool lenEn ++ BitVec.ofBool check ++ sel ++ op

/-- The rows of the table of R97: `InRow w i` says that `w` is a word of a row and stands for its command `i`. -/
inductive InRow : Word → Instr → Prop
  | nop {sel check lenEn step len} : InRow (wordOfFields 0 sel check lenEn step len) .nop
  | encInt {check lenEn step len} :
    InRow (wordOfFields 1 0 check lenEn step len) (.encInt check lenEn step.toNat len.toNat)
  | encBytes {check lenEn step len} :
    InRow (wordOfFields 1 1 check lenEn step len) (.encBytes check lenEn step.toNat len.toNat)
  | encBadsel {sel check lenEn step len} (h : 2 ≤ sel.toNat) :
    InRow (wordOfFields 1 sel check lenEn step len) .encBadsel
  | decInt {check lenEn step len} : InRow (wordOfFields 2 0 check lenEn step len) (.decInt check)
  | decStr {check lenEn step len} : InRow (wordOfFields 2 1 check lenEn step len) (.decStr check lenEn len.toNat)
  | decBadsel {sel check lenEn step len} (h : 2 ≤ sel.toNat) :
    InRow (wordOfFields 2 sel check lenEn step len) .decBadsel
  | pack {sel check lenEn step len} : InRow (wordOfFields 3 sel check lenEn step len) .pack
  | unpack {sel check lenEn step len} : InRow (wordOfFields 4 sel check lenEn step len) (.unpack lenEn len.toNat)
  | symfor {sel check lenEn step len} :
    InRow (wordOfFields 5 sel check lenEn step len) (.symfor (len.toNat % 256))
  | valfor {sel check lenEn step len} :
    InRow (wordOfFields 6 sel check lenEn step len) (.valfor (len.toNat % 256))
  | chksum {sel check lenEn step len} : InRow (wordOfFields 7 sel check lenEn step len) .chksum
  | reserved {op sel check lenEn step len} (h : 8 ≤ op.toNat) :
    InRow (wordOfFields op sel check lenEn step len) .reserved

variable {op op' : BitVec 4} {sel sel' : BitVec 2} {check check' lenEn lenEn' : Bool} {step step' : BitVec 8}
  {len len' : BitVec 16} {w w' : Word} {i : Instr}

theorem toNat_wordOfFields : (wordOfFields op sel check lenEn step len).toNat =
    op.toNat + 2 ^ 4 * sel.toNat + optionBits check lenEn step.toNat len.toNat := by
  simp only [wordOfFields, toNat_append_eq_add, BitVec.toNat_ofBool, optionBits]
  omega

/-- The encoder's arithmetic puts the fields in their places. -/
theorem ofNat_eq_wordOfFields (step : BitVec 8) (len : BitVec 16) {base : Nat}
    (hbase : base = op.toNat + 2 ^ 4 * sel.toNat) :
    BitVec.ofNat 32 (base + optionBits check lenEn step.toNat len.toNat) =
      wordOfFields op sel check lenEn step len := by
  rw [hbase, ← toNat_wordOfFields, BitVec.ofNat_toNat, BitVec.setWidth_eq]

/-- A word is its fields: the six of them cover its 32 bits. -/
theorem exists_wordOfFields (w :
    Word) : ∃ op sel check lenEn step len, w = wordOfFields op sel check lenEn step len := by
  refine ⟨w.extractLsb' 0 4, w.extractLsb' 4 2, w.getLsbD 6, w.getLsbD 7, w.extractLsb' 8 8, w.extractLsb' 16 16, ?_⟩
  refine BitVec.eq_of_getLsbD_eq fun k hk => ?_
  simp only [wordOfFields, BitVec.getLsbD_append, BitVec.getLsbD_extractLsb', BitVec.getLsbD_ofBool]
  interval_cases k <;> simp

/-! ## Reading a field -/

theorem bitsOf_eq_extractLsb' (w : Word) (hi lo : Nat) : bitsOf w hi lo = (w.extractLsb' lo (hi + 1 - lo)).toNat := by
  rw [bitsOf, BitVec.extractLsb'_toNat, Nat.shiftRight_eq_div_pow]

theorem bitOf_eq_getLsbD (w : Word) (i : Nat) : bitOf w i = w.getLsbD i := by
  simp [bitOf, bitsOf, Nat.testBit_eq_decide_div_mod_eq, BitVec.getLsbD, beq_eq_decide]

theorem bitOf_eq_iff {k : Nat} {b : Bool} : bitOf w k = b ↔ bitsOf w k k = b.toNat := by
  have hlt := Laws.DecodedWellFormed.bitsOf_lt w k k 1 (by omega)
  cases b with
  | true => simp [bitOf]
  | false => simp only [bitOf, beq_eq_false_iff_ne, Bool.toNat_false]; omega

@[simp] theorem fields_wordOfFields (op : BitVec 4) (sel : BitVec 2) (check lenEn : Bool) (step : BitVec 8)
    (len : BitVec 16) :
    bitsOf (wordOfFields op sel check lenEn step len) 3 0 = op.toNat ∧
    bitsOf (wordOfFields op sel check lenEn step len) 5 4 = sel.toNat ∧
    bitOf (wordOfFields op sel check lenEn step len) 6 = check ∧
    bitOf (wordOfFields op sel check lenEn step len) 7 = lenEn ∧
    bitsOf (wordOfFields op sel check lenEn step len) 15 8 = step.toNat ∧
    bitsOf (wordOfFields op sel check lenEn step len) 31 16 = len.toNat ∧
    bitsOf (wordOfFields op sel check lenEn step len) 23 16 = len.toNat % 256 := by
  have hcheck := check.toNat_le
  have hlenEn := lenEn.toNat_le
  simp only [bitOf_eq_iff, bitsOf, toNat_wordOfFields, optionBits]
  omega

/-- The same fields as the bits that R97 names. -/
theorem extracts_wordOfFields (op : BitVec 4) (sel : BitVec 2) (check lenEn : Bool) (step : BitVec 8)
    (len : BitVec 16) :
    (wordOfFields op sel check lenEn step len).extractLsb' 0 4 = op ∧
    (wordOfFields op sel check lenEn step len).extractLsb' 4 2 = sel ∧
    (wordOfFields op sel check lenEn step len).getLsbD 6 = check ∧
    (wordOfFields op sel check lenEn step len).getLsbD 7 = lenEn ∧
    (wordOfFields op sel check lenEn step len).extractLsb' 8 8 = step ∧
    (wordOfFields op sel check lenEn step len).extractLsb' 16 16 = len ∧
    ((wordOfFields op sel check lenEn step len).extractLsb' 16 8).toNat = len.toNat % 256 := by
  simpa only [bitsOf_eq_extractLsb', bitOf_eq_getLsbD, BitVec.toNat_inj] using
    fields_wordOfFields op sel check lenEn step len

/-! ## The rows -/

theorem InRow.decode_eq (h : InRow w i) : decode w = i := by
  cases h with
  | nop | encInt | encBytes | decInt | decStr | pack | unpack | symfor | valfor | chksum => simp [decode]
  | encBadsel h | decBadsel h | reserved h => grind [decode, fields_wordOfFields]

/-- Every word is a word of one of the rows (30_encoding.md R96). -/
theorem exists_inRow (w : Word) : ∃ i, InRow w i := by
  obtain ⟨op, sel, check, lenEn, step, len, rfl⟩ := exists_wordOfFields w
  have hsel : sel = 0 ∨ sel = 1 ∨ 2 ≤ sel.toNat := by revert sel; decide
  have hop : op = 0 ∨ op = 1 ∨ op = 2 ∨ op = 3 ∨ op = 4 ∨ op = 5 ∨ op = 6 ∨ op = 7 ∨ 8 ≤ op.toNat := by
    revert op; decide
  rcases hop with rfl | rfl | rfl | rfl | rfl | rfl | rfl | rfl | hop
  · exact ⟨_, .nop⟩
  · rcases hsel with rfl | rfl | hsel
    · exact ⟨_, .encInt⟩
    · exact ⟨_, .encBytes⟩
    · exact ⟨_, .encBadsel hsel⟩
  · rcases hsel with rfl | rfl | hsel
    · exact ⟨_, .decInt⟩
    · exact ⟨_, .decStr⟩
    · exact ⟨_, .decBadsel hsel⟩
  · exact ⟨_, .pack⟩
  · exact ⟨_, .unpack⟩
  · exact ⟨_, .symfor⟩
  · exact ⟨_, .valfor⟩
  · exact ⟨_, .chksum⟩
  · exact ⟨_, .reserved hop⟩

theorem inRow_decode (w : Word) : InRow w (decode w) := by
  obtain ⟨i, hi⟩ := exists_inRow w
  exact hi.decode_eq ▸ hi

/-! ## Masks -/

theorem wordOfFields_and : wordOfFields op sel check lenEn step len &&& wordOfFields op' sel' check' lenEn' step' len' =
    wordOfFields (op &&& op') (sel &&& sel') (check && check') (lenEn && lenEn') (step &&& step') (len &&& len') := by
  unfold wordOfFields
  exact BitVec.and_append.trans (by simp only [BitVec.and_append, BitVec.ofBool_and_ofBool])

theorem wordOfFields_inj : wordOfFields op sel check lenEn step len = wordOfFields op' sel' check' lenEn' step' len' ↔
    op = op' ∧ sel = sel' ∧ check = check' ∧ lenEn = lenEn' ∧ step = step' ∧ len = len' := by
  constructor
  · intro h
    obtain ⟨hop, hsel, hcheck, hlenEn, hstep, hlen, -⟩ := h ▸ fields_wordOfFields op sel check lenEn step len
    simp only [fields_wordOfFields, BitVec.toNat_inj] at hop hsel hcheck hlenEn hstep hlen
    exact ⟨hop.symm, hsel.symm, hcheck.symm, hlenEn.symm, hstep.symm, hlen.symm⟩
  · rintro ⟨rfl, rfl, rfl, rfl, rfl, rfl⟩
    rfl

/-! ## The table -/

/-- OP and SEL alone fix the row of a word. -/
theorem mnemonic_decode (w : Word) : (decode w).mnemonic = (decode (w &&& 0x3F)).mnemonic := by
  obtain ⟨op, sel, check, lenEn, step, len, rfl⟩ := exists_wordOfFields w
  have hmask : (0x3F : Word) = wordOfFields (.allOnes 4) (.allOnes 2) false false 0 0 := rfl
  rw [hmask, wordOfFields_and, BitVec.and_allOnes, BitVec.and_allOnes]
  simp only [decode, fields_wordOfFields, apply_ite Instr.mnemonic]
  rfl

theorem opcodeTable_mask {r : TableRow} (hr : r ∈ opcodeTable) (w : Word) : w &&& 0x3F &&& r.mask = w &&& r.mask := by
  have hmask : ∀ r ∈ opcodeTable, 0x3F &&& r.mask = r.mask := by decide
  rw [BitVec.and_assoc, hmask r hr]

/-- A check of the 64 values of OP and SEL. -/
theorem exists_selected_row_of_low : ∀ k : Fin 64, ∃ r ∈ opcodeTable,
    r.mnemonic = (decode (BitVec.ofNat 32 k.val)).mnemonic ∧ BitVec.ofNat 32 k.val &&& r.mask = r.pattern ∧
      ∀ r' ∈ opcodeTable, BitVec.ofNat 32 k.val &&& r'.mask = r'.pattern → r' = r := by
  decide

/-- Exactly one row of the table selects a word, the decoded command's. -/
theorem exists_selected_row (w : Word) : ∃ r ∈ opcodeTable, r.mnemonic = (decode w).mnemonic ∧
    w &&& r.mask = r.pattern ∧ ∀ r' ∈ opcodeTable, w &&& r'.mask = r'.pattern → r' = r := by
  have hlow : (w &&& 0x3F).toNat < 64 := by
    rw [BitVec.toNat_and]
    exact Nat.and_lt_two_pow (n := 6) w.toNat (by decide)
  obtain ⟨r, hr, hname, hsel, honly⟩ := exists_selected_row_of_low ⟨_, hlow⟩
  simp only [BitVec.ofNat_toNat, BitVec.setWidth_eq] at hname hsel honly
  refine ⟨r, hr, hname.trans (mnemonic_decode w).symm, opcodeTable_mask hr w ▸ hsel, fun r' hr' h => ?_⟩
  exact honly r' hr' (opcodeTable_mask hr' w ▸ h)

/-! ## The encoder and the used bits as fields -/

/-- IMM8 is the low byte of the LEN field (30_encoding.md R90). -/
theorem toNat_and_imm8 (len : BitVec 16) : (len &&& 0x00FF#16).toNat = len.toNat % 256 := by
  rw [BitVec.toNat_and]
  exact Nat.and_two_pow_sub_one_eq_mod len.toNat 8

theorem ofNat_imm8_eq_wordOfFields (len : BitVec 16) {base : Nat} (hbase : base = op.toNat) :
    BitVec.ofNat 32 (base + len.toNat % 256 * 2 ^ 16) = wordOfFields op 0#2 false false 0#8 (len &&& 0x00FF#16) := by
  rw [← ofNat_eq_wordOfFields 0#8 _ (by simpa using hbase), toNat_and_imm8]
  simp [optionBits]

@[simp] theorem encode_nop : encode .nop = wordOfFields 0#4 0#2 false false 0#8 0#16 := rfl
@[simp] theorem encode_encInt : encode (.encInt check lenEn step.toNat len.toNat) =
    wordOfFields 1#4 0#2 check lenEn step len :=
  ofNat_eq_wordOfFields step len rfl
@[simp] theorem encode_encBytes : encode (.encBytes check lenEn step.toNat len.toNat) =
    wordOfFields 1#4 1#2 check lenEn step len :=
  ofNat_eq_wordOfFields step len rfl
@[simp] theorem encode_encBadsel : encode .encBadsel = wordOfFields 1#4 2#2 false false 0#8 0#16 := rfl
@[simp] theorem encode_decInt : encode (.decInt check) = wordOfFields 2#4 0#2 check false 0#8 0#16 :=
  ofNat_eq_wordOfFields (0#8) (0#16) rfl
@[simp] theorem encode_decStr : encode (.decStr check lenEn len.toNat) = wordOfFields 2#4 1#2 check lenEn 0#8 len :=
  ofNat_eq_wordOfFields (0#8) len rfl
@[simp] theorem encode_decBadsel : encode .decBadsel = wordOfFields 2#4 2#2 false false 0#8 0#16 := rfl
@[simp] theorem encode_pack : encode .pack = wordOfFields 3#4 0#2 false false 0#8 0#16 := rfl
@[simp] theorem encode_unpack : encode (.unpack lenEn len.toNat) = wordOfFields 4#4 0#2 false lenEn 0#8 len :=
  ofNat_eq_wordOfFields (0#8) len rfl
@[simp] theorem encode_symfor : encode (.symfor (len.toNat % 256)) =
    wordOfFields 5#4 0#2 false false 0#8 (len &&& 0x00FF#16) := ofNat_imm8_eq_wordOfFields len rfl
@[simp] theorem encode_valfor : encode (.valfor (len.toNat % 256)) =
    wordOfFields 6#4 0#2 false false 0#8 (len &&& 0x00FF#16) := ofNat_imm8_eq_wordOfFields len rfl
@[simp] theorem encode_chksum : encode .chksum = wordOfFields 7#4 0#2 false false 0#8 0#16 := rfl
@[simp] theorem encode_reserved : encode .reserved = wordOfFields 8#4 0#2 false false 0#8 0#16 := rfl

@[simp] theorem usedBits_nop : Instr.usedBits .nop = wordOfFields (.allOnes 4) 0#2 false false 0#8 0#16 := rfl
@[simp] theorem usedBits_encInt (check lenEn : Bool) (step len : Nat) :
    (Instr.encInt check lenEn step len).usedBits =
      wordOfFields (.allOnes 4) (.allOnes 2) true true (.allOnes 8) (.allOnes 16) := rfl
@[simp] theorem usedBits_encBytes (check lenEn : Bool) (step len : Nat) :
    (Instr.encBytes check lenEn step len).usedBits =
      wordOfFields (.allOnes 4) (.allOnes 2) true true (.allOnes 8) (.allOnes 16) := rfl
@[simp] theorem usedBits_encBadsel : Instr.usedBits .encBadsel =
    wordOfFields (.allOnes 4) 2#2 false false 0#8 0#16 := rfl
@[simp] theorem usedBits_decInt : (Instr.decInt check).usedBits =
    wordOfFields (.allOnes 4) (.allOnes 2) true false 0#8 0#16 := rfl
@[simp] theorem usedBits_decStr (check lenEn : Bool) (len : Nat) :
    (Instr.decStr check lenEn len).usedBits = wordOfFields (.allOnes 4) (.allOnes 2) true true 0#8 (.allOnes 16) := rfl
@[simp] theorem usedBits_decBadsel : Instr.usedBits .decBadsel =
    wordOfFields (.allOnes 4) 2#2 false false 0#8 0#16 := rfl
@[simp] theorem usedBits_pack : Instr.usedBits .pack = wordOfFields (.allOnes 4) 0#2 false false 0#8 0#16 := rfl
@[simp] theorem usedBits_unpack (lenEn : Bool) (len : Nat) :
    (Instr.unpack lenEn len).usedBits = wordOfFields (.allOnes 4) 0#2 false true 0#8 (.allOnes 16) := rfl
@[simp] theorem usedBits_symfor (imm8 : Nat) :
    (Instr.symfor imm8).usedBits = wordOfFields (.allOnes 4) 0#2 false false 0#8 0x00FF#16 := rfl
@[simp] theorem usedBits_valfor (imm8 : Nat) :
    (Instr.valfor imm8).usedBits = wordOfFields (.allOnes 4) 0#2 false false 0#8 0x00FF#16 := rfl
@[simp] theorem usedBits_chksum : Instr.usedBits .chksum = wordOfFields (.allOnes 4) 0#2 false false 0#8 0#16 := rfl
@[simp] theorem usedBits_reserved : Instr.usedBits .reserved = wordOfFields 8#4 0#2 false false 0#8 0#16 := rfl

theorem two_le_toNat_iff {sel : BitVec 2} : 2 ≤ sel.toNat ↔ sel &&& 2#2 = 2#2 := by revert sel; decide

theorem eight_le_toNat_iff {op : BitVec 4} : 8 ≤ op.toNat ↔ op &&& 8#4 = 8#4 := by revert op; decide

theorem InRow.encode_eq (h : InRow w i) : encode i = w &&& i.usedBits := by
  cases h with
  | nop | encInt | encBytes | decInt | decStr | pack | unpack | symfor | valfor | chksum =>
    simp [wordOfFields_and, -BitVec.reduceAllOnes]
  | encBadsel h | decBadsel h => simp [wordOfFields_and, -BitVec.reduceAllOnes, two_le_toNat_iff.1 h]
  | reserved h => simp [wordOfFields_and, -BitVec.reduceAllOnes, eight_le_toNat_iff.1 h]

/-- Agreement on the bits its row uses keeps a word in the row, with the same command. -/
theorem InRow.of_and_usedBits_eq (h : InRow w i) (hw : w' &&& i.usedBits = w &&& i.usedBits) : InRow w' i := by
  obtain ⟨op', sel', check', lenEn', step', len', rfl⟩ := exists_wordOfFields w'
  cases h <;> simp only [usedBits_nop, usedBits_encInt, usedBits_encBytes, usedBits_encBadsel, usedBits_decInt,
    usedBits_decStr, usedBits_decBadsel, usedBits_pack, usedBits_unpack, usedBits_symfor, usedBits_valfor,
    usedBits_chksum, usedBits_reserved, wordOfFields_and, wordOfFields_inj, BitVec.and_allOnes, BitVec.and_zero,
    Bool.and_true, Bool.and_false, true_and, and_true] at hw
  case nop => subst hw; exact .nop
  case pack => subst hw; exact .pack
  case chksum => subst hw; exact .chksum
  case encInt => obtain ⟨rfl, rfl, rfl, rfl, rfl, rfl⟩ := hw; exact .encInt
  case encBytes => obtain ⟨rfl, rfl, rfl, rfl, rfl, rfl⟩ := hw; exact .encBytes
  case decInt => obtain ⟨rfl, rfl, rfl⟩ := hw; exact .decInt
  case decStr => obtain ⟨rfl, rfl, rfl, rfl, rfl⟩ := hw; exact .decStr
  case unpack => obtain ⟨rfl, rfl, rfl⟩ := hw; exact .unpack
  case encBadsel h =>
    obtain ⟨rfl, hsel⟩ := hw
    exact .encBadsel (two_le_toNat_iff.2 (hsel.trans (two_le_toNat_iff.1 h)))
  case decBadsel h =>
    obtain ⟨rfl, hsel⟩ := hw
    exact .decBadsel (two_le_toNat_iff.2 (hsel.trans (two_le_toNat_iff.1 h)))
  case symfor =>
    obtain ⟨rfl, himm⟩ := hw
    rw [← toNat_and_imm8, ← himm, toNat_and_imm8]
    exact .symfor
  case valfor =>
    obtain ⟨rfl, himm⟩ := hw
    rw [← toNat_and_imm8, ← himm, toNat_and_imm8]
    exact .valfor
  case reserved h => exact .reserved (eight_le_toNat_iff.2 (hw.trans (eight_le_toNat_iff.1 h)))

/-- Every command whose operands fit their fields stands in some word. -/
theorem exists_inRow_of_wellFormed (h : i.WellFormed) : ∃ w, InRow w i := by
  have himm {imm8 : Nat} (himm8 : imm8 < 2 ^ 8) : ∃ len : BitVec 16, len.toNat % 256 = imm8 :=
    ⟨.ofNatLT imm8 (by omega), Nat.mod_eq_of_lt himm8⟩
  cases i with
  | nop => exact ⟨wordOfFields 0 0 false false 0 0, .nop⟩
  | encInt check lenEn step len => exact ⟨_, .encInt (step := .ofNatLT step h.1) (len := .ofNatLT len h.2)⟩
  | encBytes check lenEn step len => exact ⟨_, .encBytes (step := .ofNatLT step h.1) (len := .ofNatLT len h.2)⟩
  | encBadsel => exact ⟨wordOfFields 1 2 false false 0 0, .encBadsel (by decide)⟩
  | decInt check => exact ⟨wordOfFields 2 0 check false 0 0, .decInt⟩
  | decStr check lenEn len => exact ⟨wordOfFields 2 1 check lenEn 0 _, .decStr (len := .ofNatLT len h)⟩
  | decBadsel => exact ⟨wordOfFields 2 2 false false 0 0, .decBadsel (by decide)⟩
  | pack => exact ⟨wordOfFields 3 0 false false 0 0, .pack⟩
  | unpack lenEn len => exact ⟨wordOfFields 4 0 false lenEn 0 _, .unpack (len := .ofNatLT len h)⟩
  | symfor imm8 =>
    obtain ⟨len, rfl⟩ := himm h
    exact ⟨wordOfFields 5 0 false false 0 len, .symfor⟩
  | valfor imm8 =>
    obtain ⟨len, rfl⟩ := himm h
    exact ⟨wordOfFields 6 0 false false 0 len, .valfor⟩
  | chksum => exact ⟨wordOfFields 7 0 false false 0 0, .chksum⟩
  | reserved => exact ⟨wordOfFields 8 0 false false 0 0, .reserved (by decide)⟩

theorem decode_encode (h : i.WellFormed) : decode (encode i) = i := by
  obtain ⟨w, hw⟩ := exists_inRow_of_wellFormed h
  refine (hw.of_and_usedBits_eq ?_).decode_eq
  rw [hw.encode_eq, BitVec.and_assoc, BitVec.and_self]

theorem encode_decode (w : Word) : encode (decode w) = w &&& (decode w).usedBits := (inRow_decode w).encode_eq

theorem decode_eq_of_and_usedBits_eq (h : w' &&& (decode w).usedBits = w &&& (decode w).usedBits) :
    decode w' = decode w := ((inRow_decode w).of_and_usedBits_eq h).decode_eq

end Sys2Proof

open Sys2Proof Sys2Proof.Machine

/-- Settles O3: the command stands in some word, whose used bits are the encoder's. -/
theorem decodeOfEncodeGivesTheCommandBack : Obligations.DecodeOfEncodeGivesTheCommandBack :=
  fun _ h => decode_encode h

/-- Settles O4: the word and any word that agrees with it on the used bits stand in one row. -/
theorem encodeOfDecodeClearsIgnoredBits : Obligations.EncodeOfDecodeClearsIgnoredBits :=
  fun w => ⟨encode_decode w, fun _ h => decode_eq_of_and_usedBits_eq h⟩

/-- Settles O2: each clause is a row, and the table selects by OP and SEL alone, of which there are 64 values. -/
theorem decodeFollowsTheTableOnEveryWord : Obligations.DecodeFollowsTheTableOnEveryWord := by
  intro w
  have hrow := exists_selected_row w
  obtain ⟨op, sel, check, lenEn, step, len, rfl⟩ := exists_wordOfFields w
  obtain ⟨hop, hsel, hcheck, hlenEn, hstep, hlen, himm8⟩ := extracts_wordOfFields op sel check lenEn step len
  simp only [hop, hsel, hcheck, hlenEn, hstep, hlen, himm8]
  refine ⟨?_, ?_, ?_, ?_, ?_, ?_, ?_, ?_, ?_, ?_, ?_, ?_, ?_, hrow⟩
  · rintro rfl; exact InRow.nop.decode_eq
  · rintro ⟨rfl, rfl⟩; exact InRow.encInt.decode_eq
  · rintro ⟨rfl, rfl⟩; exact InRow.encBytes.decode_eq
  · rintro ⟨rfl, h⟩; exact (InRow.encBadsel h).decode_eq
  · rintro ⟨rfl, rfl⟩; exact InRow.decInt.decode_eq
  · rintro ⟨rfl, rfl⟩; exact InRow.decStr.decode_eq
  · rintro ⟨rfl, h⟩; exact (InRow.decBadsel h).decode_eq
  · rintro rfl; exact InRow.pack.decode_eq
  · rintro rfl; exact InRow.unpack.decode_eq
  · rintro rfl; exact InRow.symfor.decode_eq
  · rintro rfl; exact InRow.valfor.decode_eq
  · rintro rfl; exact InRow.chksum.decode_eq
  · exact fun h => (InRow.reserved h).decode_eq

/-- Settles O1: the words are decoded. -/
theorem specWordsDecodeToTheirCommands : Obligations.SpecWordsDecodeToTheirCommands := by
  unfold Obligations.SpecWordsDecodeToTheirCommands
  decide

end

section
/-! No command reads CMD, so a command runs alike whatever word CMD holds (30_encoding.md R95; 44_control.md R221). -/

namespace Sys2Proof.Machine

open Sys2Proof

/-- The state with another word in CMD. -/
def State.withCmd (s : State) (w : Word) : State := { s with cmd := w }

/-- The outcome with `f` applied to it; a raise or a fault holds none. -/
def Result.map {α β : Type} (f : α → β) : Result α → Result β
  | .ok a => .ok (f a)
  | .raise e => .raise e
  | .fault f => .fault f

variable (s : State) (w : Word)

/-- A completion step with `w` in CMD instead. -/
def outcomeWithCmd (w : Word) : Host.Outcome State Fault Refusal → Host.Outcome State Fault Refusal
  | .next t => .next (t.withCmd w)
  | .fault f => .fault f
  | .refused r => .refused r

theorem State.finish_withCmd (r : Result State) :
    (s.withCmd w).finish (r.map fun t => t.withCmd w) = outcomeWithCmd w (s.finish r) := by
  cases r <;> rfl

theorem Result.map_bind {α β γ : Type} (f : β → γ) (r : Result α) (k : α → Result β) :
    (r.bind k).map f = r.bind fun a => (k a).map f := by
  cases r <;> rfl

theorem Result.map_ite {α β : Type} (f : α → β) (p : Prop) [Decidable p] (r r' : Result α) :
    (if p then r else r').map f = if p then r.map f else r'.map f := apply_ite _ p r r'

theorem encodeValue_withCmd (check lenEn : Bool) (step len v : Nat) :
    encodeValue check lenEn step len (s.withCmd w) v =
      (encodeValue check lenEn step len s v).map fun t => t.withCmd w := by
  rw [encodeValue, encodeValue, Result.map_bind]
  simp only [Result.map_ite]
  rfl

/-- A command neither reads nor writes CMD. -/
theorem exec_withCmd (i : Instr) : exec i (s.withCmd w) = outcomeWithCmd w (exec i s) := by
  cases i with
  | nop | encBadsel | decBadsel | valfor | chksum | reserved => rfl
  | encInt check lenEn step len =>
    rw [exec_encInt, exec_encInt, ← State.finish_withCmd, ← encodeValue_withCmd]
    rfl
  | encBytes check lenEn step len =>
    rw [exec_encBytes, exec_encBytes, ← State.finish_withCmd, Result.map_bind]
    simp only [← encodeValue_withCmd]
    rfl
  | decInt check =>
    rw [exec_decInt, exec_decInt, ← State.finish_withCmd, Result.map_ite, Result.map_bind]
    rfl
  | decStr check lenEn len =>
    rw [exec_decStr, exec_decStr, ← State.finish_withCmd, Result.map_ite, Result.map_ite, Result.map_bind]
    simp only [Result.map_bind]
    rfl
  | pack =>
    rw [exec_pack, exec_pack, ← State.finish_withCmd, Result.map_bind]
    rfl
  | unpack lenEn len =>
    rw [exec_unpack, exec_unpack, ← State.finish_withCmd, Result.map_ite, Result.map_bind]
    rfl
  | symfor imm8 =>
    rw [exec_symfor, exec_symfor, ← State.finish_withCmd]
    split <;> rfl

end Sys2Proof.Machine

open Sys2Proof Sys2Proof.Machine

/-- Settles O5: the words decode alike, and the command does not look at CMD. -/
theorem ignoredBitsChangeNoResult : Obligations.IgnoredBitsChangeNoResult := by
  intro s w' h
  rw [decode_eq_of_and_usedBits_eq h]
  exact exec_withCmd s w' (decode s.cmd)

/-- Settles O52: BUSY does not hold off a read of STATUS. -/
theorem pollReadsStatusUntilDone : Obligations.PollReadsStatusUntilDone := by
  intro s rest h
  have hread (t : State) :
      t.serve (.read (t.cfg.base + 0x004) .w32) = .next { t with resp := some (.data t.status.word) } :=
    (State.serve_read (l := .status) (by decide) rfl).trans (State.serveRead_served (.inr rfl) rfl)
  rw [State.hostMove, h]
  cases hd : s.status.done with
  | true => exact hread { s with host := rest }
  | false => simpa [h] using hread s

end

section
/-! Command text (30_encoding.md R98): the options of a line, and the line a word is printed as. -/

namespace Sys2Proof.Machine.Asm

open Sys2Proof

/-! ## Options -/

theorem Opt.same_comm (o o' : Opt) : o.same o' = o'.same o := by cases o <;> cases o' <;> rfl

theorem optsOk_iff {op : Op} {opts : List Opt} : optsOk op opts = true ↔
    (∀ o ∈ opts, op.takes o = true) ∧ opts.Pairwise fun o o' => o.same o' = false := by
  induction opts with
  | nil => simp [optsOk]
  | cons o rest ih =>
    simp only [optsOk, Bool.and_eq_true, ih, List.all_eq_true, Bool.not_eq_true', List.forall_mem_cons,
      List.pairwise_cons]
    tauto

theorem optsBits_eq_sum (opts : List Opt) : optsBits opts = (opts.map Opt.bits).sum := by
  induction opts with
  | nil => rfl
  | cons o rest ih => simp [optsBits, ih]

/-- The order of the options does not matter (R98). -/
theorem assemble_cmd_perm (op : Op) {opts opts' : List Opt} (h : opts.Perm opts') :
    assemble (.cmd op opts) = assemble (.cmd op opts') := by
  have hok : optsOk op opts = true ↔ optsOk op opts' = true := by
    rw [optsOk_iff, optsOk_iff, h.pairwise_iff fun {o o'} ho => Opt.same_comm o o' ▸ ho]
    simp only [h.mem_iff]
  have hbits : optsBits opts = optsBits opts' := by
    rw [optsBits_eq_sum, optsBits_eq_sum, (h.map Opt.bits).sum_eq]
  simp only [assemble, hok, hbits]

variable {check lenEn : Bool} {step len : Nat} {i : Instr} {l : Line} {w : Word}

/-- The options of a command set its option bits, LEN being 0 or enabled. -/
theorem optsBits_optsOf (h : lenEn = true ∨ len = 0) :
    optsBits (optsOf check lenEn step len) = optionBits check lenEn step len := by
  have happend (a b : List Opt) : optsBits (a ++ b) = optsBits a + optsBits b := by
    simp [optsBits_eq_sum]
  rw [optsOf, happend, happend, optionBits]
  have hcheck : optsBits (if check then [.check] else []) = check.toNat * 2 ^ 6 := by cases check <;> rfl
  have hstep : optsBits (if step = 0 then [] else [.step step]) = step * 2 ^ 8 := by
    split <;> simp [optsBits, Opt.bits, *]
  have hlen : optsBits (if lenEn then [.len len] else []) = lenEn.toNat * 2 ^ 7 + len * 2 ^ 16 := by
    rcases h with rfl | rfl
    · rfl
    · cases lenEn <;> rfl
  omega

/-- A command's options are some of the three, in R98's order. -/
theorem optsOf_sublist (check lenEn : Bool) (step len : Nat) :
    (optsOf check lenEn step len).Sublist [.check, .step step, .len len] := by
  have hcheck : (if check then [.check] else []).Sublist [Opt.check] := by cases check <;> simp
  have hstep : (if step = 0 then [] else [.step step]).Sublist [Opt.step step] := by split <;> simp
  have hlen : (if lenEn then [.len len] else []).Sublist [Opt.len len] := by cases lenEn <;> simp
  exact (hcheck.append hstep).append hlen

theorem optsOk_optsOf {op : Op} (hcheck : check = true → op.takes .check = true)
    (hstep : step ≠ 0 → op.takes (.step step) = true) (hlen : lenEn = true → op.takes (.len len) = true) :
    optsOk op (optsOf check lenEn step len) = true := by
  refine optsOk_iff.2 ⟨fun o ho => ?_, .sublist (optsOf_sublist check lenEn step len) (by simp [Opt.same])⟩
  simp only [optsOf, List.mem_append, List.mem_ite_nil_right, List.mem_ite_nil_left, List.mem_singleton] at ho
  rcases ho with (⟨h, rfl⟩ | ⟨h, rfl⟩) | ⟨h, rfl⟩
  · exact hcheck h
  · exact hstep h
  · exact hlen h

/-! ## Lines -/

theorem strayLen_eq_false : (!lenEn && len != 0) = false ↔ lenEn = true ∨ len = 0 := by
  cases lenEn <;> simp

theorem assemble_cmd {op : Op} (hop : op.takesIndex = false) (hok : optsOk op (optsOf check lenEn step len) = true)
    (hlen : lenEn = true ∨ len = 0) : assemble (.cmd op (optsOf check lenEn step len)) =
      some (BitVec.ofNat 32 (op.base + optionBits check lenEn step len)) := by
  rw [assemble, if_pos ⟨hop, hok⟩, optsBits_optsOf hlen]

/-- The mnemonic line of a command stands for its canonical word. -/
theorem assemble_lineOf (hwf : i.WellFormed) (hstray : strayLen i = false) (hl : lineOf i = some l) :
    assemble l = some (encode i) := by
  cases i with
  | encBadsel | decBadsel | reserved => cases hl
  | nop | pack | chksum => cases hl; rfl
  | encInt check lenEn step len | encBytes check lenEn step len =>
    cases hl
    obtain ⟨hstep, hlen⟩ := hwf
    exact assemble_cmd rfl (optsOk_optsOf (fun _ => rfl) (fun h => decide_eq_true ⟨by omega, by omega⟩)
      fun _ => decide_eq_true (by omega)) (strayLen_eq_false.1 hstray)
  | decInt check =>
    cases hl
    exact assemble_cmd rfl (optsOk_optsOf (fun _ => rfl) (fun h => absurd rfl h) nofun) (.inr rfl)
  | decStr check lenEn len =>
    cases hl
    exact assemble_cmd rfl (optsOk_optsOf (fun _ => rfl) (fun h => absurd rfl h)
      fun _ => decide_eq_true (by omega)) (strayLen_eq_false.1 hstray)
  | unpack lenEn len =>
    cases hl
    exact assemble_cmd rfl (optsOk_optsOf nofun (fun h => absurd rfl h)
      fun _ => decide_eq_true (by omega)) (strayLen_eq_false.1 hstray)
  | symfor imm8 | valfor imm8 =>
    cases hl
    exact if_pos ⟨rfl, by omega⟩

theorem assemble_word (w : Word) : assemble (.word w.toNat) = some w := by
  rw [assemble, if_pos w.isLt, BitVec.ofNat_toNat, BitVec.setWidth_eq]

/-- A printed mnemonic line is read back. -/
theorem readLine_text_lineOf (hl : lineOf i = some l) : readLine l.text = some l := by
  cases i with
  | encBadsel | decBadsel | reserved => cases hl
  | symfor | valfor => cases hl; exact readLine_text_index rfl _
  | nop | encInt | encBytes | decInt | decStr | pack | unpack | chksum => cases hl; exact readLine_text_cmd rfl _

/-! ## The line of a word -/

theorem disassemble_of_ignored (h : w &&& ~~~(decode w).usedBits ≠ 0) : disassemble w = .word w.toNat :=
  if_neg fun hw => h hw.1

theorem disassemble_of_lineOf (h : w &&& ~~~(decode w).usedBits = 0) (hi : decode w = i)
    (hstray : strayLen i = false) (hl : lineOf i = some l) : disassemble w = l := by
  subst hi
  rw [disassemble, if_pos ⟨h, hstray⟩, hl, Option.getD_some]

theorem disassemble_of_lineOf_none (hl : lineOf (decode w) = none) : disassemble w = .word w.toNat := by
  rw [disassemble, hl, Option.getD_none, ite_self]

/-- A word is printed as `.word`, or it is the canonical word of the mnemonic line it is printed as. -/
theorem disassemble_cases (w : Word) : disassemble w = .word w.toNat ∨
    lineOf (decode w) = some (disassemble w) ∧ strayLen (decode w) = false ∧ encode (decode w) = w := by
  by_cases h : w &&& ~~~(decode w).usedBits = 0 ∧ strayLen (decode w) = false
  · obtain ⟨hignored, hstray⟩ := h
    cases hl : lineOf (decode w) with
    | none => exact .inl (disassemble_of_lineOf_none hl)
    | some l =>
      have hused : w &&& (decode w).usedBits = w := calc
        _ = w &&& (decode w).usedBits ||| w &&& ~~~(decode w).usedBits := by rw [hignored]; exact BitVec.or_zero.symm
        _ = w := by rw [← BitVec.and_or_distrib_left, BitVec.or_not_self, BitVec.and_allOnes]
      exact .inr ⟨by rw [disassemble_of_lineOf hignored rfl hstray hl], hstray, (encode_decode w).trans hused⟩
  · exact .inl (if_neg h)

theorem assemble_disassemble (w : Word) : assemble (disassemble w) = some w := by
  rcases disassemble_cases w with h | ⟨hl, hstray, hw⟩
  · rw [h, assemble_word]
  · rw [assemble_lineOf (Laws.DecodedWellFormed.decode_wellFormed w) hstray hl, hw]

theorem assembleText_text_disassemble (w : Word) : assembleText (disassemble w).text = some w := by
  have hread : readLine (disassemble w).text = some (disassemble w) := by
    rcases disassemble_cases w with h | ⟨hl, -, -⟩
    · rw [h, readLine_text_word w.isLt]
    · exact readLine_text_lineOf hl
  rw [assembleText, hread, Option.bind_some, assemble_disassemble]

end Sys2Proof.Machine.Asm

open Sys2Proof Sys2Proof.Machine

/-- Settles O6: a line printed is read back, and a mnemonic line stands for the word whose ignored bits are 0. -/
theorem disassembledLinesAssembleBack : Obligations.DisassembledLinesAssembleBack := by
  refine ⟨fun w => ⟨Asm.assemble_disassemble w, Asm.assembleText_text_disassemble w⟩,
    fun op _ _ h => Asm.assemble_cmd_perm op h, fun w h => Asm.disassemble_of_ignored h, fun w h => ?_⟩
  have key {i : Instr} {l : Asm.Line} (hi : decode w = i) (hl : Asm.lineOf i = some l)
      (hstray : Asm.strayLen i = false) : Asm.disassemble w = l := Asm.disassemble_of_lineOf h hi hstray hl
  intro opts
  cases hi : decode w with
  | nop | pack | chksum | symfor | valfor | decInt => exact key hi rfl rfl
  | encInt | encBytes | decStr | unpack => exact fun hlen => key hi rfl (Asm.strayLen_eq_false.2 hlen)
  | encBadsel | decBadsel | reserved => exact Asm.disassemble_of_lineOf_none (congrArg Asm.lineOf hi)

end

section
/-! The bytes that a script's words place in memory (20_memory.md R63; 30_encoding.md R99). -/

namespace Sys2Proof.Machine

open Sys2Proof

/-! ## Integers and byte sequences -/

theorem bytesToInteger_integerToBytes (v m : Nat) : bytesToInteger (integerToBytes v m) = v % 256 ^ m := by
  induction m generalizing v with
  | zero => simp [integerToBytes, bytesToInteger, Nat.mod_one]
  | succ m ih => rw [integerToBytes, bytesToInteger, ih, Nat.pow_succ', Nat.mod_mul, BitVec.toNat_ofNat]

theorem integerToBytes_bytesToInteger (bs : List Byte) : integerToBytes (bytesToInteger bs) bs.length = bs := by
  induction bs with
  | nil => rfl
  | cons b bs ih =>
    have hb : BitVec.ofNat 8 (bytesToInteger (b :: bs)) = b :=
      BitVec.eq_of_toNat_eq ((BitVec.toNat_ofNat _ _).trans (bytesToInteger_cons_mod b bs))
    rw [List.length_cons, integerToBytes, hb, bytesToInteger_cons_div, ih]

theorem integerToBytes_add (v m k : Nat) :
    integerToBytes v (m + k) = integerToBytes v m ++ integerToBytes (v / 256 ^ m) k := by
  induction m generalizing v with
  | zero => simp [integerToBytes]
  | succ m ih =>
    rw [Nat.succ_add, integerToBytes, ih, integerToBytes, List.cons_append, Nat.div_div_eq_div_mul, Nat.pow_succ']

/-! ## Words -/

/-- The bytes of a word are those of its number. -/
theorem wordBytes_ofNat (v : Nat) : wordBytes (BitVec.ofNat 32 v) = integerToBytes v 4 := by
  simp only [wordBytes, integerToBytes, List.cons.injEq, and_true]
  refine ⟨?_, ?_, ?_, ?_⟩ <;> apply BitVec.eq_of_toNat_eq <;>
    simp only [BitVec.extractLsb'_toNat, BitVec.toNat_ofNat, Nat.shiftRight_eq_div_pow] <;> omega

theorem wordBytes_wordOfBytes (b0 b1 b2 b3 : Byte) : wordBytes (wordOfBytes b0 b1 b2 b3) = [b0, b1, b2, b3] := by
  rw [wordOfBytes_eq, wordBytes_ofNat]
  exact integerToBytes_bytesToInteger [b0, b1, b2, b3]

theorem flatMap_wordBytes_length (ws : List Word) : (ws.flatMap wordBytes).length = 4 * ws.length := by
  simp [List.length_flatMap, Nat.mul_comm]

/-- WRVAL's words are the bytes of its number. -/
theorem flatMap_wordBytes_range (n k : Nat) :
    ((List.range k).map fun j => BitVec.ofNat 32 (n / 2 ^ (32 * j))).flatMap wordBytes = integerToBytes n (4 * k) := by
  induction k with
  | zero => rfl
  | succ k ih =>
    have hpow : 2 ^ (32 * k) = 256 ^ (4 * k) := by rw [Nat.pow_mul, Nat.pow_mul]
    rw [List.range_succ, List.map_append, List.flatMap_append, ih, Nat.mul_succ, integerToBytes_add, ← hpow]
    simp [wordBytes_ofNat]

/-- The zero bytes that fill the last word of a byte sequence (30_encoding.md R99). -/
def padding (bs : List Byte) : List Byte := List.replicate (4 * ((bs.length + 3) / 4) - bs.length) 0

theorem length_append_padding (bs : List Byte) : (bs ++ padding bs).length = 4 * ((bs.length + 3) / 4) := by
  simp only [padding, List.length_append, List.length_replicate]
  omega

/-- WRBYTES's and WRSTR's words are the bytes of their sequence, filled with zeros. -/
theorem flatMap_wordBytes_wordsOf (bs : List Byte) : (Script.wordsOf bs).flatMap wordBytes = bs ++ padding bs := by
  fun_induction Script.wordsOf bs with
  | case1 | case2 | case3 | case4 => simp [wordBytes_wordOfBytes, padding]
  | case5 b0 b1 b2 b3 rest ih =>
    have hpad : padding (b0 :: b1 :: b2 :: b3 :: rest) = padding rest := by
      simp only [padding, List.length_cons]
      congr 1
      omega
    simp [wordBytes_wordOfBytes, ih, hpad]

theorem wordsOf_length (bs : List Byte) : (Script.wordsOf bs).length = (bs.length + 3) / 4 := by
  have h := flatMap_wordBytes_length (Script.wordsOf bs)
  rw [flatMap_wordBytes_wordsOf, length_append_padding] at h
  omega

/-! ## Memory -/

theorem Mem.setBytes_append (m : Mem) (a : Nat) (bs bs' : List Byte) :
    Mem.setBytes m a (bs ++ bs') = Mem.setBytes (Mem.setBytes m a bs) (a + bs.length) bs' := by
  induction bs generalizing m a with
  | nil => rfl
  | cons b bs ih =>
    rw [List.cons_append, Mem.setBytes, ih, Mem.setBytes, List.length_cons, Nat.add_right_comm, Nat.add_assoc]

/-- A sequence written in whole words: its bytes, zeros behind them, and nothing outside the words. -/
theorem Mem.setBytes_append_padding (m : Mem) (a : Nat) (bs : List Byte) :
    Mem.Holds (Mem.setBytes m a (bs ++ padding bs)) a bs ∧
    (∀ k, bs.length ≤ k → k < 4 * ((bs.length + 3) / 4) →
      Mem.get (Mem.setBytes m a (bs ++ padding bs)) (a + k) = some 0) ∧
    Mem.SameOutside m (Mem.setBytes m a (bs ++ padding bs)) a (4 * ((bs.length + 3) / 4)) := by
  have hlen := length_append_padding bs
  refine ⟨fun k hk => ?_, fun k hk hk' => ?_, hlen ▸ Mem.get_setBytes_outside _ m a⟩
  · rw [Mem.get_setBytes_inside _ _ _ _ (by omega), List.getElem?_append_left hk]
  · rw [Mem.get_setBytes_inside _ _ _ _ (by omega), List.getElem?_append_right hk, padding,
      List.getElem?_replicate_of_lt (by omega)]

theorem State.valueBytes_of_holds {s : State} {bs : List Byte} (hlen : bs.length = s.cfg.vb)
    (hbs : Mem.Holds s.mem valueBase bs) : s.valueBytes = bs := by
  refine List.ext_getElem (by simp [hlen]) fun k hk hk' => ?_
  have hget := hbs k hk'
  rw [List.getElem?_eq_getElem hk'] at hget
  simp [State.valueBytes, State.valueByte, hget]

/-- VALUE holds the integer written into it (00_scope.md R13). -/
theorem State.setValue_value (s : State) {n : Nat} (hn : n < 2 ^ s.cfg.valueBits) : (s.setValue n).value = n := by
  have hholds := Mem.holds_setBytes s.mem valueBase (integerToBytes n s.cfg.vb)
  rw [two_pow_valueBits] at hn
  rw [State.value, State.valueBytes_of_holds (integerToBytes_length _ _) hholds, bytesToInteger_integerToBytes]
  exact Nat.mod_eq_of_lt hn

end Sys2Proof.Machine
end

section
/-! Host scripts (30_encoding.md R99) run by an idle block whose schedule is used up. -/

namespace Sys2Proof.Machine

open Sys2Proof

/-! ## Runs -/

/-- A run begins with a step. -/
theorem run_succ {s t : State} (h : step s = .next t) (k : Nat) :
    Host.Core.run core (k + 1) s = Host.Core.run core k t := by
  have hstep : core.step s = .next t := h
  simp only [Host.Core.run, hstep]

/-- A run goes on from where a shorter run ends. -/
theorem run_add {j : Nat} {s t : State} (h : Host.Core.run core j s = .next t) (k : Nat) :
    Host.Core.run core (k + j) s = Host.Core.run core k t := by
  induction j generalizing s with
  | zero => cases h; rfl
  | succ j ih =>
    rw [← Nat.add_assoc]
    simp only [Host.Core.run] at h ⊢
    cases hs : core.step s with
    | next u => exact ih (by simpa only [hs] using h)
    | fault f => simp only [hs, reduceCtorEq] at h
    | refused r => simp only [hs, reduceCtorEq] at h

section UsedUp

variable {s : State} (hc : s.cfg.Legal) (hs : s.sched = [])
include hs

/-- Nothing is taken off the schedule. -/
theorem turnTaken_of_sched_nil : s.turnTaken = s := by rw [State.turnTaken, hs, List.tail_nil, ← hs]

include hc

theorem step_of_idle (hb : s.status.busy = false) : step s = s.hostMove := by
  have hturn : s.turn = .host := by simp [State.turn, hs, hb]
  rw [step_of_legal hc, hturn, turnTaken_of_sched_nil hs]

theorem step_of_busy (hb : s.status.busy = true) : step s = exec s.inFlight s := by
  have hturn : s.turn = .engine := by simp [State.turn, hs, hb]
  simp only [step_of_legal hc, hturn, turnTaken_of_sched_nil hs, hb, if_true]

/-- The next write of a script. -/
theorem step_wr (hb : s.status.busy = false) {off : Nat} {w : Word} {rest : List HostOp}
    (hh : s.host = Script.wr s.cfg off w :: rest) {l : Loc} (hoff : off < 0x800)
    (hl : locate s.cfg .w32 off = some l) :
    step s = .next ((State.writeLoc { s with host := rest } w l).respond .ok) := by
  rw [step_of_idle hc hs hb, State.hostMove, hh]
  exact State.serve_write_idle (s := { s with host := rest }) hb w hoff hl

/-- NOP completes, and POLL then reads DONE = 1. -/
theorem run_nop_poll (hb : s.status.busy = true) (hi : s.inFlight = .nop) {rest : List HostOp}
    (hh : s.host = .poll :: rest) (k : Nat) : Host.Core.run core (k + 2) s =
      Host.Core.run core k { s.complete with host := rest, resp := some (.data s.complete.status.word) } := by
  have hnop : step s = .next s.complete := by rw [step_of_busy hc hs hb, hi]; rfl
  have hpoll := (step_of_idle (s := s.complete) hc hs rfl).trans (pollReadsStatusUntilDone s.complete rest hh)
  exact (run_succ hnop (k + 1)).trans (run_succ hpoll k)

end UsedUp

/-! ## Writes into an array -/

theorem run_wrWords (ws : List Word) {s : State} (hc : s.cfg.Legal) (hs : s.sched = []) (hb : s.status.busy = false)
    {off : Nat} {rest : List HostOp} (hh : s.host = Script.wrWords s.cfg off ws ++ rest) (halign : off % 4 = 0)
    (hin : ∀ j < ws.length, inArrays s.cfg (off + 4 * j)) :
    Host.Core.run core ws.length s =
      .next { s with mem := Mem.setBytes s.mem off (ws.flatMap wordBytes), host := rest,
                     resp := if ws = [] then s.resp else some .ok } := by
  induction ws generalizing s off with
  | nil => rw [Script.wrWords, List.nil_append] at hh; subst hh; rfl
  | cons w ws ih =>
    have hin0 : inArrays s.cfg off := hin 0 (by simp)
    have hfirst := step_wr hc hs hb hh (inArrays_lt hc hin0) (locate_of_inArrays halign hin0)
    have hin' : ∀ j < ws.length, inArrays s.cfg (off + 4 + 4 * j) := fun j hj => by
      rw [show off + 4 + 4 * j = off + 4 * (j + 1) by omega]
      exact hin (j + 1) (by simpa using hj)
    have hrest := ih (s := (State.writeLoc { s with host := Script.wrWords s.cfg (off + 4) ws ++ rest } w
      (.array off)).respond .ok) hc hs hb rfl (by omega) hin'
    refine (run_succ hfirst _).trans (hrest.trans ?_)
    rw [List.flatMap_cons, Mem.setBytes_append]
    cases ws <;> rfl

theorem run_wrVal {s : State} (hc : s.cfg.Legal) (hs : s.sched = []) (hb : s.status.busy = false) {n : Nat}
    {rest : List HostOp} (hh : s.host = Script.wrVal s.cfg n ++ rest) :
    Host.Core.run core (s.cfg.vb / 4) s = .next { s.setValue n with host := rest, resp := some .ok } := by
  obtain ⟨⟨hvb4, hvbpos, -⟩, -, -, -⟩ := id hc
  have hlen : ((List.range (s.cfg.vb / 4)).map fun j => BitVec.ofNat 32 (n / 2 ^ (32 * j))).length = s.cfg.vb / 4 :=
    (List.length_map _).trans List.length_range
  have hne := List.ne_nil_of_length_pos (hlen.symm ▸ (by omega : 0 < s.cfg.vb / 4))
  have hin (j : Nat) (hj : j < s.cfg.vb / 4) : inArrays s.cfg (0x100 + 4 * j) := .inl (by unfold valueBase; omega)
  have hrun := run_wrWords _ hc hs hb hh (by decide) (hlen.symm ▸ hin)
  rw [hlen, flatMap_wordBytes_range, if_neg hne, Nat.mul_div_cancel' (Nat.dvd_of_mod_eq_zero hvb4)] at hrun
  exact hrun

/-- A byte sequence written into an array, then `w` into a length register: WRBYTES and WRSTR. -/
theorem run_wrWords_wr {bs : List Byte} {s : State} (hc : s.cfg.Legal) (hs : s.sched = []) (hb : s.status.busy = false)
    {off reg : Nat} {w : Word} {rest : List HostOp}
    (hh : s.host = Script.wrWords s.cfg off (Script.wordsOf bs) ++ Script.wr s.cfg reg w :: rest)
    (halign : off % 4 = 0) (hin : ∀ j < (bs.length + 3) / 4, inArrays s.cfg (off + 4 * j))
    {l : Loc} (hreg : reg < 0x800) (hl : locate s.cfg .w32 reg = some l) :
    Host.Core.run core ((bs.length + 3) / 4 + 1) s =
      .next ((State.writeLoc { s with mem := Mem.setBytes s.mem off (bs ++ padding bs), host := rest } w l).respond
        .ok) := by
  have hwords := run_wrWords (Script.wordsOf bs) hc hs hb hh halign (wordsOf_length bs ▸ hin)
  rw [wordsOf_length, flatMap_wordBytes_wordsOf] at hwords
  have hlast (r : Option Response) := step_wr (s := { s with
    mem := Mem.setBytes s.mem off (bs ++ padding bs), host := Script.wr s.cfg reg w :: rest, resp := r })
    hc hs hb rfl hreg hl
  rw [Nat.add_comm, run_add hwords 1]
  refine (run_succ (hlast _) 0).trans ?_
  cases l <;> rfl

/-- The low 16 bits of a length register's word hold a length that fits them (10_state.md R27, R28). -/
theorem toNat_length_word {n : Nat} (hn : n < 2 ^ 16) : ((BitVec.ofNat 32 n).extractLsb' 0 16).toNat = n := by
  simp only [BitVec.extractLsb'_toNat, BitVec.toNat_ofNat, Nat.shiftRight_zero]
  omega

/-! ## CLRSTAT -/

theorem run_clrStat {s : State} (hc : s.cfg.Legal) (hs : s.sched = []) (hb : s.status.busy = false)
    {rest : List HostOp} (hh : s.host = Script.clrStat s.cfg ++ rest) : Host.Core.run core 4 s =
      .next { s with cmd := 0x00000000, errPos := 0, chk := { actual := 0, expected := 0 },
                     status := { busy := false, done := true, err := false, werr := false, errCode := 0 },
                     host := rest, resp := some .ok } := by
  have haccept := step_wr (l := .cmd) (rest := .poll :: Script.wr s.cfg 0x004 0x00000008 :: rest) hc hs hb hh
    (by decide) rfl
  have hnop := run_nop_poll (s := (State.accept
    { s with host := .poll :: Script.wr s.cfg 0x004 0x00000008 :: rest } 0x00000000).respond .ok) hc hs rfl
    specWordsDecodeToTheirCommands.1 rfl 1
  have hclear (r : Option Response) := step_wr (l := .status) (s := { s.accept 0x00000000 with
    status := s.status.accepted.completed, host := Script.wr s.cfg 0x004 0x00000008 :: rest, resp := r })
    hc hs rfl rfl (by decide) rfl
  exact (run_succ haccept 3).trans (hnop.trans (run_succ (hclear _) 0))

end Sys2Proof.Machine

open Sys2Proof Sys2Proof.Machine

/-- Settles O53: a script's run is the run of its writes, one location each; CLRSTAT's NOP completes before POLL reads
STATUS. -/
theorem hostScriptsPlaceOperandsAndClearTheReport : Obligations.HostScriptsPlaceOperandsAndClearTheReport := by
  intro s rest hc hb hs
  have hlegal := hc
  obtain ⟨⟨hvb4, hvbpos, hvb⟩, ⟨hcap4, -, hcap⟩, -, -⟩ := hlegal
  refine ⟨?_, fun n hn => ?_, fun bs hbs => ?_, fun text htext => ?_⟩
  · have hrun := run_clrStat (s := { s with host := Script.clrStat s.cfg ++ rest }) hc hs hb rfl
    refine ⟨_, hrun, rfl, ?_, ?_⟩
    · change Status.word { busy := false, done := true, err := false, werr := false, errCode := 0 } = 0x00000002
      decide
    · change Chk.word { actual := 0, expected := 0 } = 0
      decide
  · have hrun := run_wrVal (s := { s with host := Script.wrVal s.cfg n ++ rest }) hc hs hb rfl
    have hsame := Mem.get_setBytes_outside (integerToBytes n s.cfg.vb) s.mem valueBase
    rw [integerToBytes_length] at hsame
    exact ⟨_, hrun, rfl, State.setValue_value s hn, hsame⟩
  · have hin (j : Nat) (hj : j < (bs.length + 3) / 4) : inArrays s.cfg (0x200 + 4 * j) :=
      .inr (.inl (by unfold byteBufBase; omega))
    have hrun := run_wrWords_wr (s := { s with host := Script.wrBytes s.cfg bs ++ rest }) hc hs hb
      (List.append_assoc ..) (by decide) hin (l := .byteLen) (by decide) rfl
    obtain ⟨hholds, hzeros, hsame⟩ := Mem.setBytes_append_padding s.mem 0x200 bs
    exact ⟨_, hrun, rfl, toNat_length_word (by omega), hholds, hzeros, hsame⟩
  · have hlen : (text.map Script.ascii).length = text.length := List.length_map _
    have hin (j : Nat) (hj : j < ((text.map Script.ascii).length + 3) / 4) : inArrays s.cfg (0x400 + 4 * j) :=
      .inr (.inr (by unfold symBufBase; omega))
    have hrun := run_wrWords_wr (s := { s with host := Script.wrStr s.cfg text ++ rest }) hc hs hb
      (List.append_assoc ..) (by decide) hin (l := .symLen) (by decide) rfl
    obtain ⟨hholds, hzeros, hsame⟩ := Mem.setBytes_append_padding s.mem 0x400 (text.map Script.ascii)
    rw [hlen] at hrun hzeros hsame
    exact ⟨_, hrun, rfl, toNat_length_word (by omega), hholds, hzeros, hsame⟩

end

section
/-! The checksum accumulators (40_alphabet.md R125), each of which takes a weighted sum modulo 37 at every step. -/

namespace Sys2Proof.Machine

open Sys2Proof

/-- Enough rounds of the digits loop give the base-32 expansion of a value, least significant digit first. -/
theorem foldr_digitsUp {fuel v : Nat} (h : bitLen v ≤ fuel) :
    (digitsUp fuel v).foldr (fun d a => a * 32 + d.val) 0 = v := by
  induction fuel generalizing v with
  | zero => exact (bitLen_eq_zero.1 (Nat.le_zero.1 h)).symm
  | succ fuel ih =>
    by_cases hv : v = 0
    · simp [digitsUp, hv]
    · have hb : bitLen v ≠ 0 := mt bitLen_eq_zero.1 hv
      have hdiv := bitLen_div_32 v
      have hrest := ih (v := v / 32) (by omega)
      simp only [digitsUp, hv, if_false, List.foldr_cons, hrest, Fin.val_ofNat]
      omega

/-- The digits of a value are its base-32 expansion, most significant digit first (42_encoder.md R161). -/
theorem foldl_digits (v : Nat) : (digits v).foldl (fun a d => a * 32 + d.val) 0 = v := by
  by_cases hv : v = 0
  · simp [digits, hv]
  · simp only [digits, hv, if_false, List.foldl_reverse, foldr_digitsUp le_rfl]

/-- Byte `k` of a sequence has the weight `256^k` (41_bit_packer.md R140); the sum may start from `a`, and the weights
from `256^k`. -/
theorem foldl_zipIdx_bytesToInteger (bs : List Byte) (k a : Nat) :
    (bs.zipIdx k).foldl (fun a p => a + p.1.toNat * 256 ^ p.2) a = a + 256 ^ k * bytesToInteger bs := by
  induction bs generalizing k a with
  | nil => rfl
  | cons b bs ih =>
    rw [List.zipIdx_cons, List.foldl_cons, ih, bytesToInteger]
    ring

/-- An accumulator whose steps agree modulo 37 with those of a plain sum ends in the remainder of that sum. -/
theorem foldl_mod_37 {α : Type} {sumStep modStep : Nat → α → Nat}
    (h : ∀ a x, modStep (a % 37) x = sumStep a x % 37) (l : List α) : l.foldl modStep 0 = l.foldl sumStep 0 % 37 :=
  List.foldl_hom (· % 37) h (init := 0)

end Sys2Proof.Machine

open Sys2Proof Sys2Proof.Machine

/-- Settles O21: the remainder may be taken once, of the whole sum, and the sums are the value's base-32 expansion and
the bytes' integer. -/
theorem checksumAccumulatorsAgree : Obligations.ChecksumAccumulatorsAgree := by
  refine ⟨fun v => ⟨?_, rfl⟩, fun bs => ?_⟩
  · have hstep (a : Nat) (d : Fin 32) : (a % 37 * 32 + d.val) % 37 = (a * 32 + d.val) % 37 := by omega
    rw [foldl_mod_37 hstep, foldl_digits]
  · have hstep (a : Nat) (p : Byte × Nat) :
        (a % 37 + p.1.toNat * (256 ^ p.2 % 37)) % 37 = (a + p.1.toNat * 256 ^ p.2) % 37 :=
      (Nat.mod_modEq a 37).add ((Nat.mod_modEq _ 37).mul_left _)
    rw [foldl_mod_37 hstep, foldl_zipIdx_bytesToInteger, Nat.zero_add, Nat.pow_zero, Nat.one_mul]

end

section
/-! The commands that show the alphabet tables and the checksum: SYMFOR, VALFOR and CHKSUM (40_alphabet.md R120 to
R122). -/

namespace Sys2Proof

/-- The words of a row that OP alone selects (30_encoding.md R97). -/
theorem exists_wordOfFields_of_op {w : Word} {op : BitVec 4} (h : w &&& 0x0000000F = op.setWidth 32) :
    ∃ sel check lenEn step len, w = wordOfFields op sel check lenEn step len := by
  obtain ⟨op', sel, check, lenEn, step, len, rfl⟩ := exists_wordOfFields w
  have hmask : (0x0000000F : Word) = wordOfFields (.allOnes 4) 0 false false 0 0 := rfl
  have hop : ∀ op : BitVec 4, op.setWidth 32 = wordOfFields op 0 false false 0 0 := by decide
  rw [hmask, wordOfFields_and, hop, wordOfFields_inj] at h
  obtain ⟨rfl, -⟩ := h
  exact ⟨sel, check, lenEn, step, len, by rw [BitVec.and_allOnes]⟩

namespace Machine

theorem exec_symfor_fin (s : State) (i : Fin 37) :
    exec (.symfor i.val) s = .next (s.setResult (BitVec.ofNat 32 (sym i).toNat)).complete := by
  rw [exec_symfor, dif_pos i.isLt, BitVec.ofNat_toNat]
  rfl

theorem exec_symfor_of_lt {i : Nat} (hi : 36 < i) (s : State) :
    exec (.symfor i) s = .next (s.raise .valueOutOfRange) := by
  rw [exec_symfor, dif_neg (by omega)]
  rfl

theorem SymClass.resultWord_value (v : Fin 37) : (SymClass.value v).resultWord = BitVec.ofNat 32 v.val := by
  rw [SymClass.resultWord, Nat.zero_mul, Nat.zero_add]

/-- The value stands below the symbol's byte: it needs 6 of the 8 bits (40_alphabet.md R122). -/
theorem checksumWord_eq (r : Fin 37) : checksumWord r = BitVec.ofNat 32 ((sym r).toNat <<< 8 ||| r.val) := by
  rw [checksumWord, ← Nat.shiftLeft_eq, Nat.shiftLeft_add_eq_or_of_lt (by omega)]

end Machine
end Sys2Proof

open Sys2Proof Sys2Proof.Machine

/-- Settles O18: an index up to 36 has an entry of ENC_LUT, whose contents are checked, and a greater one is the
error. -/
theorem symforReadsTheTableOrReportsRange : Obligations.SymforReadsTheTableOrReportsRange := by
  refine ⟨exec_symfor_fin, fun s i hi => exec_symfor_of_lt hi s, by decide, rfl, rfl, rfl, rfl, rfl, fun w hw => ?_⟩
  obtain ⟨sel, check, lenEn, step, len, rfl⟩ := exists_wordOfFields_of_op (op := 5) hw
  simp only [extracts_wordOfFields]
  exact InRow.symfor.decode_eq

/-- Settles O19: RESULT is the word of the byte's class. -/
theorem valforReportsClassAndValue : Obligations.ValforReportsClassAndValue := by
  refine ⟨fun w hw => ?_, fun s b => ⟨(cls (BitVec.ofNat 8 b)).resultWord, exec_valfor b s, ?_, ?_, ?_⟩⟩
  · obtain ⟨sel, check, lenEn, step, len, rfl⟩ := exists_wordOfFields_of_op (op := 6) hw
    simp only [extracts_wordOfFields]
    exact InRow.valfor.decode_eq
  · exact fun v hv => (congrArg SymClass.resultWord hv).trans (SymClass.resultWord_value v)
  · exact fun hskip => congrArg SymClass.resultWord hskip
  · exact fun hinvalid => congrArg SymClass.resultWord hinvalid

/-- Settles O20: RESULT is the checksum's word, the symbol's byte above the remainder. -/
theorem chksumReportsRemainderAndSymbol : Obligations.ChksumReportsRemainderAndSymbol := by
  refine ⟨fun w hw => ?_, fun s => ?_⟩
  · obtain ⟨sel, check, lenEn, step, len, rfl⟩ := exists_wordOfFields_of_op (op := 7) hw
    exact InRow.chksum.decode_eq
  · rw [exec_chksum, checksumWord_eq]
    rfl

end

section
/-! Byte sequences as integers and back, byte by byte, and the natural byte length (41_bit_packer.md R140,
R141, R144; 00_scope.md R12). -/

namespace Sys2Proof.Machine

open Sys2Proof

/-! ## The bit length and the natural byte length -/

theorem two_pow_bitLen_sub_one_le {v : Nat} (hv : v ≠ 0) : 2 ^ (bitLen v - 1) ≤ v := by
  by_contra hlt
  have hle := bitLen_le_iff.2 (Nat.lt_of_not_le hlt)
  exact hv (bitLen_eq_zero.1 (by omega))

/-- The natural byte length of a value is the least number of bytes that holds it. -/
theorem nbytes_le_iff {v m : Nat} : nbytes v ≤ m ↔ v < 256 ^ m := by
  rw [show 256 = 2 ^ 8 from rfl, ← Nat.pow_mul, ← bitLen_le_iff, nbytes]
  omega

/-! ## The bytes of an integer -/

theorem getElem?_integerToBytes (v : Nat) {m k : Nat} (hk : k < m) :
    (integerToBytes v m)[k]? = some (BitVec.ofNat 8 (v >>> (8 * k))) := by
  induction m generalizing v k with
  | zero => exact absurd hk (Nat.not_lt_zero k)
  | succ m ih =>
    cases k with
    | zero => rfl
    | succ k =>
      have hshift : (v / 256) >>> (8 * k) = v >>> (8 * (k + 1)) := by
        rw [show v / 256 = v >>> 8 from (v.shiftRight_eq_div_pow 8).symm, ← Nat.shiftRight_add, Nat.mul_succ,
          Nat.add_comm]
      rw [integerToBytes, List.getElem?_cons_succ, ih _ (Nat.lt_of_succ_lt_succ hk), hshift]

/-- A byte keeps only the low 8 bits of a number: the mask of R141. -/
theorem byte_ofNat_and_mask (n : Nat) : (BitVec.ofNat 8 (n &&& 0xFF) : Byte) = BitVec.ofNat 8 n := by
  rw [Nat.and_two_pow_sub_one_eq_mod n 8, ← BitVec.toNat_ofNat, BitVec.ofNat_toNat, BitVec.setWidth_eq]

@[simp] theorem integerToBytes_zero (m : Nat) : integerToBytes 0 m = List.replicate m 0 := by
  induction m with
  | zero => rfl
  | succ m ih => rw [integerToBytes, Nat.zero_div, ih, List.replicate_succ]; rfl

/-- Bytes beyond those that hold the value are zeros. -/
theorem integerToBytes_of_lt {v j m : Nat} (hv : v < 256 ^ j) (hjm : j ≤ m) :
    integerToBytes v m = integerToBytes v j ++ List.replicate (m - j) 0 := by
  obtain ⟨k, rfl⟩ := Nat.exists_eq_add_of_le hjm
  rw [integerToBytes_add, Nat.div_eq_of_lt hv, integerToBytes_zero, Nat.add_sub_cancel_left]

/-- A sequence's integer, written in more bytes, is the sequence and zeros. -/
theorem getElem?_integerToBytes_bytesToInteger {bs : List Byte} {m k : Nat} (hbs : bs.length ≤ m) (hk : k < m) :
    (integerToBytes (bytesToInteger bs) m)[k]? = some (bs.getD k 0) := by
  rw [integerToBytes_of_lt (bytesToInteger_lt bs) hbs, integerToBytes_bytesToInteger, List.getD_eq_getElem?_getD]
  by_cases hin : k < bs.length
  · rw [List.getElem?_append_left hin, List.getElem?_eq_getElem hin, Option.getD_some]
  · rw [List.getElem?_append_right (by omega), List.getElem?_replicate_of_lt (by omega),
      List.getElem?_eq_none (by omega), Option.getD_none]

end Sys2Proof.Machine

open Sys2Proof Sys2Proof.Machine

/-- Settles O22, by induction on the sequence: the bytes behind the first stand one weight higher. -/
theorem bytesToIntegerIsTheWeightedSum : Obligations.BytesToIntegerIsTheWeightedSum := by
  intro bs
  induction bs with
  | nil => rfl
  | cons b bs ih =>
    have hrest : ∑ k ∈ Finset.range bs.length, (bs.getD k 0).toNat * 256 ^ (k + 1) = 256 * bytesToInteger bs := by
      rw [ih, Finset.mul_sum]
      exact Finset.sum_congr rfl fun k _ => by ring
    rw [bytesToInteger, List.length_cons, Finset.sum_range_succ', ← hrest, Nat.add_comm]
    simp

/-- Settles O23: each byte is a shift of the value, and both lengths are the least that hold it. -/
theorem integerToBytesShiftsAndMasks : Obligations.IntegerToBytesShiftsAndMasks := by
  refine ⟨fun v m k hk => ?_, integerToBytes_length, fun v m => nbytes_le_iff,
    fun v => ⟨lt_two_pow_bitLen v, two_pow_bitLen_sub_one_le⟩, rfl⟩
  rw [getElem?_integerToBytes v hk, byte_ofNat_and_mask]

/-- Settles O24: a sequence's integer fits its length, and the bytes beyond the natural length are zeros. -/
theorem byteSequencesRoundTrip : Obligations.ByteSequencesRoundTrip := by
  refine ⟨fun v m hm => ?_, integerToBytes_bytesToInteger, fun bs => ?_⟩
  · rw [bytesToInteger_integerToBytes, Nat.mod_eq_of_lt (nbytes_le_iff.1 hm)]
  · have hle : nbytes (bytesToInteger bs) ≤ bs.length := nbytes_le_iff.2 (bytesToInteger_lt bs)
    refine ⟨hle, ?_⟩
    rw [← integerToBytes_of_lt (nbytes_le_iff.1 le_rfl) hle, integerToBytes_bytesToInteger]

end

section
/-! The commands of the bit_packer unit: PACK and UNPACK (41_bit_packer.md R142, R143). -/

namespace Sys2Proof.Machine

open Sys2Proof

variable {s : State}

/-! ## An integer's bytes in memory -/

theorem Mem.get_setBytes_integerToBytes (m : Mem) (a v : Nat) {n k : Nat} (hk : k < n) :
    Mem.get (Mem.setBytes m a (integerToBytes v n)) (a + k) = (integerToBytes v n)[k]? :=
  Mem.get_setBytes_inside _ m a k ((integerToBytes_length v n).symm ▸ hk)

theorem Mem.sameOutside_setBytes_integerToBytes (m : Mem) (a v n : Nat) :
    Mem.SameOutside m (Mem.setBytes m a (integerToBytes v n)) a n :=
  fun x hx => Mem.get_setBytes_outside _ m a x ((integerToBytes_length v n).symm ▸ hx)

/-! ## PACK -/

theorem exec_pack_of_lt (h : s.cfg.vb < s.byteLen.toNat) : exec .pack s = .next (s.raise .capacityExceeded) := by
  rw [exec_pack, State.byteOperand_of_lt h]
  rfl

theorem exec_pack_of_holds {bs : List Byte} (hlen : bs.length = s.byteLen.toNat) (hvb : s.byteLen.toNat ≤ s.cfg.vb)
    (hbs : Mem.Holds s.mem byteBufBase bs) : exec .pack s = .next (s.setValue (bytesToInteger bs)).complete := by
  rw [exec_pack, State.byteOperand_of_holds hlen hvb hbs]
  rfl

/-- A sequence of at most VB bytes fits VALUE. -/
theorem bytesToInteger_lt_two_pow_valueBits {c : Config} {bs : List Byte} (h : bs.length ≤ c.vb) :
    bytesToInteger bs < 2 ^ c.valueBits := by
  rw [two_pow_valueBits]
  exact (bytesToInteger_lt bs).trans_le (Nat.pow_le_pow_right (by decide) h)

/-! ## UNPACK -/

theorem exec_unpack_of_capacity {len : Nat} (h : s.cfg.vb < len) :
    exec (.unpack true len) s = .next (s.raise .capacityExceeded) := by
  simp [exec_unpack, byteLenTooBig, h, State.finish]

/-- The length request passes the capacity test, so that the byte count decides. -/
theorem exec_unpack_of_fits {lenEn : Bool} {len : Nat} (h : lenEn = true → len ≤ s.cfg.vb) :
    exec (.unpack lenEn len) s =
      s.finish ((byteCount lenEn len s.value).bind fun m => .ok (s.setByteBuf (integerToBytes s.value m))) := by
  have hcap : byteLenTooBig s.cfg lenEn len = false := by simpa [byteLenTooBig] using h
  rw [exec_unpack, hcap]
  rfl

theorem exec_unpack_of_lengthTooSmall {len : Nat} (hcap : len ≤ s.cfg.vb) (h : len < nbytes s.value) :
    exec (.unpack true len) s = .next (s.raise .lengthTooSmall) := by
  rw [exec_unpack_of_fits fun _ => hcap, byteCount_raise.2 ⟨rfl, h, rfl⟩]
  rfl

theorem exec_unpack_of_byteCount {lenEn : Bool} {len m : Nat} (hcap : lenEn = true → len ≤ s.cfg.vb)
    (hm : byteCount lenEn len s.value = .ok m) :
    exec (.unpack lenEn len) s = .next (s.setByteBuf (integerToBytes s.value m)).complete := by
  rw [exec_unpack_of_fits hcap, hm]
  rfl

end Sys2Proof.Machine

open Sys2Proof Sys2Proof.Machine

/-- Settles O25: VALUE takes the sequence's integer, whose bytes are the sequence and zeros above it. -/
theorem packLoadsTheByteSequence : Obligations.PackLoadsTheByteSequence := by
  refine ⟨fun w hw => ?_, fun s => exec_pack_of_lt, fun s bs hlen hvb hbs => ?_⟩
  · obtain ⟨sel, check, lenEn, step, len, rfl⟩ := exists_wordOfFields_of_op (op := 3) hw
    exact InRow.pack.decode_eq
  · have hfits : bs.length ≤ s.cfg.vb := hlen.trans_le hvb
    refine ⟨(s.setValue (bytesToInteger bs)).mem, exec_pack_of_holds hlen hvb hbs,
      s.setValue_value (bytesToInteger_lt_two_pow_valueBits hfits), fun k hk => ?_, ?_⟩
    · rw [← getElem?_integerToBytes_bytesToInteger hfits hk]
      exact Mem.get_setBytes_integerToBytes _ _ _ hk
    · exact Mem.sameOutside_setBytes_integerToBytes _ _ _ _

/-- Settles O26: the capacity test, then the byte count, then the bytes of VALUE. -/
theorem unpackWritesTheBytesOfValue : Obligations.UnpackWritesTheBytesOfValue := by
  refine ⟨fun w hw => ?_, fun s lenEn len => ⟨?_, ?_, fun m hm => ?_⟩⟩
  · obtain ⟨sel, check, lenEn, step, len, rfl⟩ := exists_wordOfFields_of_op (op := 4) hw
    simp only [extracts_wordOfFields]
    exact InRow.unpack.decode_eq
  · rintro rfl hcap
    exact exec_unpack_of_capacity hcap
  · rintro rfl hcap hsmall
    exact exec_unpack_of_lengthTooSmall hcap hsmall
  · obtain ⟨hcap, hcount⟩ : (lenEn = true → len ≤ s.cfg.vb) ∧ byteCount lenEn len s.value = .ok m := by
      rw [byteCount_ok]
      cases lenEn with
      | false => exact ⟨nofun, hm⟩
      | true =>
        obtain ⟨hmlen, hcap, hlarge⟩ := hm
        exact ⟨fun _ => hcap, hlarge, hmlen⟩
    refine ⟨(s.setByteBuf (integerToBytes s.value m)).mem, ?_, fun k hk => ?_, ?_⟩
    · rw [exec_unpack_of_byteCount hcap hcount, State.setByteBuf, integerToBytes_length]
      rfl
    · rw [← getElem?_integerToBytes s.value hk]
      exact Mem.get_setBytes_integerToBytes _ _ _ hk
    · exact Mem.sameOutside_setBytes_integerToBytes _ _ _ _

end

section
/-! The rows that always report an error: ENC.BADSEL, DEC.BADSEL and RESERVED (30_encoding.md R97). -/

namespace Sys2Proof

variable {w : Word}

/-- The words of a row that OP and the high bit of SEL select (30_encoding.md R97). -/
theorem exists_wordOfFields_of_badsel {op : BitVec 4}
    (h : w &&& 0x0000002F = wordOfFields op 2 false false 0 0) :
    ∃ sel check lenEn step len, 2 ≤ sel.toNat ∧ w = wordOfFields op sel check lenEn step len := by
  obtain ⟨op', sel, check, lenEn, step, len, rfl⟩ := exists_wordOfFields w
  have hmask : (0x0000002F : Word) = wordOfFields (.allOnes 4) 2 false false 0 0 := rfl
  rw [hmask, wordOfFields_and, wordOfFields_inj, BitVec.and_allOnes] at h
  obtain ⟨rfl, hsel, -⟩ := h
  exact ⟨sel, check, lenEn, step, len, two_le_toNat_iff.2 hsel, rfl⟩

/-- The words whose OP has its high bit set. -/
theorem exists_wordOfFields_of_reserved (h : w &&& 0x00000008 = 0x00000008) :
    ∃ op sel check lenEn step len, 8 ≤ op.toNat ∧ w = wordOfFields op sel check lenEn step len := by
  obtain ⟨op, sel, check, lenEn, step, len, rfl⟩ := exists_wordOfFields w
  have hmask : (0x00000008 : Word) = wordOfFields 8 0 false false 0 0 := rfl
  rw [hmask, wordOfFields_and, wordOfFields_inj] at h
  obtain ⟨hop, -⟩ := h
  exact ⟨op, sel, check, lenEn, step, len, eight_le_toNat_iff.2 hop, rfl⟩

end Sys2Proof

open Sys2Proof Sys2Proof.Machine

/-- Settles O11: each of the three commands only raises, and the fields a row's mask leaves free do not leave the
row. -/
theorem errorRowsReportTheirError : Obligations.ErrorRowsReportTheirError := by
  refine ⟨exec_encBadsel, exec_decBadsel, exec_reserved, fun w hw => ?_, fun w hw => ?_, fun w hw => ?_⟩
  · obtain ⟨sel, check, lenEn, step, len, hsel, rfl⟩ := exists_wordOfFields_of_badsel (op := 1) hw
    exact (InRow.encBadsel hsel).decode_eq
  · obtain ⟨sel, check, lenEn, step, len, hsel, rfl⟩ := exists_wordOfFields_of_badsel (op := 2) hw
    exact (InRow.decBadsel hsel).decode_eq
  · obtain ⟨op, sel, check, lenEn, step, len, hop, rfl⟩ := exists_wordOfFields_of_reserved hw
    exact (InRow.reserved hop).decode_eq

end

section
/-! The digits of a value, and where format puts them and the separators (42_encoder.md R161, R163). -/

namespace Sys2Proof.Machine

open Sys2Proof

/-! ## Digits -/

/-- The digits loop ends when the value is 0, so the digit it takes last is not 0. -/
theorem digitsUp_getLast?_ne_zero {fuel v : Nat} (h : bitLen v ≤ fuel) : (digitsUp fuel v).getLast? ≠ some 0 := by
  induction fuel generalizing v with
  | zero => simp [digitsUp]
  | succ fuel ih =>
    by_cases hv : v = 0
    · simp [digitsUp, hv]
    · have hb : bitLen v ≠ 0 := mt bitLen_eq_zero.1 hv
      have hdiv := bitLen_div_32 v
      have hfuel : bitLen (v / 32) ≤ fuel := by omega
      simp only [digitsUp, hv, if_false]
      cases hrest : digitsUp fuel (v / 32) with
      | nil =>
        have hzero : v / 32 = 0 := by simpa [hrest] using (foldr_digitsUp hfuel).symm
        simp only [List.getLast?_singleton, ne_eq, Option.some.injEq, Fin.ext_iff, Fin.val_ofNat, Fin.val_zero]
        omega
      | cons d ds =>
        rw [List.getLast?_cons_cons, ← hrest]
        exact ih hfuel

/-- 42_encoder.md R161: only 0 has a leading zero digit. -/
theorem digits_head?_ne_zero {v : Nat} (hv : v ≠ 0) : (digits v).head? ≠ some 0 := by
  rw [digits, if_neg hv, List.head?_reverse]
  exact digitsUp_getLast?_ne_zero le_rfl

/-! ## How many separators -/

variable (step : Nat) (check : Bool)

theorem seps_mono : Monotone (seps step) := by
  intro D D' h
  unfold seps
  split
  · exact le_rfl
  · exact Nat.div_le_div_right (Nat.sub_le_sub_right h 1)

/-- One more digit brings at most one more separator. -/
theorem seps_succ_le (D : Nat) : seps step (D + 1) ≤ seps step D + 1 := by
  unfold seps
  split
  · omega
  · rw [← Nat.add_div_right _ (by omega)]
    exact Nat.div_le_div_right (by omega)

theorem total_lt_total_succ (D : Nat) : total step check D < total step check (D + 1) := by
  have hseps := seps_mono step (Nat.le_add_right D 1)
  unfold total
  omega

theorem total_succ_le (D : Nat) : total step check (D + 1) ≤ total step check D + 2 := by
  have hseps := seps_succ_le step D
  unfold total
  omega

/-- `total` is strictly increasing in D (42_encoder.md R163). -/
theorem total_strictMono : StrictMono (total step check) :=
  strictMono_nat_of_lt_succ (total_lt_total_succ step check)

/-! ## Where the characters stand -/

theorem format_step_zero (ds : List (Fin 32)) : format 0 ds = ds.map digitSym := by
  induction ds with
  | nil => rfl
  | cons d rest ih => simp [format, ih]

theorem format_cons_getElem?_zero (d : Fin 32) (rest : List (Fin 32)) :
    (format step (d :: rest))[0]? = some (digitSym d) := by
  rw [format]
  split <;> rfl

/-- A separator follows a digit when a positive multiple of STEP digits stands to its right. -/
theorem format_cons_getElem?_one {step : Nat} (hstep : step ≠ 0) (d : Fin 32) {rest : List (Fin 32)}
    (hrest : rest.length ≠ 0) (hmod : rest.length % step = 0) : (format step (d :: rest))[1]? = some dash := by
  rw [format, if_pos ⟨hstep, hrest, hmod⟩]
  rfl

/-- Separators are counted from the right, so the output of the last digits ends the whole output. -/
theorem format_drop_suffix (ds : List (Fin 32)) (i : Nat) : format step (ds.drop i) <:+ format step ds := by
  induction ds generalizing i with
  | nil => simp
  | cons d rest ih =>
    cases i with
    | zero => exact List.suffix_rfl
    | succ i =>
      have hrest : format step rest <:+ format step (d :: rest) := by
        rw [format]
        split
        · exact ⟨[digitSym d, dash], rfl⟩
        · exact ⟨[digitSym d], rfl⟩
      exact (ih i).trans hrest

/-- The output of the digits from index `i` on begins after `i` digits and the separators among them. -/
theorem getElem?_format_drop {ds : List (Fin 32)} {i : Nat} (hi : i ≤ ds.length) (k : Nat) :
    (format step ds)[i + (seps step ds.length - seps step (ds.length - i)) + k]? = (format step (ds.drop i))[k]? := by
  obtain ⟨before, hbefore⟩ := format_drop_suffix step ds i
  have hlen : before.length = i + (seps step ds.length - seps step (ds.length - i)) := by
    have hseps := seps_mono step (Nat.sub_le ds.length i)
    have htotal := congrArg List.length hbefore
    simp only [List.length_append, format_length, List.length_drop] at htotal
    omega
  rw [← hbefore, ← hlen, List.getElem?_append_right (Nat.le_add_right _ k), Nat.add_sub_cancel_left]

end Sys2Proof.Machine

open Sys2Proof Sys2Proof.Machine

/-- Settles O27: the loop takes 5 bits a round until the value is 0. -/
theorem digitsAreTheBase32Expansion : Obligations.DigitsAreTheBase32Expansion :=
  fun v => ⟨foldl_digits v, digits_length v, fun hv => if_pos hv, digits_head?_ne_zero⟩

/-- Settles O28: the output from a digit on is the output of the digits from there on, which begins with that digit and
its separator. -/
theorem separatorsStandEveryStepDigitsFromTheRight : Obligations.SeparatorsStandEveryStepDigitsFromTheRight := by
  refine ⟨format_step_zero, fun step ds hpos => ?_, fun step check D _ =>
    ⟨total_lt_total_succ step check D, total_succ_le step check D⟩⟩
  have hstep : step ≠ 0 := hpos.ne'
  have hseps (D : Nat) : seps step D = (D - 1) / step := if_neg hstep
  refine ⟨by rw [format_length, hseps], fun i hi => ?_⟩
  have hdrop : ds.drop i = ds[i] :: ds.drop (i + 1) := List.drop_eq_getElem_cons hi
  have hat (k : Nat) := getElem?_format_drop step hi.le k
  simp only [hdrop, hseps, Nat.sub_right_comm _ i 1] at hat
  have hrest : (ds.drop (i + 1)).length = ds.length - 1 - i := by rw [List.length_drop]; omega
  refine ⟨?_, fun hlast hmod => ?_⟩
  · rw [List.getElem?_eq_getElem hi]
    exact (hat 0).trans (format_cons_getElem?_zero step _ _)
  · exact (hat 1).trans (format_cons_getElem?_one hstep _ (by omega) (hrest ▸ hmod))

end

section
/-! ENCODE: the digit count, the text, and the errors (42_encoder.md R164 to R167). -/

namespace Sys2Proof.Machine

open Sys2Proof

variable {check lenEn : Bool} {step len d D v : Nat} {s t : State}

/-! ## The digit count -/

theorem add_toNat_le_total (step : Nat) (check : Bool) (D : Nat) : D + check.toNat ≤ total step check D := by
  unfold total
  omega

/-- The closed form inverts `total` (42_encoder.md R164): of the `y + 1` characters before the check symbol, every
`step + 1` but the last one hold one separator. -/
theorem padCandidate_total (step : Nat) (check : Bool) (hD : 0 < D) :
    padCandidate step check (total step check D) = D := by
  obtain ⟨k, rfl⟩ : ∃ k, D = k + 1 := ⟨D - 1, by omega⟩
  by_cases hstep : step = 0
  · simp only [padCandidate, total, seps, hstep, if_true]
    omega
  · have hy : total step check (k + 1) - check.toNat - 1 = k + k / step := by
      simp only [total, seps, hstep, if_false, Nat.add_sub_cancel]
      rw [Nat.add_right_comm, Nat.add_sub_cancel]
    have hq : (k + k / step) / (step + 1) = k / step := by
      have hmod := Nat.mod_lt k (Nat.pos_of_ne_zero hstep)
      have hk := Nat.div_add_mod' k step
      refine Nat.div_eq_of_lt_le ?_ ?_ <;> simp only [Nat.add_mul, Nat.mul_add, Nat.one_mul, Nat.mul_one] <;> omega
    simp only [padCandidate, hy, hstep, if_false, hq, Nat.add_sub_cancel]
    omega

/-- A digit count that the request allows is the one ENCODE takes (42_encoder.md R165 steps 8 to 13). -/
theorem digitCount_eq_ok (hd : 0 < d) (hD : if lenEn then d ≤ D ∧ total step check D = len else D = d) :
    digitCount check lenEn step len d = .ok D := by
  cases lenEn with
  | false => simpa [digitCount] using hD.symm
  | true =>
    obtain ⟨hdD, rfl⟩ := hD
    have hpad : padTo step check (total step check D) d = some D := by
      rw [padTo, padCandidate_total step check (by omega), if_pos ⟨hdD, rfl⟩]
    have hle := add_toNat_le_total step check D
    have hlong : ¬ d + check.toNat > total step check D := by omega
    simp [digitCount, hlong, hpad]

/-- A length that no digit count reaches is too small (42_encoder.md R164). -/
theorem digitCount_eq_lengthTooSmall (h : ¬ ∃ D, d ≤ D ∧ total step check D = len) :
    digitCount check true step len d = .raise .lengthTooSmall := by
  cases hr : digitCount check true step len d with
  | ok D =>
    obtain ⟨hdD, htotal⟩ := digitCount_ok hr
    exact absurd ⟨D, hdD, htotal rfl⟩ h
  | raise e => rw [(digitCount_raise hr).2]
  | fault f => exact absurd hr digitCount_ne_fault

/-- No digit count reaches a length that does not hold the value's own digits and the check symbol. -/
theorem no_digitCount_of_lt (h : len < d + check.toNat) : ¬ ∃ D, d ≤ D ∧ total step check D = len := by
  rintro ⟨D, hdD, rfl⟩
  have hle := add_toNat_le_total step check D
  omega

/-! ## The outcome once the value is known -/

/-- The digit count `D` answers the request for the value `v` (42_encoder.md R164, R165): the `D` with `total(D)`
characters when a length is given, else the value's own digits. -/
abbrev DigitsRequested (check lenEn : Bool) (step len v D : Nat) : Prop :=
  if lenEn then (digits v).length ≤ D ∧ total step check D = len else D = (digits v).length

theorem DigitsRequested.digitCount_eq (h : DigitsRequested check lenEn step len v D) :
    digitCount check lenEn step len (digits v).length = .ok D := digitCount_eq_ok (digits_length_pos v) h

theorem DigitsRequested.le (h : DigitsRequested check lenEn step len v D) : (digits v).length ≤ D :=
  (digitCount_ok h.digitCount_eq).1

theorem finish_encodeValue_of_fits (hD : DigitsRequested check lenEn step len v D)
    (hfits : total step check D ≤ s.cfg.symCap) : s.finish (encodeValue check lenEn step len s v) =
      .next (s.setSymbols (encodeText check step D v)).complete := by
  simp [encodeValue, hD.digitCount_eq, Result.bind, Nat.not_lt.2 hfits, State.finish]

theorem finish_encodeValue_of_capacity (hD : DigitsRequested check lenEn step len v D)
    (hlong : s.cfg.symCap < total step check D) :
    s.finish (encodeValue check lenEn step len s v) = .next (s.raise .capacityExceeded) := by
  simp [encodeValue, hD.digitCount_eq, Result.bind, hlong, State.finish]

theorem finish_encodeValue_of_lengthTooSmall (h : ¬ ∃ D, (digits v).length ≤ D ∧ total step check D = len) :
    s.finish (encodeValue check true step len s v) = .next (s.raise .lengthTooSmall) := by
  simp [encodeValue, digitCount_eq_lengthTooSmall h, Result.bind, State.finish]

/-- ENC.BYTES goes on with the integer of a written sequence of at most VB bytes. -/
theorem exec_encBytes_of_holds {bs : List Byte} (hlen : bs.length = s.byteLen.toNat)
    (hvb : s.byteLen.toNat ≤ s.cfg.vb) (hbs : Mem.Holds s.mem byteBufBase bs) :
    exec (.encBytes check lenEn step len) s =
      s.finish (encodeValue check lenEn step len s (bytesToInteger bs)) := by
  rw [exec_encBytes, State.byteOperand_of_holds hlen hvb hbs]
  rfl

/-! ## The text in memory -/

/-- What the commit of a text changes, field by field. -/
theorem State.setSymbols_encodeText_complete (s : State) (check : Bool) (step : Nat) (h : (digits v).length ≤ D) :
    (s.setSymbols (encodeText check step D v)).complete = { s with
      mem := Mem.setBytes s.mem symBufBase (encodeText check step D v),
      symLen := BitVec.ofNat 16 (total step check D),
      status := { s.status with busy := false, done := true } } := by
  rw [← encodeText_length check step D v h]
  rfl

/-- The text stands in SYM_BUF, and the bytes from its length on are unchanged (42_encoder.md R165). -/
theorem setBytes_encodeText (m : Mem) (check : Bool) (step : Nat) (h : (digits v).length ≤ D) :
    (encodeText check step D v).length = total step check D ∧
    Mem.Holds (Mem.setBytes m symBufBase (encodeText check step D v)) symBufBase (encodeText check step D v) ∧
    Mem.SameOutside m (Mem.setBytes m symBufBase (encodeText check step D v)) symBufBase (total step check D) := by
  rw [← encodeText_length check step D v h]
  exact ⟨rfl, Mem.holds_setBytes _ _ _, fun x hx => Mem.get_setBytes_outside _ _ _ x hx⟩

/-! ## The characters of a text -/

/-- Every character that format writes is a separator or the symbol of a digit. -/
theorem mem_format {ds : List (Fin 32)} {b : Byte} (h : b ∈ format step ds) : b = dash ∨ ∃ d, b = digitSym d := by
  induction ds with
  | nil => simp [format] at h
  | cons d rest ih =>
    rw [format] at h
    split at h
    · rcases List.mem_cons.1 h with rfl | h
      · exact .inr ⟨d, rfl⟩
      · rcases List.mem_cons.1 h with rfl | h
        · exact .inl rfl
        · exact ih h
    · rcases List.mem_cons.1 h with rfl | h
      · exact .inr ⟨d, rfl⟩
      · exact ih h

end Sys2Proof.Machine

open Sys2Proof Sys2Proof.Machine

/-- Settles O29: ENC.INT encodes val(VALUE). -/
theorem encIntWritesItsText : Obligations.EncIntWritesItsText := by
  intro s check lenEn step len D hD hfits
  have hle := DigitsRequested.le hD
  refine ⟨_, ?_, setBytes_encodeText s.mem check step hle⟩
  rw [exec_encInt, finish_encodeValue_of_fits hD hfits, State.setSymbols_encodeText_complete s check step hle]

/-- Settles O30: ENC.BYTES encodes the integer of its byte sequence. -/
theorem encBytesWritesItsText : Obligations.EncBytesWritesItsText := by
  intro s bs check lenEn step len D hlen hvb hbs hD hfits
  have hle := DigitsRequested.le hD
  refine ⟨_, ?_, setBytes_encodeText s.mem check step hle⟩
  rw [exec_encBytes_of_holds hlen hvb hbs, finish_encodeValue_of_fits hD hfits,
    State.setSymbols_encodeText_complete s check step hle]

/-- Settles O31: `total` is strictly increasing, so at most one digit count has a given length. -/
theorem fixedLengthPadsOrReportsTooSmall : Obligations.FixedLengthPadsOrReportsTooSmall := by
  intro s check step n
  simp only [exec_encInt]
  refine ⟨fun hn => finish_encodeValue_of_lengthTooSmall (no_digitCount_of_lt hn),
    finish_encodeValue_of_lengthTooSmall, ?_⟩
  rintro D hD rfl hfits
  obtain ⟨hlen, hholds, -⟩ := setBytes_encodeText s.mem check step hD
  refine ⟨fun D' _ htotal => (total_strictMono step check).injective htotal, _,
    finish_encodeValue_of_fits (lenEn := true) ⟨hD, rfl⟩ hfits, ?_, hlen, hholds⟩
  rw [State.complete_symLen, State.setSymbols_symLen, hlen]

/-- Settles O32: BYTE_LEN is checked before a byte is read, the length before the digits are written, and the text
before it is committed. -/
theorem encodeReportsItsErrorsInOrder : Obligations.EncodeReportsItsErrorsInOrder := by
  refine ⟨fun s check lenEn step len hvb => ?_, fun s bs check step len hlen hvb hbs hno => ?_,
    fun s check lenEn step len D hD hlong => ?_, fun s bs check lenEn step len D hlen hvb hbs hD hlong => ?_⟩
  · rw [exec_encBytes, State.byteOperand_of_lt hvb]
    rfl
  · rw [exec_encBytes_of_holds hlen hvb hbs, finish_encodeValue_of_lengthTooSmall hno]
  · rw [exec_encInt, finish_encodeValue_of_capacity hD hlong]
  · rw [exec_encBytes_of_holds hlen hvb hbs, finish_encodeValue_of_capacity hD hlong]

/-- Settles O34: the body is what format writes. -/
theorem encodedTextIsCanonical : Obligations.EncodedTextIsCanonical := by
  refine fun check step D v => ⟨_, rfl, fun b hb => ?_⟩
  rcases mem_format hb with rfl | ⟨d, rfl⟩
  · exact .inl rfl
  · exact .inr ⟨d.castLE (by decide), d.isLt, rfl⟩

end

section
/-! DECODE of an encoded text (42_encoder.md R169(2); 43_decoder.md R195). -/

namespace Sys2Proof.Machine

open Sys2Proof

variable {check lenEn : Bool} {step len D v : Nat} {s t r : State}

/-! ## The value of an encoded text -/

theorem cls_dash : cls dash = .skip := by decide

theorem cls_digitSym (d : Fin 32) : cls (digitSym d) = .value (d.castLE (by decide)) := cls_sym _

/-- The decoder passes over every character that format writes. -/
theorem dataSymbol_of_mem_format {ds : List (Fin 32)} {b : Byte} (h : b ∈ format step ds) : DataSymbol b := by
  rcases mem_format h with rfl | ⟨d, rfl⟩
  · exact .inl cls_dash
  · exact .inr ⟨_, d.isLt, cls_digitSym d⟩

/-- DECODE drops the separators and finds the digits. -/
theorem dataValues_format (step : Nat) (ds : List (Fin 32)) : dataValues (format step ds) = ds.map (·.val) := by
  induction ds with
  | nil => rfl
  | cons d rest ih =>
    unfold dataValues at ih ⊢
    rw [format]
    split <;> simp [cls_dash, cls_digitSym, ih]

/-- Zero digits at the left do not change the value. -/
theorem symbolValue_format_digits (step n v : Nat) : symbolValue (format step (List.replicate n 0 ++ digits v)) = v := by
  have hzeros : (List.replicate n (0 : Fin 32)).foldl (fun a d => a * 32 + d.val) 0 = 0 := by
    induction n with
    | zero => rfl
    | succ n ih => simpa [List.replicate_succ] using ih
  rw [symbolValue, dataValues_format, List.foldl_map, List.foldl_append, hzeros, foldl_digits]

/-! ## DECODE of a good text -/

theorem Mem.Holds.of_append_left {m : Mem} {a : Nat} {bs bs' : List Byte} (h : Mem.Holds m a (bs ++ bs')) :
    Mem.Holds m a bs := by
  intro k hk
  rw [h k (by rw [List.length_append]; omega), List.getElem?_append_left hk]

theorem scan_of_holds {m : Mem} {data : List Byte} (hm : Mem.Holds m symBufBase data)
    (hd : ∀ b ∈ data, DataSymbol b) : scan m data.length 0 0 = .ok (symbolValue data) :=
  scan_data (n := 0) (i := 0) hm hd

/-- DECODE of data symbols whose value fits, behind them the check symbol of that value when CHECK asks for one
(43_decoder.md R195). -/
theorem decodeSymbols_of_holds {data tail : List Byte} (hm : Mem.Holds s.mem symBufBase (data ++ tail))
    (hd : ∀ b ∈ data, DataSymbol b) (hvalue : symbolValue data = v) (hv : v < 2 ^ s.cfg.valueBits)
    (htail : if check then ∃ c, tail = [c] ∧ cls c = .value (checksum v) else tail = []) :
    decodeSymbols s check (data ++ tail).length = .ok v := by
  have hscan := scan_of_holds hm.of_append_left hd
  have hfit : fitValue s.cfg v = .ok v := fitValue_ok.2 ⟨rfl, hv⟩
  cases check with
  | false =>
    obtain rfl : tail = [] := htail
    simp [decodeSymbols, hscan, hvalue, Result.bind, hfit]
  | true =>
    obtain ⟨c, rfl, hc⟩ := htail
    have hget : Mem.get s.mem (symBufBase + data.length) = some c := by simpa using hm data.length (by simp)
    have hcheck : checkSymbol s.mem data.length = .ok (checksum v) := by simp only [checkSymbol, hget, hc]
    have hverify : verify v (checksum v) = .ok v := verify_ok.2 ⟨rfl, rfl⟩
    simp [decodeSymbols, hscan, hvalue, Result.bind, hcheck, hfit, hverify]

/-- DEC.INT gives the value of an encoded text back. -/
theorem exec_decInt_of_encodeText (hm : Mem.Holds s.mem symBufBase (encodeText check step D v))
    (hlen : (encodeText check step D v).length = s.symLen.toNat) (hcap : s.symLen.toNat ≤ s.cfg.symCap)
    (hv : v < 2 ^ s.cfg.valueBits) : exec (.decInt check) s = .next (s.setValue v).complete := by
  have hdecode : decodeSymbols s check s.symLen.toNat = .ok v := by
    rw [← hlen]
    refine decodeSymbols_of_holds hm (fun _ => dataSymbol_of_mem_format) (symbolValue_format_digits ..) hv ?_
    cases check with
    | false => rfl
    | true => exact ⟨_, rfl, cls_sym _⟩
  have hsym : s.symLenTooBig = false := by simpa [State.symLenTooBig] using hcap
  rw [exec_decInt, hsym, hdecode]
  rfl

/-! ## The end of an ENCODE without an error -/

/-- A command that ends with ERR = 0 did not raise. -/
theorem State.finish_next_of_err_eq_false {x : Result State} (h : s.finish x = .next t) (ht : t.status.err = false) :
    ∃ u, x = .ok u ∧ t = u.complete := by
  rcases State.finish_next.1 h with hok | ⟨e, -, rfl⟩
  · exact hok
  · simp at ht

/-- An ENCODE without an error has committed a text that fits SYM_BUF. -/
theorem encodeValue_eq_ok {u : State} (h : encodeValue check lenEn step len s v = .ok u) :
    ∃ D, (digits v).length ≤ D ∧ total step check D ≤ s.cfg.symCap ∧ u = s.setSymbols (encodeText check step D v) := by
  rcases encodeValue_cases check lenEn step len s v with ⟨D, hD, hfits, he⟩ | ⟨D, -, -, he⟩ | ⟨-, he⟩
  · exact ⟨D, (digitCount_ok hD).1, hfits, by simpa [he] using h.symm⟩
  · simp [he] at h
  · simp [he] at h

/-- R169(2) for the value an ENCODE was given: DEC.INT in a state with the same text gives it back. -/
theorem exec_decInt_of_encodeValue {u : State} (hc : s.cfg.Legal) (hv : v < 2 ^ s.cfg.valueBits)
    (h : encodeValue check lenEn step len s v = .ok u) (hcfg : r.cfg = u.cfg) (hsym : r.symLen = u.symLen)
    (hmem : ∀ k < u.symLen.toNat, Mem.get r.mem (symBufBase + k) = Mem.get u.mem (symBufBase + k)) :
    exec (.decInt check) r = .next (r.setValue v).complete ∧ (r.setValue v).value = v := by
  obtain ⟨D, hD, hfits, rfl⟩ := encodeValue_eq_ok h
  rw [State.setSymbols_cfg] at hcfg
  obtain ⟨hlen, hholds, -⟩ := setBytes_encodeText s.mem check step hD
  have hsymLen : (s.setSymbols (encodeText check step D v)).symLen.toNat = total step check D := by
    obtain ⟨-, ⟨-, -, hcap⟩, -⟩ := hc
    rw [State.setSymbols_symLen, hlen, BitVec.toNat_ofNat]
    exact Nat.mod_eq_of_lt (by omega)
  rw [hsymLen] at hmem
  have hr : Mem.Holds r.mem symBufBase (encodeText check step D v) :=
    fun k hk => (hmem k (hlen ▸ hk)).trans (hholds k hk)
  rw [← hcfg] at hv hfits
  exact ⟨exec_decInt_of_encodeText hr (by rw [hsym, hsymLen, hlen]) (by rw [hsym, hsymLen]; exact hfits) hv,
    r.setValue_value hv⟩

end Sys2Proof.Machine

open Sys2Proof Sys2Proof.Machine

/-- Settles O39: the text's digits have the value that was encoded, and its check symbol is that value's. -/
theorem decodingAnEncodedValueGivesItBack : Obligations.DecodingAnEncodedValueGivesItBack := by
  intro s t r check lenEn step len hinv _ ht hcfg hsym hr hmem
  have hc : s.cfg.Legal := hinv.1
  refine ⟨fun h => ?_, fun bs hlen hbs h => ?_⟩
  · obtain ⟨u, hu, rfl⟩ := State.finish_next_of_err_eq_false h ht
    obtain ⟨hdec, hvalue⟩ := exec_decInt_of_encodeValue hc s.value_lt hu hcfg hsym hmem
    exact ⟨_, hdec, hr, hvalue⟩
  · obtain ⟨u, hu, rfl⟩ := State.finish_next_of_err_eq_false h ht
    obtain ⟨v, hv, hu⟩ := Result.bind_eq_ok.1 hu
    obtain ⟨hvb, -⟩ := State.byteOperand_ok hv
    obtain rfl : bytesToInteger bs = v := by simpa [State.byteOperand_of_holds hlen hvb hbs] using hv
    have hfits := bytesToInteger_lt_two_pow_valueBits (hlen.trans_le hvb)
    obtain ⟨hdec, hvalue⟩ := exec_decInt_of_encodeValue hc hfits hu hcfg hsym hmem
    exact ⟨_, hdec, hr, hvalue⟩

end

section
/-! DECODE up to its commit, and the byte round trip (43_decoder.md R194 to R197, R199(3)). -/

namespace Sys2Proof.Machine

open Sys2Proof

variable {check lenEn : Bool} {len v m : Nat} {s t : State}

/-! ## The integer that DEC.INT and DEC.STR take alike -/

/-- DECODE up to its integer, SYM_LEN's capacity test included (43_decoder.md R195 steps 2 and 4 to 22). -/
def State.decoded (s : State) (check : Bool) : Result Nat :=
  if s.symLenTooBig then .raise .capacityExceeded else decodeSymbols s check s.symLen.toNat

theorem State.decoded_of_lt (h : s.cfg.symCap < s.symLen.toNat) : s.decoded check = .raise .capacityExceeded :=
  if_pos (State.symLenTooBig_of_lt h)

theorem State.decoded_of_le (h : s.symLen.toNat ≤ s.cfg.symCap) :
    s.decoded check = decodeSymbols s check s.symLen.toNat :=
  if_neg (by simpa [State.symLenTooBig] using h)

theorem State.decoded_lt (h : s.decoded check = .ok v) : v < 2 ^ s.cfg.valueBits :=
  (decodeSymbols_ok (Result.ite_raise_eq_ok.1 h).2).1

/-! ## DEC.INT and DEC.STR from that integer on -/

/-- DEC.STR up to its commit: the integer, and in how many bytes it is written (43_decoder.md R194, R195). -/
def State.decodedBytes (s : State) (check lenEn : Bool) (len : Nat) : Result (Nat × Nat) :=
  if byteLenTooBig s.cfg lenEn len then .raise .capacityExceeded
  else (s.decoded check).bind fun v => (byteCount lenEn len v).bind fun m => .ok (v, m)

theorem State.decodedBytes_of_le (hlen : lenEn = true → len ≤ s.cfg.vb) : s.decodedBytes check lenEn len =
    (s.decoded check).bind fun v => (byteCount lenEn len v).bind fun m => .ok (v, m) :=
  if_neg (by simpa [byteLenTooBig] using hlen)

/-- DEC.STR's commit of an integer and its byte count (43_decoder.md R197). -/
def State.setDecodedBytes (s : State) (p : Nat × Nat) : State :=
  (s.setValue p.1).setByteBuf (integerToBytes p.1 p.2)

theorem exec_decInt_eq (check : Bool) (s : State) :
    exec (.decInt check) s = s.finish ((s.decoded check).bind fun v => .ok (s.setValue v)) := by
  rw [exec_decInt, State.decoded]
  cases s.symLenTooBig <;> rfl

/-- The two capacity tests raise one error, so that their order does not show. -/
theorem exec_decStr_eq (check lenEn : Bool) (len : Nat) (s : State) :
    exec (.decStr check lenEn len) s =
      s.finish ((s.decodedBytes check lenEn len).bind fun p => .ok (s.setDecodedBytes p)) := by
  rw [exec_decStr, State.decodedBytes, State.decoded]
  cases s.symLenTooBig with
  | true => cases byteLenTooBig s.cfg lenEn len <;> rfl
  | false =>
    cases byteLenTooBig s.cfg lenEn len with
    | true => rfl
    | false =>
      cases hdec : decodeSymbols s check s.symLen.toNat with
      | ok v => cases hcount : byteCount lenEn len v <;> simp [Result.bind, hcount, State.setDecodedBytes]
      | raise e => rfl
      | fault f => rfl

theorem exec_decInt_of_decoded (h : s.decoded check = .ok v) :
    exec (.decInt check) s = .next (s.setValue v).complete := by
  rw [exec_decInt_eq, h]
  rfl

theorem exec_decStr_of_decoded (hlen : lenEn = true → len ≤ s.cfg.vb) (h : s.decoded check = .ok v)
    (hm : byteCount lenEn len v = .ok m) :
    exec (.decStr check lenEn len) s = .next (s.setDecodedBytes (v, m)).complete := by
  rw [exec_decStr_eq, State.decodedBytes_of_le hlen, h, Result.bind, hm]
  rfl

/-- A DEC.INT without an error has put its integer into VALUE. -/
theorem decoded_of_exec_decInt (h : exec (.decInt check) s = .next t) (ht : t.status.err = false) :
    s.decoded check = .ok t.value := by
  rw [exec_decInt_eq] at h
  obtain ⟨u, hu, rfl⟩ := State.finish_next_of_err_eq_false h ht
  obtain ⟨v, hv, hu⟩ := Result.bind_eq_ok.1 hu
  obtain rfl : s.setValue v = u := by simpa using hu
  exact hv.trans (congrArg Result.ok (s.setValue_value (State.decoded_lt hv)).symm)

/-! ## The bytes of an encoded sequence -/

/-- A sequence whose last byte is not 0 has the natural byte length of its integer. -/
theorem nbytes_bytesToInteger {bs : List Byte} (h : bs.getLast? ≠ some 0) : nbytes (bytesToInteger bs) = bs.length := by
  obtain ⟨hle, hpad⟩ := byteSequencesRoundTrip.2.2 bs
  refine hle.antisymm (Nat.le_of_not_lt fun hlt => h ?_)
  rw [hpad, List.getLast?_append, List.getLast?_replicate, if_neg (by omega)]
  rfl

/-- DEC.STR writes a sequence back whose integer it has decoded, when its byte count is the sequence's length. -/
theorem exec_decStr_of_bytes {bs : List Byte} (hs : s.status.err = false) (hbs : bs.length < 2 ^ 16)
    (hlen : lenEn = true → len ≤ s.cfg.vb) (h : s.decoded check = .ok (bytesToInteger bs))
    (hm : byteCount lenEn len (bytesToInteger bs) = .ok bs.length) :
    ∃ u, exec (.decStr check lenEn len) s = .next u ∧ u.status.err = false ∧ u.byteLen.toNat = bs.length ∧
      Mem.Holds u.mem byteBufBase bs := by
  refine ⟨_, exec_decStr_of_decoded hlen h hm, hs, ?_, ?_⟩
  · rw [State.setDecodedBytes, integerToBytes_bytesToInteger, State.complete_byteLen, State.setByteBuf_byteLen,
      BitVec.toNat_ofNat]
    exact Nat.mod_eq_of_lt hbs
  · rw [State.setDecodedBytes, integerToBytes_bytesToInteger]
    exact Mem.holds_setBytes _ _ _

end Sys2Proof.Machine

open Sys2Proof Sys2Proof.Machine

/-- Settles O40: DEC.STR takes the integer that DEC.INT gives back (R199(2)), and the sequence is that integer's bytes,
as many as LEN says, or as the integer needs when the last byte is not 0. -/
theorem decodingEncodedBytesGivesThemBack : Obligations.DecodingEncodedBytesGivesThemBack := by
  intro s t r bs check lenEn step len hinv hs hlen hbs h ht hcfg hsym hr hmem
  obtain ⟨-, hback⟩ := decodingAnEncodedValueGivesItBack s t r check lenEn step len hinv hs ht hcfg hsym hr hmem
  obtain ⟨u, hu, hue, huv⟩ := hback bs hlen hbs h
  have hdec : r.decoded check = .ok (bytesToInteger bs) := huv ▸ decoded_of_exec_decInt hu hue
  have hshort : bs.length < 2 ^ 16 := hlen ▸ s.byteLen.isLt
  refine ⟨exec_decStr_of_bytes hr hshort (fun _ => ?_) hdec (byteCount_ok.2 ⟨?_, rfl⟩),
    fun hlast => exec_decStr_of_bytes hr hshort nofun hdec (byteCount_ok.2 (nbytes_bytesToInteger hlast).symm)⟩
  · obtain ⟨w, hw, -⟩ := State.finish_next_of_err_eq_false h ht
    obtain ⟨v, hv, -⟩ := Result.bind_eq_ok.1 hw
    rw [hlen, hcfg, exec_cfg h]
    exact (State.byteOperand_ok hv).1
  · exact nbytes_le_iff.2 (bytesToInteger_lt bs)

end

section
/-! DECODE of a symbol string: its value, its errors in their order, and its report (43_decoder.md R190 to R195). -/

namespace Sys2Proof.Machine

open Sys2Proof

variable {check : Bool} {len v : Nat} {i : Instr} {s : State} {data : List Byte} {c : Byte} {e : CmdError}

/-! ## The value of a symbol string -/

/-- The accumulator's start and every digit weigh 32 for each digit behind them. -/
theorem foldl_base32 (ds : List Nat) (a : Nat) : ds.foldl (fun acc x => acc * 32 + x) a =
    a * 32 ^ ds.length + ∑ j ∈ Finset.range ds.length, ds.getD j 0 * 32 ^ (ds.length - 1 - j) := by
  induction ds generalizing a with
  | nil => simp
  | cons d ds ih =>
    rw [List.foldl_cons, ih, List.length_cons, Finset.sum_range_succ']
    simp only [List.getD_cons_succ, List.getD_cons_zero, Nat.add_sub_cancel, Nat.sub_zero, Nat.sub_sub, Nat.add_comm 1]
    ring

theorem symbolValue_append (pre post : List Byte) : symbolValue (pre ++ post) =
    symbolValue pre * 32 ^ (dataValues post).length + symbolValue post := by
  rw [symbolValue, dataValues, List.filterMap_append, List.foldl_append, ← dataValues, ← dataValues, foldl_base32,
    ← symbolValue, symbolValue, symbolValue, foldl_base32 (dataValues post) 0, Nat.zero_mul, Nat.zero_add]

/-! ## DECODE's outcome on a string -/

theorem scan_invalid {m : Mem} {before : List Byte} {b : Byte} {n : Nat} (hlt : before.length < n)
    (hm : Mem.Holds m symBufBase (before ++ [b])) (hd : ∀ c ∈ before, DataSymbol c) (hb : BadInData b) :
    scan m n 0 0 = .raise (.invalidCharacter before.length) := by
  have hget : Mem.get m (symBufBase + before.length) = some b := by simpa using hm before.length (by simp)
  obtain ⟨k, rfl⟩ : ∃ k, n = before.length + (k + 1) := ⟨n - before.length - 1, by omega⟩
  rw [scan_data hm.of_append_left hd, Nat.zero_add, scan, hget]
  rcases hb with hc | ⟨x, hx, hc⟩
  · simp only [hc]
  · simp only [hc, ge_iff_le, if_pos hx]

/-- The check symbol's place is no part of the data portion (43_decoder.md R190). -/
theorem State.decoded_of_invalid {before : List Byte} {b : Byte} (hcap : s.symLen.toNat ≤ s.cfg.symCap)
    (hlt : before.length + check.toNat < s.symLen.toNat) (hm : Mem.Holds s.mem symBufBase (before ++ [b]))
    (hd : ∀ c ∈ before, DataSymbol c) (hb : BadInData b) :
    s.decoded check = .raise (.invalidCharacter before.length) := by
  rw [State.decoded_of_le hcap]
  cases check with
  | false => simp [decodeSymbols, scan_invalid hlt hm hd hb, Result.bind]
  | true =>
    have hdata : before.length < s.symLen.toNat - 1 := Nat.lt_sub_of_add_lt hlt
    simp [decodeSymbols, (Nat.zero_le _).trans_lt hlt |>.ne', scan_invalid hdata hm hd hb, Result.bind]

theorem State.decoded_of_empty (h : s.symLen = 0) : s.decoded true = .raise (.invalidCharacter 0) := by
  have hlen : s.symLen.toNat = 0 := by rw [h]; rfl
  rw [State.decoded_of_le (hlen ▸ Nat.zero_le _), hlen]
  rfl

theorem State.decoded_of_data (hlen : data.length = s.symLen.toNat) (hcap : s.symLen.toNat ≤ s.cfg.symCap)
    (hm : Mem.Holds s.mem symBufBase data) (hd : ∀ b ∈ data, DataSymbol b) :
    s.decoded false = fitValue s.cfg (symbolValue data) := by
  simp [State.decoded_of_le hcap, ← hlen, decodeSymbols, scan_of_holds hm hd, Result.bind]

/-- The last character is classified after the data portion, and compared after the capacity test (R195). -/
theorem State.decoded_of_data_append (hlen : data.length + 1 = s.symLen.toNat) (hcap : s.symLen.toNat ≤ s.cfg.symCap)
    (hm : Mem.Holds s.mem symBufBase (data ++ [c])) (hd : ∀ b ∈ data, DataSymbol b) :
    s.decoded true = (checkSymbol s.mem data.length).bind fun y =>
      (fitValue s.cfg (symbolValue data)).bind fun v => verify v y := by
  simp [State.decoded_of_le hcap, ← hlen, decodeSymbols, scan_of_holds hm.of_append_left hd, Result.bind]

theorem State.decoded_of_check_value {y : Fin 37} (hlen : data.length + 1 = s.symLen.toNat)
    (hcap : s.symLen.toNat ≤ s.cfg.symCap) (hm : Mem.Holds s.mem symBufBase (data ++ [c]))
    (hd : ∀ b ∈ data, DataSymbol b) (hc : cls c = .value y) :
    s.decoded true = (fitValue s.cfg (symbolValue data)).bind fun v => verify v y := by
  have hget : Mem.get s.mem (symBufBase + data.length) = some c := by simpa using hm data.length (by simp)
  have hcheck : checkSymbol s.mem data.length = .ok y := by simp only [checkSymbol, hget, hc]
  rw [State.decoded_of_data_append hlen hcap hm hd, hcheck]
  rfl

theorem State.decoded_of_check_invalid (hlen : data.length + 1 = s.symLen.toNat) (hcap : s.symLen.toNat ≤ s.cfg.symCap)
    (hm : Mem.Holds s.mem symBufBase (data ++ [c])) (hd : ∀ b ∈ data, DataSymbol b)
    (hc : cls c = .skip ∨ cls c = .invalid) : s.decoded true = .raise (.invalidCharacter data.length) := by
  have hget : Mem.get s.mem (symBufBase + data.length) = some c := by simpa using hm data.length (by simp)
  have hcheck : checkSymbol s.mem data.length = .raise (.invalidCharacter data.length) := by
    rcases hc with hc | hc <;> simp only [checkSymbol, hget, hc]
  rw [State.decoded_of_data_append hlen hcap hm hd, hcheck]
  rfl

/-- A data portion whose value does not fit, before its check symbol is compared (43_decoder.md R195 step 20). -/
theorem State.decoded_of_capacity {tail : List Byte} (hlen : data.length + tail.length = s.symLen.toNat)
    (hcap : s.symLen.toNat ≤ s.cfg.symCap) (hm : Mem.Holds s.mem symBufBase (data ++ tail))
    (hd : ∀ b ∈ data, DataSymbol b) (htail : if check then ∃ c y, tail = [c] ∧ cls c = .value y else tail = [])
    (hv : 2 ^ s.cfg.valueBits ≤ symbolValue data) : s.decoded check = .raise .capacityExceeded := by
  have hfit : fitValue s.cfg (symbolValue data) = .raise .capacityExceeded := fitValue_raise.2 ⟨rfl, hv⟩
  cases check with
  | false =>
    obtain rfl : tail = [] := htail
    rw [State.decoded_of_data hlen hcap hm.of_append_left hd, hfit]
  | true =>
    obtain ⟨c, y, rfl, hc⟩ := htail
    rw [State.decoded_of_check_value hlen hcap hm hd hc, hfit]
    rfl

/-- A good string: its value fits, and the check symbol, if asked for, is that value's. -/
theorem State.decoded_of_holds {tail : List Byte} (hlen : data.length + tail.length = s.symLen.toNat)
    (hcap : s.symLen.toNat ≤ s.cfg.symCap) (hm : Mem.Holds s.mem symBufBase (data ++ tail))
    (hd : ∀ b ∈ data, DataSymbol b) (hv : symbolValue data < 2 ^ s.cfg.valueBits)
    (htail : if check then ∃ c, tail = [c] ∧ cls c = .value (checksum (symbolValue data)) else tail = []) :
    s.decoded check = .ok (symbolValue data) := by
  rw [State.decoded_of_le hcap, ← hlen, ← List.length_append]
  exact decodeSymbols_of_holds hm hd rfl hv htail

theorem State.decoded_of_mismatch {y : Fin 37} (hlen : data.length + 1 = s.symLen.toNat)
    (hcap : s.symLen.toNat ≤ s.cfg.symCap) (hm : Mem.Holds s.mem symBufBase (data ++ [c]))
    (hd : ∀ b ∈ data, DataSymbol b) (hv : symbolValue data < 2 ^ s.cfg.valueBits) (hc : cls c = .value y)
    (hy : checksum (symbolValue data) ≠ y) :
    s.decoded true = .raise (.checksumMismatch y (checksum (symbolValue data))) := by
  rw [State.decoded_of_check_value hlen hcap hm hd hc, fitValue_ok.2 ⟨rfl, hv⟩]
  exact verify_raise.2 ⟨rfl, hy⟩

/-! ## The commands' ends -/

/-- The command runs DECODE: DEC.INT, or DEC.STR whose LEN, if given, passes its capacity test. -/
abbrev RunsDecode (c : Config) (check : Bool) (i : Instr) : Prop :=
  i = .decInt check ∨ ∃ lenEn len, i = .decStr check lenEn len ∧ (lenEn = true → len ≤ c.vb)

theorem exec_of_decoded_raise (hi : RunsDecode s.cfg check i) (h : s.decoded check = .raise e) :
    exec i s = .next (s.raise e) := by
  rcases hi with rfl | ⟨lenEn, len, rfl, hlen⟩
  · rw [exec_decInt_eq, h]; rfl
  · rw [exec_decStr_eq, State.decodedBytes_of_le hlen, h]; rfl

theorem exec_decStr_of_capacity (h : s.cfg.vb < len) :
    exec (.decStr check true len) s = .next (s.raise .capacityExceeded) := by
  have hcap : byteLenTooBig s.cfg true len = true := by simpa [byteLenTooBig] using h
  rw [exec_decStr_eq, State.decodedBytes, hcap]
  rfl

theorem exec_decStr_of_lengthTooSmall (hlen : len ≤ s.cfg.vb) (h : s.decoded check = .ok v) (hsmall : len < nbytes v) :
    exec (.decStr check true len) s = .next (s.raise .lengthTooSmall) := by
  rw [exec_decStr_eq, State.decodedBytes_of_le fun _ => hlen, h, Result.bind, byteCount_raise.2 ⟨rfl, hsmall, rfl⟩]
  rfl

/-- A DEC.INT that decodes writes VALUE and nothing else. -/
theorem exec_decInt_frame (h : s.decoded check = .ok v) :
    ∃ m, exec (.decInt check) s = .next { s with mem := m, status := { s.status with busy := false, done := true } } ∧
      { s with mem := m }.value = v ∧ Mem.SameOutside s.mem m valueBase s.cfg.vb :=
  ⟨_, exec_decInt_of_decoded h, s.setValue_value (State.decoded_lt h),
    Mem.sameOutside_setBytes_integerToBytes _ _ _ _⟩

theorem State.value_eq_of_get_eq {t : State} (hcfg : t.cfg = s.cfg)
    (h : ∀ k < s.cfg.vb, Mem.get t.mem (valueBase + k) = Mem.get s.mem (valueBase + k)) : t.value = s.value := by
  rw [State.value, State.value, State.valueBytes, State.valueBytes, hcfg]
  refine congrArg bytesToInteger (List.map_congr_left fun k hk => ?_)
  rw [State.valueByte, State.valueByte, h k (List.mem_range.1 hk)]

/-- VALUE ends where BYTE_BUF begins, in every configuration with VB up to 256 (20_memory.md R60). -/
theorem State.setByteBuf_value (hvb : s.cfg.vb ≤ 256) (bs : List Byte) : (s.setByteBuf bs).value = s.value :=
  State.value_eq_of_get_eq rfl fun k hk =>
    Mem.get_setBytes_outside _ _ _ _ (.inl (by unfold valueBase byteBufBase; omega))

end Sys2Proof.Machine

open Sys2Proof Sys2Proof.Machine

/-- Settles O35: the scan's accumulator is the string's base-32 sum, and the capacity test is on that sum alone. -/
theorem decIntAccumulatesTheDataSymbols : Obligations.DecIntAccumulatesTheDataSymbols := by
  refine ⟨fun s check hcap => exec_of_decoded_raise (.inl rfl) (State.decoded_of_lt hcap), fun text => ?_,
    fun s text hlen hcap hm hd => ⟨fun hv => ?_, fun hv => ?_⟩⟩
  · rw [symbolValue, foldl_base32, Nat.zero_mul, Nat.zero_add]
  · refine exec_of_decoded_raise (.inl rfl) ?_
    rw [State.decoded_of_data hlen hcap hm hd]
    exact fitValue_raise.2 ⟨rfl, hv⟩
  · refine exec_decInt_frame ?_
    rw [State.decoded_of_data hlen hcap hm hd]
    exact fitValue_ok.2 ⟨rfl, hv⟩

/-- Settles O36: the scan stops at the first byte that the data portion may not hold. -/
theorem lowestInvalidPositionIsReported : Obligations.LowestInvalidPositionIsReported := by
  intro s check before b hcap hlt hm hd hb
  have hdec := State.decoded_of_invalid hcap hlt hm hd hb
  exact ⟨exec_of_decoded_raise (.inl rfl) hdec,
    fun lenEn len hlen => exec_of_decoded_raise (.inr ⟨lenEn, len, rfl, hlen⟩) hdec⟩

/-- Settles O37: behind the data portion the check symbol is classified, then the capacity tested, then the two
checksums compared. -/
theorem checkSymbolIsSplitAndVerified : Obligations.CheckSymbolIsSplitAndVerified := by
  refine fun s i hi => ⟨fun h => exec_of_decoded_raise hi (State.decoded_of_empty h), fun data c hlen hcap hm hd =>
    ⟨fun hc => exec_of_decoded_raise hi (State.decoded_of_check_invalid hlen hcap hm hd hc), fun y hc =>
      ⟨fun hv => ?_, fun hv => ⟨fun hy => ?_, ?_⟩⟩⟩⟩
  · exact exec_of_decoded_raise hi (State.decoded_of_capacity hlen hcap hm hd ⟨c, y, rfl, hc⟩ hv)
  · exact exec_of_decoded_raise hi
      (State.decoded_of_mismatch hlen hcap hm hd hv hc fun h => hy (congrArg Fin.val h).symm)
  · rintro hy rfl
    obtain rfl : y = checksum (symbolValue data) := Fin.ext hy
    exact exec_decInt_frame (State.decoded_of_holds (tail := [c]) hlen hcap hm hd hv ⟨c, rfl, hc⟩)

/-- Settles O38: the two capacity tests come before DECODE; with the integer decoded, the byte count decides. -/
theorem decStrWritesValueAndBytes : Obligations.DecStrWritesValueAndBytes := by
  refine ⟨fun s check lenEn len h => ?_, fun s check lenEn len data tail hlen hcap hvb hm hd htail hv => ?_,
    fun s check lenEn len data tail hlen hcap hvb hm hd hv htail => ?_⟩
  · by_cases hvb : lenEn = true ∧ s.cfg.vb < len
    · obtain ⟨rfl, hvb⟩ := hvb
      exact exec_decStr_of_capacity hvb
    · exact exec_of_decoded_raise (.inr ⟨lenEn, len, rfl, fun hen => Nat.le_of_not_lt fun hlt => hvb ⟨hen, hlt⟩⟩)
        (State.decoded_of_lt (h.resolve_right hvb))
  · exact exec_of_decoded_raise (.inr ⟨lenEn, len, rfl, hvb⟩) (State.decoded_of_capacity hlen hcap hm hd htail hv)
  · have hdec := State.decoded_of_holds hlen hcap hm hd hv htail
    refine ⟨?_, fun m hrequest => ?_⟩
    · rintro rfl hsmall
      exact exec_decStr_of_lengthTooSmall (hvb rfl) hdec hsmall
    · have hcount : byteCount lenEn len (symbolValue data) = .ok m :=
        byteCount_ok.2 (by simpa only [and_comm] using hrequest)
      refine ⟨(s.setDecodedBytes (symbolValue data, m)).mem, ?_, fun h256 => ?_, fun k hk => ?_,
        fun a hvalue hbytes => ?_⟩
      · rw [exec_decStr_of_decoded hvb hdec hcount, State.setDecodedBytes, State.setByteBuf, integerToBytes_length]
        rfl
      · exact (State.setByteBuf_value (s := s.setValue _) h256 _).trans (s.setValue_value hv)
      · rw [← getElem?_integerToBytes _ hk]
        exact Mem.get_setBytes_integerToBytes _ _ _ hk
      · exact (Mem.sameOutside_setBytes_integerToBytes _ _ _ _ a hbytes).trans
          (Mem.sameOutside_setBytes_integerToBytes _ _ _ _ a hvalue)

end

section
/-! What DECODE tells apart: a changed data character, but not characters with one entry, and not separators
(43_decoder.md R199). -/

namespace Sys2Proof.Machine

open Sys2Proof

variable {check lenEn : Bool} {len v : Nat} {s : State} {m m' : Mem}

/-! ## A changed data character -/

/-- 32 is invertible modulo 37, so the remainder tells the values of one digit apart. -/
theorem checksum_base32_injective (p q k : Nat) {x x' : Fin 37}
    (h : checksum ((p * 32 + x.val) * 32 ^ k + q) = checksum ((p * 32 + x'.val) * 32 ^ k + q)) : x = x' := by
  have hmod : (p * 32 + x.val) * 32 ^ k + q ≡ (p * 32 + x'.val) * 32 ^ k + q [MOD 37] := congrArg Fin.val h
  have hcoprime : Nat.gcd 37 (32 ^ k) = 1 := Nat.Coprime.pow_right k (by decide)
  have hdigit : x.val ≡ x'.val [MOD 37] :=
    (hmod.add_right_cancel' q).cancel_right_of_coprime hcoprime |>.add_left_cancel' (p * 32)
  exact Fin.ext (hdigit.eq_of_lt_of_lt x.isLt x'.isLt)

theorem dataValues_singleton_of_value {b : Byte} {x : Fin 37} (hb : cls b = .value x) : dataValues [b] = [x.val] := by
  simp [dataValues, hb]

theorem dataValues_cons_of_skip {b : Byte} (hb : cls b = .skip) (bs : List Byte) :
    dataValues (b :: bs) = dataValues bs := by
  simp [dataValues, hb]

theorem symbolValue_cons_of_skip {b : Byte} (hb : cls b = .skip) (bs : List Byte) :
    symbolValue (b :: bs) = symbolValue bs := by
  rw [symbolValue, dataValues_cons_of_skip hb, ← symbolValue]

theorem symbolValue_around {pre post : List Byte} {b : Byte} {x : Fin 37} (hb : cls b = .value x) :
    symbolValue (pre ++ [b] ++ post) =
      (symbolValue pre * 32 + x.val) * 32 ^ (dataValues post).length + symbolValue post := by
  have hone := dataValues_singleton_of_value hb
  have hvalue : symbolValue [b] = x.val := by simp [symbolValue, hone]
  rw [symbolValue_append, symbolValue_append, hone, hvalue, List.length_singleton, pow_one]

theorem dataSymbol_around {pre post : List Byte} {b : Byte} {x : Fin 37} (hd : ∀ y ∈ pre ++ post, DataSymbol y)
    (hb : cls b = .value x) (hx : x.val < 32) : ∀ y ∈ pre ++ [b] ++ post, DataSymbol y := by
  intro y hy
  simp only [List.append_assoc, List.mem_append, List.mem_singleton] at hy hd
  rcases hy with hy | rfl | hy
  · exact hd y (.inl hy)
  · exact .inr ⟨x, hx, hb⟩
  · exact hd y (.inr hy)

/-- A string that passes its check ends in its value's check symbol. -/
theorem State.check_of_decoded {data : List Byte} {c : Byte} (hlen : data.length + 1 = s.symLen.toNat)
    (hcap : s.symLen.toNat ≤ s.cfg.symCap) (hm : Mem.Holds s.mem symBufBase (data ++ [c]))
    (hd : ∀ b ∈ data, DataSymbol b) (h : s.decoded true = .ok v) : cls c = .value (checksum (symbolValue data)) := by
  cases hc : cls c with
  | value y =>
    rw [State.decoded_of_check_value hlen hcap hm hd hc] at h
    obtain ⟨a, ha, hv⟩ := Result.bind_eq_ok.1 h
    obtain ⟨rfl, -⟩ := fitValue_ok.1 ha
    rw [(verify_ok.1 hv).2]
  | skip => simp [State.decoded_of_check_invalid hlen hcap hm hd (.inl hc)] at h
  | invalid => simp [State.decoded_of_check_invalid hlen hcap hm hd (.inr hc)] at h

/-! ## Characters with the same entries -/

theorem scan_congr {n i : Nat} (acc : Nat) (h : ∀ k < n, (Mem.get m' (symBufBase + (i + k))).map cls =
      (Mem.get m (symBufBase + (i + k))).map cls) : scan m' n i acc = scan m n i acc := by
  induction n generalizing i acc with
  | zero => rfl
  | succ n ih =>
    have hhead := h 0 (Nat.succ_pos n)
    have hrest : ∀ acc, scan m' n (i + 1) acc = scan m n (i + 1) acc := fun acc => ih acc fun k hk => by
      rw [Nat.add_assoc, Nat.add_comm 1 k]; exact h (k + 1) (Nat.succ_lt_succ hk)
    rw [Nat.add_zero] at hhead
    rw [scan, scan]
    cases hg : Mem.get m (symBufBase + i) with
    | none =>
      have hg' : Mem.get m' (symBufBase + i) = none := by simpa [hg] using hhead
      rw [hg']
    | some b =>
      obtain ⟨b', hg', hcls⟩ : ∃ b', Mem.get m' (symBufBase + i) = some b' ∧ cls b' = cls b := by
        simpa [hg] using hhead
      simp only [hg', hcls, hrest]

theorem checkSymbol_congr {i : Nat} (h : (Mem.get m' (symBufBase + i)).map cls = (Mem.get m (symBufBase + i)).map cls) :
    checkSymbol m' i = checkSymbol m i := by
  rw [checkSymbol, checkSymbol]
  cases hg : Mem.get m (symBufBase + i) with
  | none =>
    have hg' : Mem.get m' (symBufBase + i) = none := by simpa [hg] using h
    rw [hg']
  | some b =>
    obtain ⟨b', hg', hcls⟩ : ∃ b', Mem.get m' (symBufBase + i) = some b' ∧ cls b' = cls b := by simpa [hg] using h
    simp only [hg', hcls]

/-- DECODE sees the characters only through their entries (43_decoder.md R199(1)). -/
theorem State.decoded_withMem (h : ∀ k < s.symLen.toNat, (Mem.get m (symBufBase + k)).map cls =
      (Mem.get s.mem (symBufBase + k)).map cls) : State.decoded { s with mem := m } check = s.decoded check := by
  have hscan : ∀ n ≤ s.symLen.toNat, scan m n 0 0 = scan s.mem n 0 0 := fun n hn =>
    scan_congr 0 fun k hk => by rw [Nat.zero_add]; exact h k (hk.trans_le hn)
  have hdecode : decodeSymbols { s with mem := m } check s.symLen.toNat = decodeSymbols s check s.symLen.toNat := by
    cases check with
    | false => simp only [decodeSymbols, hscan _ le_rfl, Bool.false_eq_true, if_false]
    | true =>
      by_cases hzero : s.symLen.toNat = 0
      · simp only [decodeSymbols, hzero, if_true]
      · simp only [decodeSymbols, hzero, if_true, if_false, hscan _ (Nat.sub_le _ 1),
          checkSymbol_congr (h (s.symLen.toNat - 1) (by omega))]
  exact ite_congr rfl (fun _ => rfl) fun _ => hdecode

theorem State.decodedBytes_withMem (h : ∀ k < s.symLen.toNat, (Mem.get m (symBufBase + k)).map cls =
      (Mem.get s.mem (symBufBase + k)).map cls) :
    State.decodedBytes { s with mem := m } check lenEn len = s.decodedBytes check lenEn len := by
  rw [State.decodedBytes, State.decodedBytes, State.decoded_withMem h]

/-! ## The same commit over another memory -/

/-- A range write leaves alike what it covers and what was alike before. -/
theorem Mem.get_setBytes_congr {a x : Nat} {bs : List Byte}
    (h : x < a ∨ a + bs.length ≤ x → Mem.get m' x = Mem.get m x) :
    Mem.get (Mem.setBytes m' a bs) x = Mem.get (Mem.setBytes m a bs) x := by
  by_cases hin : a ≤ x ∧ x < a + bs.length
  · obtain ⟨k, rfl⟩ := Nat.exists_eq_add_of_le hin.1
    rw [Mem.get_setBytes_inside _ _ _ _ (by omega), Mem.get_setBytes_inside _ _ _ _ (by omega)]
  · rw [Mem.get_setBytes_outside _ _ _ _ (by omega), Mem.get_setBytes_outside _ _ _ _ (by omega), h (by omega)]

/-- Two states with the same outcome of a command up to its commit end alike: both commit, or both report. -/
theorem State.finish_bind_cases {α : Type} {t : State} {x : Result α} (r : State) (commit : State → α → State)
    (h : s.finish (x.bind fun a => .ok (commit s a)) = .next t) :
    (∃ a, t = (commit s a).complete ∧ r.finish (x.bind fun a => .ok (commit r a)) = .next (commit r a).complete) ∨
    (∃ e, t = s.raise e ∧ r.finish (x.bind fun a => .ok (commit r a)) = .next (r.raise e)) := by
  cases x with
  | ok a => exact .inl ⟨a, by simpa [Result.bind, State.finish] using h.symm, rfl⟩
  | raise e => exact .inr ⟨e, by simpa [Result.bind, State.finish] using h.symm, rfl⟩
  | fault f => simp [Result.bind, State.finish] at h

/-- VALUE is written whole, so what stood in memory does not show. -/
theorem State.setValue_withMem_get (v : Nat) {k : Nat} (hk : k < s.cfg.vb) :
    Mem.get (State.setValue { s with mem := m } v).mem (valueBase + k) =
      Mem.get (s.setValue v).mem (valueBase + k) :=
  Mem.get_setBytes_congr fun hout => by simp only [integerToBytes_length] at hout; omega

end Sys2Proof.Machine

open Sys2Proof Sys2Proof.Machine

/-- Settles O41: the check symbol stays, and the changed value, if it fits, has another remainder modulo 37. -/
theorem oneChangedCharacterIsDetected : Obligations.OneChangedCharacterIsDetected := by
  rintro s s' pre post b b' c x x' hcfg hsym - - hlen hcap hm hm' hd hb hb' hx hx' hne ⟨t, ht, hterr⟩
  have hlen₁ : (pre ++ [b] ++ post).length + 1 = s.symLen.toNat := by rwa [List.length_append] at hlen
  have hlen₂ : (pre ++ [b'] ++ post).length + 1 = s'.symLen.toNat := by
    simpa only [hsym, List.length_append, List.length_singleton] using hlen
  have hc := State.check_of_decoded hlen₁ hcap hm (dataSymbol_around hd hb hx) (decoded_of_exec_decInt ht hterr)
  have hcap' : s'.symLen.toNat ≤ s'.cfg.symCap := by rwa [hsym, hcfg]
  have hd' := dataSymbol_around hd hb' hx'
  by_cases hv : 2 ^ s'.cfg.valueBits ≤ symbolValue (pre ++ [b'] ++ post)
  · exact ⟨_, exec_of_decoded_raise (.inl rfl)
      (State.decoded_of_capacity (tail := [c]) hlen₂ hcap' hm' hd' ⟨c, _, rfl, hc⟩ hv), rfl, .inr rfl⟩
  · refine ⟨_, exec_of_decoded_raise (.inl rfl)
      (State.decoded_of_mismatch hlen₂ hcap' hm' hd' (Nat.lt_of_not_le hv) hc fun hsame => hne ?_), rfl, .inl rfl⟩
    rw [symbolValue_around hb, symbolValue_around hb'] at hsame
    exact (checksum_base32_injective _ _ _ hsame).symm

/-- Settles O42: DECODE reads entries of DEC_LUT, not bytes, and commits from its integer alone; a separator has no
value. -/
theorem aliasesAndSeparatorsAreTransparent : Obligations.AliasesAndSeparatorsAreTransparent := by
  refine ⟨fun s t m check _ hm h => ?_, fun s t m check lenEn len _ hm h => ?_, fun pre post => ?_⟩
  · rw [exec_decInt_eq] at h
    rw [exec_decInt_eq, State.decoded_withMem hm]
    rcases State.finish_bind_cases { s with mem := m } State.setValue h with ⟨v, rfl, hu⟩ | ⟨e, rfl, hu⟩
    · exact ⟨_, hu, rfl, rfl, rfl, fun _ => State.value_eq_of_get_eq rfl fun _ hk => State.setValue_withMem_get v hk⟩
    · exact ⟨_, hu, rfl, rfl, rfl, fun herr => absurd herr (by simp)⟩
  · rw [exec_decStr_eq] at h
    rw [exec_decStr_eq, State.decodedBytes_withMem hm]
    rcases State.finish_bind_cases { s with mem := m } State.setDecodedBytes h with ⟨p, rfl, hu⟩ | ⟨e, rfl, hu⟩
    · refine ⟨_, hu, rfl, rfl, rfl, fun _ => ⟨State.value_eq_of_get_eq rfl fun k hk => ?_, rfl, fun k hk => ?_⟩⟩
      · exact Mem.get_setBytes_congr fun _ => State.setValue_withMem_get p.1 hk
      · have hcount : k < (integerToBytes p.1 p.2).length := hk.trans_le (Nat.mod_le _ _)
        exact Mem.get_setBytes_congr fun hout => by unfold byteBufBase at hout; omega
    · exact ⟨_, hu, rfl, rfl, rfl, fun herr => absurd herr (by simp)⟩
  · have hdash : cls 0x2D = .skip := cls_dash
    rw [List.append_assoc, List.singleton_append, symbolValue_append, symbolValue_append,
      dataValues_cons_of_skip hdash, symbolValue_cons_of_skip hdash]

end

section
/-! The life of a command: the accept, the engine's step and the completion (44_control.md R220 to R222, R226). -/

namespace Sys2Proof.Machine

open Sys2Proof

variable {s : State}

/-! ## A step by the schedule's next turn -/

section Scheduled

variable (hc : s.cfg.Legal) {rest : List Turn}
include hc

theorem step_of_engine (hs : s.sched = .engine :: rest) : step s =
    if s.status.busy then exec (decode s.cmd) { s with sched := rest } else .next { s with sched := rest } := by
  have hturn : s.turn = .engine := by rw [State.turn, hs]
  have htaken : s.turnTaken = { s with sched := rest } := by rw [State.turnTaken, hs, List.tail_cons]
  rw [step_of_legal hc, hturn, htaken]
  rfl

theorem step_of_host (hs : s.sched = .host :: rest) : step s = State.hostMove { s with sched := rest } := by
  have hturn : s.turn = .host := by rw [State.turn, hs]
  have htaken : s.turnTaken = { s with sched := rest } := by rw [State.turnTaken, hs, List.tail_cons]
  rw [step_of_legal hc, hturn, htaken]

end Scheduled

theorem State.withFetchWord_toNat (s : State) (w : Word) :
    s.withFetchWord 32 w.toNat = { s.accept w with sched := .engine :: s.sched } := by
  rw [State.withFetchWord, Nat.mod_eq_of_lt w.isLt, BitVec.ofNat_toNat, BitVec.setWidth_eq]

/-! ## Completion -/

/-- A command whose operand bytes are written answers a next state (70_reset_and_hazards.md R261). -/
theorem exec_of_operandsReady {i : Instr} (h : operandsReady i s) : ∃ t, exec i s = .next t := by
  cases hx : exec i s with
  | next t => exact ⟨t, rfl⟩
  | refused r => exact absurd hx (exec_ne_refused i s r)
  | fault f =>
    rcases exec_fault hx with ⟨hi, hf⟩ | ⟨check, hi, hf⟩
    · obtain ⟨k, hk, -, hn⟩ := State.byteOperand_fault hf
      rcases hi with rfl | ⟨check, lenEn, step, len, rfl⟩ <;> exact absurd hn (h k hk)
    · obtain ⟨k, hk, -, hn⟩ := decodeSymbols_fault hf
      rcases hi with rfl | ⟨lenEn, len, rfl⟩ <;> exact absurd hn (h k hk)

end Sys2Proof.Machine

open Sys2Proof Sys2Proof.Machine

/-- Settles O7: CMD's location takes the word, and the write is answered. -/
theorem idleCmdWriteAccepts : Obligations.IdleCmdWriteAccepts := fun _ w hb =>
  State.serve_write_idle (l := .cmd) hb w (by decide) rfl

/-- Settles O8: the turn is the engine's by the schedule, or because BUSY = 1 and the schedule is used up. -/
theorem stepRunsTheCommandInFlight : Obligations.StepRunsTheCommandInFlight := by
  refine ⟨fun s rest hc hb hs => ?_, fun s hc hb hs => step_of_busy hc hs hb, fun s w hc => ?_,
    fun s rest hc hb hs => ?_, fun s hc hb hs hh => ?_⟩
  · rw [step_of_engine hc hs, if_pos hb]
  · rw [State.withFetchWord_toNat]
    exact step_of_engine (s := { s.accept w with sched := .engine :: s.sched }) hc rfl
  · rw [step_of_engine hc hs, hb]
    rfl
  · rw [step_of_idle hc hs hb, State.hostMove, hh]

/-- Settles O9: neither a commit write nor a raise touches these fields, and each ends in `complete`. -/
theorem completionEndsTheCommand : Obligations.CompletionEndsTheCommand := by
  intro i s t h
  rcases exec_next h with ⟨u, hu, rfl⟩ | ⟨e, rfl⟩
  · rw [hu.eq_update]
    exact ⟨rfl, rfl, rfl, rfl, rfl, rfl, rfl, rfl, rfl⟩
  · exact ⟨rfl, rfl, rfl, rfl, rfl, rfl, rfl, rfl, rfl⟩

/-- Settles O10: with a command in flight the report is already clear. -/
theorem nopOnlyReportsSuccess : Obligations.NopOnlyReportsSuccess := by
  refine ⟨fun s hinv hb => ?_, fun w hw => ?_⟩
  · obtain ⟨herr, hcode, hpos, hchk⟩ := hinv.clean_of_busy hb
    simp only [exec_nop, State.finish, State.complete, Status.completed, herr, hcode, hpos, hchk]
  · obtain ⟨sel, check, lenEn, step, len, rfl⟩ := exists_wordOfFields_of_op (op := 0) hw
    exact InRow.nop.decode_eq

end

section
/-! What the host can do to a command in flight and to its report (44_control.md R221, R224, R225;
60_exceptions.md R235; 10_state.md R23). -/

namespace Sys2Proof.Machine

open Sys2Proof

variable {s t : State} {l : Loc} {a : Access}

/-! ## While a command is in flight -/

/-- `t` is `s` but for WERR and the fields of the outside world: what the command in flight reads and writes has not
changed. -/
abbrev State.Frozen (s t : State) : Prop :=
  t = { s with
    status := { s.status with werr := t.status.werr }, host := t.host, resp := t.resp, draws := t.draws }

theorem State.Frozen.cfg (h : s.Frozen t) : t.cfg = s.cfg := by rw [h]
theorem State.Frozen.cmd (h : s.Frozen t) : t.cmd = s.cmd := by rw [h]
theorem State.Frozen.sched (h : s.Frozen t) : t.sched = s.sched := by rw [h]
theorem State.Frozen.busy (h : s.Frozen t) : t.status.busy = s.status.busy := by rw [h]

theorem State.Frozen.operandsReady {i : Instr} (h : s.Frozen t) (hready : Machine.operandsReady i s) :
    Machine.operandsReady i t := by
  rw [h]
  exact hready

section Busy

variable (hb : s.status.busy = true)
include hb

theorem State.serveWrite_dropped (w : Word) (hl : l.frozenWhileBusy = true) :
    s.serveWrite l w = .next ({ s with status := s.status.withWerr }.respond .ok) := if_pos ⟨hb, hl⟩

theorem State.serveRead_free (hl : l.definedWhileBusy = false) :
    s.serveRead l = .next ({ s with draws := s.draws + 1 }.respond (.data (Config.freeWord s.draws))) :=
  if_pos ⟨hb, hl⟩

theorem State.serve_frozen (h : s.serve a = .next t) : s.Frozen t := by
  rcases State.serve_next h with ⟨r, rfl⟩ | ⟨-, r, rfl⟩ | ⟨-, rfl⟩ | ⟨_, _, data, _, l, -, -, -, hl, rfl⟩
  · rfl
  · rfl
  · rfl
  · cases l with
    | cmd | symLen | byteLen | array => cases hl hb
    | errPos | chk | result | cfg => rfl
    | status =>
      rw [State.Frozen, State.writeLoc, Status.written_eq]
      rfl

theorem State.hostMove_frozen (h : s.hostMove = .next t) : s.Frozen t := by
  rcases State.hostMove_next h with ⟨-, rfl⟩ | ⟨_, a, ⟨ops, rfl⟩, h⟩
  · rfl
  · exact State.serve_frozen (s := { s with host := ops }) hb h

/-- No read stops the machine: a buffer byte that nothing has written is read as a free word. -/
theorem State.serveRead_answers (l : Loc) : ∃ t, s.serveRead l = .next t := by
  cases l with
  | cmd | status | cfg => exact ⟨_, State.serveRead_served (.inr rfl) rfl⟩
  | errPos | chk | result | symLen | byteLen | array => exact ⟨_, State.serveRead_free hb rfl⟩

theorem State.serve_answers (a : Access) : ∃ t, s.serve a = .next t := by
  cases a with
  | read addr width =>
    simp only [State.serve]
    split
    · exact ⟨_, rfl⟩
    · split
      · exact ⟨_, rfl⟩
      · exact State.serveRead_answers hb _
  | write addr width data =>
    simp only [State.serve, State.serveWrite]
    repeat' split
    all_goals exact ⟨_, rfl⟩

theorem State.hostMove_answers : ∃ t, s.hostMove = .next t := by
  unfold State.hostMove
  split
  · exact ⟨s, rfl⟩
  · exact State.serve_answers (by exact hb) _
  · exact State.serve_answers (by split <;> exact hb) _

theorem exists_step_of_host (hc : s.cfg.Legal) {rest : List Turn} (hs : s.sched = .host :: rest) :
    ∃ t, step s = .next t ∧ State.Frozen { s with sched := rest } t := by
  obtain ⟨t, ht⟩ := State.hostMove_answers (s := { s with sched := rest }) hb
  exact ⟨t, (step_of_host hc hs).trans ht, State.hostMove_frozen (s := { s with sched := rest }) hb ht⟩

end Busy

/-! ## While the block is idle -/

/-- RESULT, BUSY, DONE and the error report are as they were. -/
abbrev State.KeepsReport (s t : State) : Prop :=
  t.result = s.result ∧ t.status = { s.status with werr := t.status.werr } ∧ t.errPos = s.errPos ∧ t.chk = s.chk

/-- RESULT and WERR are as they were, and the rest of the report is what an accept leaves. -/
abbrev State.ClearsReport (s t : State) : Prop :=
  t.result = s.result ∧ t.status = s.status.accepted ∧ t.errPos = 0 ∧ t.chk = { actual := 0, expected := 0 }

theorem State.writeLoc_report (w : Word) (l : Loc) :
    s.KeepsReport (s.writeLoc w l) ∨ s.ClearsReport (s.writeLoc w l) := by
  cases l with
  | cmd => exact .inr ⟨rfl, rfl, rfl, rfl⟩
  | status =>
    refine .inl ⟨rfl, ?_, rfl, rfl⟩
    rw [State.writeLoc, Status.written_eq]
  | errPos | chk | result | symLen | byteLen | cfg | array => exact .inl ⟨rfl, rfl, rfl, rfl⟩

theorem State.serve_report (h : s.serve a = .next t) (hb : s.status.busy = false) :
    s.KeepsReport t ∨ s.ClearsReport t := by
  rcases State.serve_next h with ⟨r, rfl⟩ | ⟨hbusy, -⟩ | ⟨hbusy, -⟩ | ⟨_, _, data, _, l, -, -, -, -, rfl⟩
  · exact .inl ⟨rfl, rfl, rfl, rfl⟩
  · simp [hb] at hbusy
  · simp [hb] at hbusy
  · exact State.writeLoc_report _ l

theorem step_report (h : step s = .next t) (hb : s.status.busy = false) (hturn : s.turn ≠ .reset) :
    s.KeepsReport t ∨ s.ClearsReport t := by
  obtain ⟨-, ⟨-, hbusy, -⟩ | ⟨-, -, rfl⟩ | ⟨-, h⟩ | ⟨hreset, -⟩⟩ := step_next h
  · simp [hb] at hbusy
  · exact .inl ⟨rfl, rfl, rfl, rfl⟩
  · rcases State.hostMove_next h with ⟨-, rfl⟩ | ⟨_, a, ⟨ops, rfl⟩, h⟩
    · exact .inl ⟨rfl, rfl, rfl, rfl⟩
    · exact State.serve_report (s := { s.turnTaken with host := ops }) h hb
  · exact absurd hreset hturn

/-! ## What clears WERR -/

/-- STATUS is mapped at one offset (20_memory.md R60). -/
theorem locate_eq_status {c : Config} {width : Width} {off : Nat} (h : locate c width off = some .status) :
    width = .w32 ∧ off = 0x004 := by
  unfold locate at h
  split_ifs at h with hform <;> cases h
  exact ⟨by tauto, by assumption⟩

theorem offsetOf_eq_some {c : Config} {addr off : Nat} (h : offsetOf c addr = some off) : addr = c.base + off := by
  unfold offsetOf at h
  split_ifs at h
  cases h
  omega

/-- Of all locations only STATUS gives the host a way to clear WERR. -/
theorem State.writeLoc_clears_werr {w : Word} (hs : s.status.werr = true) (ht : (s.writeLoc w l).status.werr = false) :
    l = .status ∧ w.getLsbD 3 = true := by
  cases l with
  | status => simpa [State.writeLoc, hs] using ht
  | cmd | errPos | chk | result | symLen | byteLen | cfg | array => cases hs.symm.trans ht

theorem State.serve_clears_werr (h : s.serve a = .next t) (hs : s.status.werr = true) (ht : t.status.werr = false) :
    ∃ data, a = .write (s.cfg.base + 0x004) .w32 data ∧ data.getLsbD 3 = true := by
  rcases State.serve_next h with ⟨r, rfl⟩ | ⟨-, r, rfl⟩ | ⟨-, rfl⟩ | ⟨addr, width, data, off, l, rfl, ho, hl, -, rfl⟩
  · cases hs.symm.trans ht
  · cases hs.symm.trans ht
  · cases ht
  · obtain ⟨rfl, hbit⟩ := State.writeLoc_clears_werr hs ht
    obtain ⟨rfl, rfl⟩ := locate_eq_status hl
    exact ⟨data, by rw [offsetOf_eq_some ho], by simpa using hbit⟩

/-- A round of POLL only reads, so the write is one of the host's own accesses. -/
theorem State.hostMove_clears_werr (h : s.hostMove = .next t) (hs : s.status.werr = true)
    (ht : t.status.werr = false) : ∃ data rest,
      s.host = .access (.write (s.cfg.base + 0x004) .w32 data) :: rest ∧ data.getLsbD 3 = true := by
  unfold State.hostMove at h
  split at h
  · cases h
    cases hs.symm.trans ht
  · obtain ⟨data, rfl, hbit⟩ := State.serve_clears_werr h hs ht
    exact ⟨data, _, by assumption, hbit⟩
  · obtain ⟨data, ha, -⟩ := State.serve_clears_werr h (by split <;> exact hs) ht
    cases ha

/-! ## The run of a command in flight -/

/-- A step that is the command's completion ends it. -/
theorem run_of_exec {u : State} {i : Instr} (hstep : step s = exec i u) (hready : operandsReady i u) :
    ∃ t, Host.Core.run core 1 s = .next t ∧ t.status.busy = false ∧ t.status.done = true ∧ t.cmd = u.cmd := by
  obtain ⟨t, ht⟩ := exec_of_operandsReady hready
  obtain ⟨hbusy, hdone, -, hcmd, -⟩ := completionEndsTheCommand i u t ht
  exact ⟨t, run_succ (hstep.trans ht) 0, hbusy, hdone, hcmd⟩

end Sys2Proof.Machine

open Sys2Proof Sys2Proof.Machine

/-- Settles O45: the location fixes whether the write is dropped or served. -/
theorem writesWhileBusyAreDropped : Obligations.WritesWhileBusyAreDropped := by
  intro s off w hb
  have dropped {l : Loc} (hoff : off < 0x800) (hl : locate s.cfg .w32 off = some l) (hf : l.frozenWhileBusy = true) :=
    (State.serve_write hoff hl w).trans (State.serveWrite_dropped hb w hf)
  have served {l : Loc} (hoff : off < 0x800) (hl : locate s.cfg .w32 off = some l) (hf : l.frozenWhileBusy = false) :=
    (State.serve_write hoff hl w).trans (State.serveWrite_served w (.inr hf))
  refine ⟨?_, ?_, ?_⟩
  · rintro (rfl | rfl | rfl | ⟨halign, hoff, hin⟩)
    · exact dropped (l := .cmd) (by decide) rfl rfl
    · exact dropped (l := .symLen) (by decide) rfl rfl
    · exact dropped (l := .byteLen) (by decide) rfl rfl
    · exact dropped hoff (locate_of_inArrays halign hin) rfl
  · rintro rfl
    rw [← Status.written_eq]
    exact served (l := .status) (by decide) rfl rfl
  · rintro (rfl | rfl | rfl | rfl)
    · exact served (l := .errPos) (by decide) rfl rfl
    · exact served (l := .chk) (by decide) rfl rfl
    · exact served (l := .result) (by decide) rfl rfl
    · exact served (l := .cfg) (by decide) rfl rfl

/-- Settles O46: the location fixes whether the read is defined or free. -/
theorem readsWhileBusyAreUnspecified : Obligations.ReadsWhileBusyAreUnspecified := by
  intro s off hb
  have defined {l : Loc} {w : Word} (hoff : off < 0x800) (hl : locate s.cfg .w32 off = some l)
      (hd : l.definedWhileBusy = true) (hw : s.readLoc l = .ok w) :=
    (State.serve_read hoff hl).trans (State.serveRead_served (.inr hd) hw)
  have free {l : Loc} (hoff : off < 0x800) (hl : locate s.cfg .w32 off = some l) (hd : l.definedWhileBusy = false) :=
    (State.serve_read hoff hl).trans (State.serveRead_free hb hd)
  refine ⟨?_, ?_, ?_, ?_⟩
  · rintro rfl
    exact defined (l := .cmd) (by decide) rfl rfl rfl
  · rintro rfl
    exact defined (l := .status) (by decide) rfl rfl rfl
  · rintro rfl
    exact defined (l := .cfg) (by decide) rfl rfl rfl
  · rintro (rfl | rfl | rfl | rfl | rfl | ⟨halign, hoff, hin⟩)
    · exact free (l := .errPos) (by decide) rfl rfl
    · exact free (l := .chk) (by decide) rfl rfl
    · exact free (l := .result) (by decide) rfl rfl
    · exact free (l := .symLen) (by decide) rfl rfl
    · exact free (l := .byteLen) (by decide) rfl rfl
    · exact free hoff (locate_of_inArrays halign hin) rfl

/-- Settles O51: BUSY holds the host off all but WERR; an idle block's report changes only by an accept; and only
STATUS's own write, or reset, clears WERR. -/
theorem hostMovesFreezeTheCommandInFlight : Obligations.HostMovesFreezeTheCommandInFlight := by
  refine ⟨fun s t hb h => ?_, fun s t hb hturn h => ?_, fun s t h hs ht => ?_⟩
  · rw [State.hostMove_frozen hb h]
    exact ⟨rfl, rfl, rfl, rfl, rfl, rfl, rfl, rfl, rfl⟩
  · rcases step_report h hb hturn with ⟨hresult, hstatus, hreport⟩ | ⟨hresult, hstatus, hreport⟩
    · have hidle : t.status.busy = false := (congrArg Status.busy hstatus).trans hb
      exact ⟨hresult, fun _ => ⟨hstatus, hreport⟩, fun hbusy => by simp [hidle] at hbusy⟩
    · have hbusy : t.status.busy = true := congrArg Status.busy hstatus
      exact ⟨hresult, fun hidle => by simp [hbusy] at hidle, fun _ => ⟨hstatus, hreport⟩⟩
  · obtain ⟨-, ⟨-, -, h⟩ | ⟨-, -, rfl⟩ | ⟨hturn, h⟩ | ⟨hturn, -⟩⟩ := step_next h
    · obtain ⟨-, -, hwerr, -⟩ := completionEndsTheCommand _ _ _ h
      cases hs.symm.trans (hwerr.symm.trans ht)
    · cases hs.symm.trans ht
    · exact .inr ⟨hturn, State.hostMove_clears_werr (s := s.turnTaken) h hs ht⟩
    · exact .inl hturn

/-- Settles O60, by induction on the schedule: a move of the host leaves the command and its operands in place, and the
engine's move ends it. -/
theorem everyAcceptedCommandCompletes : Obligations.EveryAcceptedCommandCompletes := by
  intro s hc hb hready hreset
  induction hs : s.sched generalizing s with
  | nil =>
    obtain ⟨t, hrun⟩ := run_of_exec (step_of_busy hc hs hb) hready
    exact ⟨1, t, Nat.le_refl 1, hrun⟩
  | cons turn rest ih =>
    cases turn with
    | engine =>
      have hstep := (step_of_engine hc hs).trans (if_pos hb)
      obtain ⟨t, hrun⟩ := run_of_exec hstep hready
      exact ⟨1, t, Nat.le_add_left 1 _, hrun⟩
    | host =>
      obtain ⟨t, ht, hfrozen⟩ := exists_step_of_host hb hc hs
      have hcmd : t.cmd = s.cmd := hfrozen.cmd
      have hsched : t.sched = rest := hfrozen.sched
      have hnone : Turn.reset ∉ t.sched := fun h => hreset (hs ▸ List.mem_cons_of_mem _ (hsched ▸ h))
      obtain ⟨k, u, hk, hrun, hend⟩ := ih t (hfrozen.cfg ▸ hc) (hfrozen.busy.trans hb)
        (hcmd ▸ hfrozen.operandsReady hready) hnone hsched
      exact ⟨k + 1, u, Nat.succ_le_succ hk, (run_succ ht k).trans hrun, hcmd ▸ hend⟩
    | reset => simp [hs] at hreset

end

section
/-! What an error report writes, and which command reports which error (60_exceptions.md R231 to R234). -/

namespace Sys2Proof.Machine

open Sys2Proof

variable {check lenEn : Bool} {step len v : Nat} {s t u : State} {e : CmdError}

/-! ## The report's registers -/

theorem CmdError.errPosAfter_of_ne (h : ∀ pos, e ≠ .invalidCharacter pos) (old : BitVec 16) :
    e.errPosAfter old = old := by
  cases e with
  | invalidCharacter pos => exact absurd rfl (h pos)
  | _ => rfl

theorem CmdError.chkAfter_of_ne (h : ∀ actual expected, e ≠ .checksumMismatch actual expected) (old : Chk) :
    e.chkAfter old = old := by
  cases e with
  | checksumMismatch actual expected => exact absurd rfl (h actual expected)
  | _ => rfl

/-- Both symbols' values fit CHK's 6-bit fields (10_state.md R25). -/
theorem CmdError.word_chkAfter_checksumMismatch (actual expected : Fin 37) (old : Chk) :
    ((CmdError.checksumMismatch actual expected).chkAfter old).word =
      BitVec.ofNat 32 (expected.val <<< 8 ||| actual.val) := by
  have fits (y : Fin 37) : (BitVec.ofNat 6 y.val).toNat = y.val := by
    rw [BitVec.toNat_ofNat, Nat.mod_eq_of_lt (by omega)]
  rw [Chk.word_eq, CmdError.chkAfter, fits, fits]

/-! ## The errors of a command's parts -/

/-- A capacity test raises its own error, or what follows it raises. -/
theorem Result.ite_raise_eq_raise {α : Type} {p : Prop} [Decidable p] {e' : CmdError} {r : Result α} :
    (if p then .raise e' else r) = .raise e ↔ p ∧ e' = e ∨ ¬ p ∧ r = .raise e := by
  split <;> simp [*]

/-- A commit raises nothing: what stands before it does. -/
theorem Result.bind_ok_eq_raise {α β : Type} {r : Result α} {f : α → β} :
    (r.bind fun a => .ok (f a)) = .raise e ↔ r = .raise e := by
  cases r <;> simp [Result.bind]

/-- The errors of ENCODE from its value on (42_encoder.md R165). -/
theorem encodeValue_raise (h : encodeValue check lenEn step len s v = .raise e) :
    e = .capacityExceeded ∨ e = .lengthTooSmall ∧ lenEn = true := by
  rcases Result.bind_eq_raise.1 h with h | ⟨D, -, h⟩
  · exact .inr (digitCount_raise h).symm
  · rcases Result.ite_raise_eq_raise.1 h with ⟨-, rfl⟩ | ⟨-, h⟩
    · exact .inl rfl
    · cases h

/-- The errors of DECODE up to its integer (43_decoder.md R195 steps 2 and 4 to 22). -/
theorem State.decoded_raise (h : s.decoded check = .raise e) :
    e = .capacityExceeded ∨ (∃ p, e = .invalidCharacter p) ∨ (∃ y x, e = .checksumMismatch y x) ∧ check = true := by
  rcases Result.ite_raise_eq_raise.1 h with ⟨-, rfl⟩ | ⟨-, h⟩
  · exact .inl rfl
  · rcases decodeSymbols_raise h with ⟨p, hp, -⟩ | hcap | ⟨hcheck, hsum⟩
    · exact .inr (.inl ⟨p, hp⟩)
    · exact .inl hcap
    · exact .inr (.inr ⟨hsum, hcheck⟩)

/-- DEC.STR adds the errors of its byte length (43_decoder.md R194, R195 steps 3 and 24 to 28). -/
theorem State.decodedBytes_raise (h : s.decodedBytes check lenEn len = .raise e) :
    e = .capacityExceeded ∨ s.decoded check = .raise e ∨ e = .lengthTooSmall ∧ lenEn = true := by
  rcases Result.ite_raise_eq_raise.1 h with ⟨-, rfl⟩ | ⟨-, h⟩
  · exact .inl rfl
  · rcases Result.bind_eq_raise.1 h with h | ⟨v, -, h⟩
    · exact .inr (.inl h)
    · obtain ⟨hlen, -, he⟩ := byteCount_raise.1 (Result.bind_ok_eq_raise.1 h)
      exact .inr (.inr ⟨he, hlen⟩)

/-! ## A command that ends with an error -/

/-- A commit write after a command's outcome leaves STATUS to the completion. -/
theorem Result.status_of_bind_ok {α : Type} {x : Result α} {commit : α → State}
    (h : (x.bind fun a => .ok (commit a)) = .ok u) (hc : ∀ a, (commit a).status = s.status) :
    u.status = s.status := by
  obtain ⟨a, -, ha⟩ := Result.bind_eq_ok.1 h
  cases ha
  exact hc a

/-- With ERR = 0 before, and commit writes that leave STATUS alone, ERR = 1 at the end is a raise's. -/
theorem State.finish_next_of_err_eq_true {r : Result State} (hok : ∀ u, r = .ok u → u.status = s.status)
    (hs : s.status.err = false) (h : s.finish r = .next t) (ht : t.status.err = true) :
    ∃ e, r = .raise e ∧ t = s.raise e := by
  rcases State.finish_next.1 h with ⟨u, hu, rfl⟩ | hraise
  · simp [hok u hu, hs] at ht
  · exact hraise

/-- A command that ends with ERR = 1 after ERR = 0 has done nothing but its error report. -/
theorem exec_next_of_err_eq_true {i : Instr} (hs : s.status.err = false) (h : exec i s = .next t)
    (ht : t.status.err = true) : ∃ e, t = s.raise e := by
  rcases exec_next h with ⟨u, hu, rfl⟩ | hraise
  · simp [hu.status, hs] at ht
  · exact hraise

theorem encodeValue_status (h : encodeValue check lenEn step len s v = .ok u) : u.status = s.status := by
  obtain ⟨out, -, rfl⟩ := encodeValue_ok h
  rfl

end Sys2Proof.Machine

open Sys2Proof Sys2Proof.Machine

/-- Settles O13: a command with ERR = 1 reports what its outcome raised, and each part of a command raises its own
errors. -/
theorem raisedCodesAreTheCommandsOwn : Obligations.RaisedCodesAreTheCommandsOwn := by
  refine ⟨⟨rfl, rfl, fun _ => rfl, fun _ _ => rfl, rfl, rfl, rfl, rfl⟩, fun i s t hs h ht => ?_⟩
  have key {r : Result State} (hr : exec i s = s.finish r) (hok : ∀ u, r = .ok u → u.status = s.status) :
      ∃ e, r = .raise e ∧ t = s.raise e := State.finish_next_of_err_eq_true hok hs (hr ▸ h) ht
  cases i with
  | nop =>
    obtain ⟨e, he, -⟩ := key (exec_nop s) (by rintro _ ⟨⟩; rfl)
    cases he
  | valfor imm8 =>
    obtain ⟨e, he, -⟩ := key (exec_valfor ..) (by rintro _ ⟨⟩; rfl)
    cases he
  | chksum =>
    obtain ⟨e, he, -⟩ := key (exec_chksum s) (by rintro _ ⟨⟩; rfl)
    cases he
  | encBadsel =>
    obtain ⟨e, he, rfl⟩ := key (exec_encBadsel s) nofun
    cases he
    rfl
  | decBadsel =>
    obtain ⟨e, he, rfl⟩ := key (exec_decBadsel s) nofun
    cases he
    rfl
  | reserved =>
    obtain ⟨e, he, rfl⟩ := key (exec_reserved s) nofun
    cases he
    rfl
  | encInt check lenEn step len =>
    obtain ⟨e, he, rfl⟩ := key (exec_encInt ..) fun _ => encodeValue_status
    rcases encodeValue_raise he with rfl | ⟨rfl, hlen⟩
    · exact .inl rfl
    · exact .inr ⟨rfl, hlen⟩
  | encBytes check lenEn step len =>
    obtain ⟨e, he, rfl⟩ := key (exec_encBytes ..) fun u hu => by
      obtain ⟨v, -, hv⟩ := Result.bind_eq_ok.1 hu
      exact encodeValue_status hv
    rcases Result.bind_eq_raise.1 he with he | ⟨v, -, he⟩
    · obtain ⟨rfl, -⟩ := State.byteOperand_raise he
      exact .inl rfl
    · rcases encodeValue_raise he with rfl | ⟨rfl, hlen⟩
      · exact .inl rfl
      · exact .inr ⟨rfl, hlen⟩
  | decInt check =>
    obtain ⟨e, he, rfl⟩ := key (exec_decInt_eq check s) fun _ hu => Result.status_of_bind_ok hu fun _ => rfl
    rcases State.decoded_raise (Result.bind_ok_eq_raise.1 he) with rfl | ⟨p, rfl⟩ | ⟨⟨y, x, rfl⟩, hcheck⟩
    · exact .inl rfl
    · exact .inr (.inl rfl)
    · exact .inr (.inr ⟨rfl, hcheck⟩)
  | decStr check lenEn len =>
    obtain ⟨e, he, rfl⟩ := key (exec_decStr_eq check lenEn len s) fun _ hu => Result.status_of_bind_ok hu fun _ => rfl
    rcases State.decodedBytes_raise (Result.bind_ok_eq_raise.1 he) with rfl | he | ⟨rfl, hlen⟩
    · exact .inl rfl
    · rcases State.decoded_raise he with rfl | ⟨p, rfl⟩ | ⟨⟨y, x, rfl⟩, hcheck⟩
      · exact .inl rfl
      · exact .inr (.inl rfl)
      · exact .inr (.inr (.inl ⟨rfl, hcheck⟩))
    · exact .inr (.inr (.inr ⟨rfl, hlen⟩))
  | pack =>
    obtain ⟨e, he, rfl⟩ := key (exec_pack s) fun _ hu => Result.status_of_bind_ok hu fun _ => rfl
    obtain ⟨rfl, -⟩ := State.byteOperand_raise (Result.bind_ok_eq_raise.1 he)
    rfl
  | unpack lenEn len =>
    obtain ⟨e, he, rfl⟩ := key (exec_unpack ..) fun u hu =>
      Result.status_of_bind_ok (Result.ite_raise_eq_ok.1 hu).2 fun _ => rfl
    rcases Result.ite_raise_eq_raise.1 he with ⟨hbig, rfl⟩ | ⟨-, he⟩
    · exact ⟨(Bool.and_eq_true_iff.1 hbig).1, .inl rfl⟩
    · obtain ⟨hlen, -, rfl⟩ := byteCount_raise.1 (Result.bind_ok_eq_raise.1 he)
      exact ⟨hlen, .inr rfl⟩
  | symfor imm8 =>
    obtain ⟨e, he, rfl⟩ := key (exec_symfor ..) fun u hu => by
      split at hu <;> cases hu
      rfl
    split at he <;> cases he
    exact ⟨rfl, by omega⟩

/-- Settles O14: ERR = 1 at the end comes from a raise, which writes the report alone. -/
theorem errorsLeaveNoPartialResults : Obligations.ErrorsLeaveNoPartialResults := by
  intro i s t hs h ht
  obtain ⟨e, rfl⟩ := exec_next_of_err_eq_true hs h ht
  exact ⟨s.raise_value e, s.raise_mem e, s.raise_byteLen e, s.raise_symLen e, s.raise_result e⟩

/-- Settles O12: the report's STATUS fields are fixed, and ERR_POS and CHK each belong to one error. -/
theorem raiseWritesExactlyTheReport : Obligations.RaiseWritesExactlyTheReport := by
  refine fun s e => ⟨rfl, rfl, ?_, fun h => CmdError.errPosAfter_of_ne h _, ?_, fun h => CmdError.chkAfter_of_ne h _⟩
  · rintro pos rfl
    rfl
  · rintro actual expected rfl
    exact CmdError.word_chkAfter_checksumMismatch actual expected s.chk

end

section
/-! The state right after reset (70_reset_and_hazards.md R260) and the command whose operands are ready (R261). -/

namespace Sys2Proof.Machine

open Sys2Proof

variable {s : State}

/-! ## The reset input's turn -/

/-- The reset input acts whether BUSY is 0 or 1. -/
theorem step_of_reset (hc : s.cfg.Legal) {rest : List Turn} (hs : s.sched = .reset :: rest) :
    step s = .next s.turnTaken.hardReset := by
  have hturn : s.turn = .reset := by rw [State.turn, hs]
  rw [step_of_legal hc, hturn]

/-! ## STATUS and CHK as words -/

theorem Status.word_zero :
    Status.word { busy := false, done := false, err := false, werr := false, errCode := 0 } = 0 := by decide

theorem Chk.word_zero : Chk.word { actual := 0, expected := 0 } = 0 := by decide

/-! ## The arrays without an entry (10_state.md R33 to R35) -/

theorem unlisted_of_value {c : Config} (hc : c.Legal) {a : Nat} (hlo : 0x100 ≤ a) (hhi : a < 0x100 + c.vb) :
    unlisted a = some 0 := by
  obtain ⟨⟨-, -, hvb⟩, -⟩ := hc
  exact if_pos ⟨hlo, by rw [byteBufBase]; omega⟩

theorem unlisted_of_buffer {a : Nat} (ha : 0x200 ≤ a) : unlisted a = none :=
  if_neg fun h => Nat.not_lt.2 ha h.2

theorem bytesToInteger_replicate_zero (n : Nat) : bytesToInteger (List.replicate n 0) = 0 := by
  induction n with
  | zero => rfl
  | succ n ih =>
    rw [List.replicate_succ, bytesToInteger, ih]
    rfl

/-- With no entry in the memory, val(VALUE) is 0. -/
theorem State.value_of_mem_nil (hc : s.cfg.Legal) (hm : s.mem = []) : s.value = 0 := by
  have hzero : Mem.Holds s.mem valueBase (List.replicate s.cfg.vb 0) := fun k hk => by
    rw [List.length_replicate] at hk
    rw [hm, List.getElem?_replicate_of_lt hk]
    exact unlisted_of_value hc (Nat.le_add_right _ _) (Nat.add_lt_add_left hk _)
  rw [State.value, State.valueBytes_of_holds List.length_replicate hzero, bytesToInteger_replicate_zero]

end Sys2Proof.Machine

open Sys2Proof Sys2Proof.Machine

/-- Settles O57: no command is refused, none stops on a written byte, and every completion sets DONE. -/
theorem commandsWithWrittenOperandsComplete : Obligations.CommandsWithWrittenOperandsComplete := by
  intro i s hready
  obtain ⟨t, ht⟩ := exec_of_operandsReady hready
  obtain ⟨-, hdone, -⟩ := completionEndsTheCommand i s t ht
  exact ⟨t, ht, hdone⟩

/-- Settles O54: the reset step does not look at BUSY; its memory lists nothing, so VALUE reads 0 and the
buffers hold no value. -/
theorem resetGivesTheResetValues : Obligations.ResetGivesTheResetValues := by
  refine ⟨fun s rest hc hs => ?_, rfl, Status.word_zero, rfl, Chk.word_zero, rfl, rfl, rfl, rfl⟩
  exact ⟨s.turnTaken.hardReset, step_of_reset hc hs, rfl, rfl, Status.word_zero, rfl, Chk.word_zero, rfl, rfl, rfl,
    State.value_of_mem_nil hc rfl, fun _ => unlisted_of_value hc, fun _ => unlisted_of_buffer⟩

/-- Settles O55: the reference configuration is a legal one. -/
theorem resetStateMeetsTheInvariant : Obligations.ResetStateMeetsTheInvariant :=
  ⟨State.resetWith_inv (by decide), fun _ => State.resetWith_inv⟩

end
